-- ==== Sys2Proof/Word.lean ====
section
/-! DEFINITION. The words of Pilot24 and its three operation sizes (00_scope.md R5, R7, R8). -/

namespace Sys2Proof

/-- One byte of memory, or an 8-bit register value. -/
abbrev Byte := BitVec 8

/-- One 16-bit instruction word. -/
abbrev Word := BitVec 16

/-- A 24-bit register value or address (R5: "address width 24 bits", "general registers ... 24 bits"). -/
abbrev Ptr := BitVec 24

/-- A register number: every register field of an instruction is 3 bits (10_state.md R22). -/
abbrev RegNum := BitVec 3

/-- The operation size, suffix `.B`, `.W` or `.P` (R8). -/
inductive Size where
  | b | w | p
deriving DecidableEq, Repr

/-- `bits(z)` of R8. -/
@[reducible] def Size.bits : Size → Nat
  | .b => 8
  | .w => 16
  | .p => 24

/-- `bytes(z)` of R8. -/
def Size.bytes : Size → Nat
  | .b => 1
  | .w => 2
  | .p => 3

end Sys2Proof
end

