-- ==== Sys2Proof/Config.lean ====
section
/-! DEFINITION. The parameters the spec leaves open (00_scope.md R6): free values, which are constants without a body,
the one parameter for which the spec names a default, and the types of the parameter `MemoryMap`, whose value is data in
State. The parameters `IrqOracle` and `RepeatMisuse` are not here: see notes/assumptions 4 and 11. -/

namespace Sys2Proof

/-! ### The memory map (`MemoryMap`, 20_memory.md R62, log entries 1 and 20) -/

/-- What the platform puts at an address (R62: "which addresses hold RAM, ROM or devices, which are empty"). -/
inductive MemKind where
  /-- A read gives the byte last written. -/
  | ram
  /-- A read gives a byte that no store of the core changes. -/
  | rom
  /-- The platform answers. -/
  | device
  /-- Nothing backs the address: "an access to an address the platform does not back has no ISA-defined result". -/
  | empty
deriving DecidableEq, Repr

/-- `size` addresses from `base` onwards, of one kind. -/
structure Region where
  base : Nat
  size : Nat
  kind : MemKind
deriving DecidableEq, Repr

/-- The regions of the map: the first that holds an address gives its kind. -/
abbrev MemoryMap := List Region

/-- The kind of an address; one that no region holds is empty. -/
def MemoryMap.kindAt : MemoryMap → Nat → MemKind
  | [], _ => .empty
  | r :: rest, a => if r.base ≤ a ∧ a < r.base + r.size then r.kind else MemoryMap.kindAt rest a

/-- One access on the bus: "an 8-bit and a 16-bit access are each one bus access", and a 24-bit access is two (20_memory.md
R68, R72). -/
inductive BusCycle where
  | read8 (a : Ptr)
  | read16 (a : Ptr)
  | write8 (a : Ptr) (v : Byte)
  | write16 (a : Ptr) (v : Word)
deriving DecidableEq, Repr

/-- The byte that the platform answers at an address that is not memory, free in every access: it may depend on all accesses
that the platform has seen, the present one first. So a read may have side effects on later ones (R62). Log entry 20. -/
opaque Config.answer : List BusCycle → Ptr → Byte

/-! ### Open values of instructions and of reset -/

/-- The stored byte and the five flags of a Decimal Mode operation on a byte that is not valid BCD
(`BcdInvalidResult`, 42_arithmetic.md R204: "the stored result and S, Z, C, X, VP are all `any`"). -/
structure BcdInvalid where
  res : Byte
  s : Bool
  z : Bool
  c : Bool
  x : Bool
  vp : Bool
deriving DecidableEq, Repr, Inhabited

/-- The four values that a divide whose quotient overflows leaves open (`DivOverflowResult`, 42_arithmetic.md R233).
`quot` and `rem` are cut to the operation size where they are stored. -/
structure DivOverflow where
  quot : Ptr
  rem : Ptr
  s : Bool
  z : Bool
deriving DecidableEq, Repr, Inhabited

/-- The two readings of signed division (`DivsRounding`, 92_eei_decisions.md D15). -/
inductive DivsRounding where
  | truncate | floor
deriving DecidableEq, Repr

/-- `DecimalVP` (R204): the VP flag after a Decimal Mode calculation, free at each use. Log entry 6. -/
opaque Config.decimalVP : Nat → Bool

/-- `BcdInvalidResult` (R204), free at each use. Log entry 7. -/
opaque Config.bcdInvalid : Nat → BcdInvalid

/-- `DivOverflowResult` (R233): "a function from (`z`, signed or unsigned, dividend, divisor) to the four values".
The dividend and the divisor are given by their unsigned readings. Log entry 8. -/
opaque Config.divOverflow : Size → (isSigned : Bool) → (dividend divisor : Nat) → DivOverflow

/-- `EaOfNonMemory` (40_operands.md R158): the address that LEA, JEA and CEA take from a register or immediate
operand, free at each use. Log entry 10. -/
opaque Config.eaOfNonMemory : Nat → Ptr

/-- `ResetValues` (70_reset_and_hazards.md R411) when the Reset line is asserted: P0 to P6. Log entry 3. -/
opaque Config.resetP : Nat → RegNum → Ptr

/-- `ResetValues` (R411) when the Reset line is asserted: the low byte F of the status register. Log entry 3. -/
opaque Config.resetF : Nat → Byte

/-- `ResetValues` (R411) when the Reset line is asserted: `REPI.N`. Log entry 3. -/
opaque Config.resetRepiN : Nat → BitVec 5

/-- `ResetValues` (R411) when the Reset line is asserted: `REPR.R`. Log entry 3. -/
opaque Config.resetReprR : Nat → RegNum

/-- `DivsRounding`: the spec's own choice is truncation toward zero (R234, D15). Log entry 9. -/
def Config.divsRounding : DivsRounding := .truncate

end Sys2Proof
end

