-- ==== Sys2Proof/Syntax.lean ====
section
/-! DEFINITION. The instructions of Pilot24: RM operands (30_encoding.md R96 to R99), conditions (10_state.md R36) and one
constructor of `Instr` for each row of the opcode table (R110), the ten assembler rows of 48_macros.md last. -/

namespace Sys2Proof

/-- The index of an indexed operand: the five patterns of 30_encoding.md R98 and R99. `isSigned` is the `SX` mark. -/
inductive Index where
  /-- `r8` or `r8SX`. -/
  | byte (isSigned : Bool) (r : RegNum)
  /-- `r16` or `r16SX`. -/
  | word (isSigned : Bool) (r : RegNum)
  /-- `r24`. -/
  | ptr (r : RegNum)
deriving DecidableEq, Repr

/-- An RM operand with its extension words (30_encoding.md R96). The last two constructors hold the words of an indexed
operand whose index word matches none of the five patterns (R116): well-formedness refuses them, and evaluating one raises
IllegalInstruction (40_operands.md R152, R153). -/
inductive Rm where
  /-- Register, `0rrr00`. -/
  | reg (r : RegNum)
  /-- Register Relative `@r24+simm16`, `0rrr01 imm16`. -/
  | rel (r : RegNum) (d : Word)
  /-- Register Indirect `@r24`, `0rrr10`. -/
  | ind (r : RegNum)
  /-- Post-Increment `@r24+`, `1rrr00`. -/
  | postInc (r : RegNum)
  /-- Pre-Decrement `@-r24`, `1rrr10`. -/
  | preDec (r : RegNum)
  /-- Short Form Immediate `uimm4`, `nnnn11`. -/
  | short (n : BitVec 4)
  /-- Immediate `simm16`, `100001 imm16`. -/
  | imm16 (d : Word)
  /-- Immediate `imm24`, `100101` and two words, of which R100 ignores the upper byte. -/
  | imm24 (v : Ptr)
  /-- Absolute `@simm16`, `101001 imm16`. -/
  | abs16 (d : Word)
  /-- Absolute `@imm24`, `101101` and two words. -/
  | abs24 (v : Ptr)
  /-- PGC Relative `@PGC+simm16`, `110001 imm16`. -/
  | pcRel16 (d : Word)
  /-- PGC Relative `@PGC+imm24`, `110101` and two words. -/
  | pcRel24 (v : Ptr)
  /-- Register Indexed, `111001 idx`. -/
  | regIdx (base : RegNum) (ix : Index)
  /-- Absolute Indexed, `111101 ml idx`; `base` is `hml`. -/
  | absIdx (base : Ptr) (ix : Index)
  /-- `111001` with a malformed index word. -/
  | badRegIdx (idx : Word)
  /-- `111101` with a malformed index word. -/
  | badAbsIdx (ml idx : Word)
deriving DecidableEq, Repr

/-- The fourteen conditions, codes 0 to 13 in order (10_state.md R36). -/
inductive Cond where
  | le | gt | lt | ge | ule | ugt | c | nc | m | p | ov | nov | z | nz
deriving DecidableEq, Repr

/-- The instructions: one constructor for each row of spec/opcode_table.json, in its order. -/
inductive Instr where
  /-- `NOP`, `0000 0000 0000 0000`, R323. -/
  | nop
  /-- `HALT`, `0000 0000 0000 0001`, R322. -/
  | halt
  /-- `ILG`, `0000 0000 0000 0010`, R324. -/
  | ilg
  /-- `LD.B F, rm8.src`, `0000 0001 00ss ssss`, R172. -/
  | ldFRm (m : Rm)
  /-- `LD.W WF, rm16.src`, `0100 0001 00ss ssss`, R173. -/
  | ldWfRm (m : Rm)
  /-- `LD.B rm8.dst, F`, `0000 0101 00dd dddd`, R174. -/
  | ldRmF (m : Rm)
  /-- `LD.W rm16.dst, WF`, `0100 0101 00dd dddd`, R175. -/
  | ldRmWf (m : Rm)
  /-- `ADQ.z rm.rmw, uimm3+1`, `zz00 0nnn 01mm mmmm`, R211; the operand is `n + 1`. -/
  | adq (z : Size) (n : BitVec 3) (m : Rm)
  /-- `RLC.z rm.rmw`, `zz00 0000 10mm mmmm`, R266. -/
  | rlc (z : Size) (m : Rm)
  /-- `RRC.z rm.rmw`, `zz00 0001 10mm mmmm`, R267. -/
  | rrc (z : Size) (m : Rm)
  /-- `RL.z rm.rmw`, `zz00 0010 10mm mmmm`, R264. -/
  | rl (z : Size) (m : Rm)
  /-- `RR.z rm.rmw`, `zz00 0011 10mm mmmm`, R265. -/
  | rr (z : Size) (m : Rm)
  /-- `SLA.z rm.rmw`, `zz00 0100 10mm mmmm`, R261. -/
  | sla (z : Size) (m : Rm)
  /-- `SRA.z rm.rmw`, `zz00 0101 10mm mmmm`, R262. -/
  | sra (z : Size) (m : Rm)
  /-- `SWAP.B rm.rmw`, `0000 0110 10mm mmmm`, R184. -/
  | swapB (m : Rm)
  /-- `SWAP.W rm.rmw`, `0100 0110 10mm mmmm`, R185. -/
  | swapW (m : Rm)
  /-- `SWAP.P rm.rmw`, `1000 0110 10mm mmmm`, R186. -/
  | swapP (m : Rm)
  /-- `SRL.z rm.rmw`, `zz00 0111 10mm mmmm`, R263. -/
  | srl (z : Size) (m : Rm)
  /-- `SBQ.z rm.rmw, uimm3+1`, `zz00 0nnn 11mm mmmm`, R218; the operand is `n + 1`. -/
  | sbq (z : Size) (n : BitVec 3) (m : Rm)
  /-- `TST.z rm.src, L0/W0/P0`, `zz00 1000 00ss ssss`, R254. -/
  | tst (z : Size) (m : Rm)
  /-- `MULU.z r, rm.src`, `zz00 1rrr 00ss ssss`, `r != 0`, R221. -/
  | mulu (z : Size) (r : RegNum) (m : Rm)
  /-- `CPL.z rm.rmw`, `zz00 1000 01mm mmmm`, R253. -/
  | cpl (z : Size) (m : Rm)
  /-- `MULS.z r, rm.src`, `zz00 1rrr 01ss ssss`, `r != 0`, R222. -/
  | muls (z : Size) (r : RegNum) (m : Rm)
  /-- `NEG.z rm.rmw`, `zz00 1000 10mm mmmm`, R219. -/
  | neg (z : Size) (m : Rm)
  /-- `DIVU.z r, rm.src`, `zz00 1rrr 10ss ssss`, `r != 0`, R232. -/
  | divu (z : Size) (r : RegNum) (m : Rm)
  /-- `NGX.z rm.rmw`, `zz00 1000 11mm mmmm`, R220. -/
  | ngx (z : Size) (m : Rm)
  /-- `DIVS.z r, rm.src`, `zz00 1rrr 11ss ssss`, `r != 0`, R234. -/
  | divs (z : Size) (r : RegNum) (m : Rm)
  /-- `LD.z rm.dst, rm.src`, `zz01 dddd ddss ssss`, R171; `d` the destination, `m` the source. -/
  | ldRmRm (z : Size) (d m : Rm)
  /-- `LDZX.z r24, rm.src`, `0z01 0rrr 11ss ssss`, `.B` and `.W` only, R180. -/
  | ldzx (z : Size) (r : RegNum) (m : Rm)
  /-- `LDSX.z r24, rm.src`, `0z01 1rrr 11ss ssss`, `.B` and `.W` only, R181. -/
  | ldsx (z : Size) (r : RegNum) (m : Rm)
  /-- `LEA r24, rm24.src`, `1001 0rrr 11ss ssss`, R182. -/
  | lea (r : RegNum) (m : Rm)
  /-- `LEA @-r24, rm24.src`, `1001 1rrr 11ss ssss`, R183. -/
  | leaPre (r : RegNum) (m : Rm)
  /-- `ADD.z r, rm.src`, `zz10 0rrr 00ss ssss`, R205. -/
  | addRRm (z : Size) (r : RegNum) (m : Rm)
  /-- `ADX.z r, rm.src`, `zz10 0rrr 01ss ssss`, R208. -/
  | adxRRm (z : Size) (r : RegNum) (m : Rm)
  /-- `SUB.z r, rm.src`, `zz10 0rrr 10ss ssss`, R212. -/
  | subRRm (z : Size) (r : RegNum) (m : Rm)
  /-- `SBX.z r, rm.src`, `zz10 0rrr 11ss ssss`, R215. -/
  | sbxRRm (z : Size) (r : RegNum) (m : Rm)
  /-- `AND.z r, rm.src`, `zz10 1rrr 00ss ssss`, R241. -/
  | andRRm (z : Size) (r : RegNum) (m : Rm)
  /-- `XOR.z r, rm.src`, `zz10 1rrr 01ss ssss`, R244. -/
  | xorRRm (z : Size) (r : RegNum) (m : Rm)
  /-- `OR.z r, rm.src`, `zz10 1rrr 10ss ssss`, R247. -/
  | orRRm (z : Size) (r : RegNum) (m : Rm)
  /-- `CP.z r, rm.src`, `zz10 1rrr 11ss ssss`, R235. -/
  | cpRRm (z : Size) (r : RegNum) (m : Rm)
  /-- `ADD.z rm.rmw, r`, `zz11 0rrr 00mm mmmm`, R206. -/
  | addRmR (z : Size) (m : Rm) (r : RegNum)
  /-- `ADX.z rm.rmw, r`, `zz11 0rrr 01mm mmmm`, R209. -/
  | adxRmR (z : Size) (m : Rm) (r : RegNum)
  /-- `SUB.z rm.rmw, r`, `zz11 0rrr 10mm mmmm`, R213. -/
  | subRmR (z : Size) (m : Rm) (r : RegNum)
  /-- `SBX.z rm.rmw, r`, `zz11 0rrr 11mm mmmm`, R216. -/
  | sbxRmR (z : Size) (m : Rm) (r : RegNum)
  /-- `AND.z rm.rmw, r`, `zz11 1rrr 00mm mmmm`, R242. -/
  | andRmR (z : Size) (m : Rm) (r : RegNum)
  /-- `XOR.z rm.rmw, r`, `zz11 1rrr 01mm mmmm`, R245. -/
  | xorRmR (z : Size) (m : Rm) (r : RegNum)
  /-- `OR.z rm.rmw, r`, `zz11 1rrr 10mm mmmm`, R248. -/
  | orRmR (z : Size) (m : Rm) (r : RegNum)
  /-- `ADD.z rm.rmw, imm`, `zz11 1000 11mm mmmm`, then `imm*`, R207. -/
  | addRmImm (z : Size) (m : Rm) (imm : Ptr)
  /-- `ADX.z rm.rmw, imm`, `zz11 1001 11mm mmmm`, then `imm*`, R210. -/
  | adxRmImm (z : Size) (m : Rm) (imm : Ptr)
  /-- `SUB.z rm.rmw, imm`, `zz11 1010 11mm mmmm`, then `imm*`, R214. -/
  | subRmImm (z : Size) (m : Rm) (imm : Ptr)
  /-- `SBX.z rm.rmw, imm`, `zz11 1011 11mm mmmm`, then `imm*`, R217. -/
  | sbxRmImm (z : Size) (m : Rm) (imm : Ptr)
  /-- `AND.z rm.rmw, imm`, `zz11 1100 11mm mmmm`, then `imm*`, R243. -/
  | andRmImm (z : Size) (m : Rm) (imm : Ptr)
  /-- `XOR.z rm.rmw, imm`, `zz11 1101 11mm mmmm`, then `imm*`, R246. -/
  | xorRmImm (z : Size) (m : Rm) (imm : Ptr)
  /-- `OR.z rm.rmw, imm`, `zz11 1110 11mm mmmm`, then `imm*`, R249. -/
  | orRmImm (z : Size) (m : Rm) (imm : Ptr)
  /-- `CP.z rm.src, imm`, `zz11 1111 11ss ssss`, then `imm*`, R236. -/
  | cpRmImm (z : Size) (m : Rm) (imm : Ptr)
  /-- `LD.P r24, hml`, `1100 0rrr hhhh hhhh`, then `ml`, R176. -/
  | ldPHml (r : RegNum) (v : Ptr)
  /-- `LDQ r24, simm8`, `1100 1rrr iiii iiii`, R177. -/
  | ldq (r : RegNum) (n : BitVec 8)
  /-- `BIT imm, rm8.src`, `1101 0nnn 00ss ssss`, R281. -/
  | bitImm (k : BitVec 3) (m : Rm)
  /-- `CHG imm, rm8.rmw`, `1101 0nnn 01mm mmmm`, R282. -/
  | chgImm (k : BitVec 3) (m : Rm)
  /-- `RES imm, rm8.rmw`, `1101 0nnn 10mm mmmm`, R283. -/
  | resImm (k : BitVec 3) (m : Rm)
  /-- `SET imm, rm8.rmw`, `1101 0nnn 11mm mmmm`, R284. -/
  | setImm (k : BitVec 3) (m : Rm)
  /-- `BIT M0, rm8.src`, `1101 1000 00ss ssss`, R285. -/
  | bitM0 (m : Rm)
  /-- `CHG M0, rm8.rmw`, `1101 1000 01mm mmmm`, R286. -/
  | chgM0 (m : Rm)
  /-- `RES M0, rm8.rmw`, `1101 1000 10mm mmmm`, R287. -/
  | resM0 (m : Rm)
  /-- `SET M0, rm8.rmw`, `1101 1000 11mm mmmm`, R288. -/
  | setM0 (m : Rm)
  /-- `LD IRL, imm`, `1101 1011 0000 0nnn`, R179. -/
  | ldIrl (n : BitVec 3)
  /-- `AND.B F, imm`, `1101 1100 nnnn nnnn`, R250. -/
  | andF (n : Byte)
  /-- `XOR.B F, imm`, `1101 1101 nnnn nnnn`, R251. -/
  | xorF (n : Byte)
  /-- `OR.B F, imm`, `1101 1110 nnnn nnnn`, R252. -/
  | orF (n : Byte)
  /-- `LD.B F, imm`, `1101 1111 nnnn nnnn`, R178. -/
  | ldFImm (n : Byte)
  /-- `JR cond, offset8*2`, `1110 cccc oooo oooo`, `c <= 13`, R290. -/
  | jrCond (cc : Cond) (o : BitVec 8)
  /-- `JR.S offset8*2`, `1110 1110 oooo oooo`, R291. -/
  | jrS (o : BitVec 8)
  /-- `CR.S offset8*2`, `1110 1111 oooo oooo`, R296. -/
  | crS (o : BitVec 8)
  /-- `REPR r24`, `1111 0rrr 0000 0000`, R321. -/
  | repr (r : RegNum)
  /-- `DJNZ r24, offset7*2`, `1111 0rrr 1ooo oooo`, R309. -/
  | djnz (r : RegNum) (o : BitVec 7)
  /-- `JP hml`, `1111 1000 hhhh hhhh`, then `ml` even, R293. -/
  | jpHml (v : Ptr)
  /-- `JR.L offset24-1`, `1111 1000 hhhh hhhh`, then `ml` odd, R292; `v` is the stored field, odd. -/
  | jrL (v : Ptr)
  /-- `CALL hml`, `1111 1001 hhhh hhhh`, then `ml` even, R298. -/
  | callHml (v : Ptr)
  /-- `CR.L offset24-1`, `1111 1001 hhhh hhhh`, then `ml` odd, R297; `v` is the stored field, odd. -/
  | crL (v : Ptr)
  /-- `JP rm24.src`, `1111 1010 00ss ssss`, R294. -/
  | jpRm (m : Rm)
  /-- `JEA rm24.src`, `1111 1010 01ss ssss`, R295. -/
  | jea (m : Rm)
  /-- `CALL rm24.src`, `1111 1011 00ss ssss`, R299. -/
  | callRm (m : Rm)
  /-- `CEA rm24.src`, `1111 1011 01ss ssss`, R300. -/
  | cea (m : Rm)
  /-- `REPI uimm5+1`, `1111 1110 000n nnnn`, R320; the count is `n + 1`. -/
  | repi (n : BitVec 5)
  /-- `RST $FFDnn0`, `1111 1111 nnnn nnnn`, R308. -/
  | rst (n : Byte)
  /-- assembler row `PUSH.z src` = `LD.z @-SP, src`, R341. -/
  | push (z : Size) (m : Rm)
  /-- assembler row `PEA src` = `LEA @-SP, src`, R342. -/
  | pea (m : Rm)
  /-- assembler row `POP.z dst` = `LD.z dst, @SP+`, R343. -/
  | pop (z : Size) (d : Rm)
  /-- assembler row `RXF` = `AND.B F, $FE`, R344. -/
  | rxf
  /-- assembler row `SXF` = `OR.B F, $01`, R345. -/
  | sxf
  /-- assembler row `CXF` = `XOR.B F, $01`, R346. -/
  | cxf
  /-- assembler row `DDM` = `AND.B F, $FD`, R347. -/
  | ddm
  /-- assembler row `EDM` = `OR.B F, $02`, R348. -/
  | edm
  /-- assembler row `RET` = `JP @SP+`, R349. -/
  | ret
  /-- assembler row `RETI` = `LD.W WF, @SP+` then `JP @SP+`, R350. -/
  | reti
deriving DecidableEq, Repr

/-- The number of extension words of an RM field, `ExtRM(m)` (30_encoding.md R97). -/
def Rm.ext : Rm → Nat
  | .reg _ | .ind _ | .postInc _ | .preDec _ | .short _ => 0
  | .rel _ _ | .imm16 _ | .abs16 _ | .pcRel16 _ | .regIdx _ _ | .badRegIdx _ => 1
  | .imm24 _ | .abs24 _ | .pcRel24 _ | .absIdx _ _ | .badAbsIdx _ _ => 2

/-- The number of words of `imm*` (30_encoding.md R92, R101). -/
def Size.immWords : Size → Nat
  | .b | .w => 1
  | .p => 2

end Sys2Proof
end

