-- ==== Sys2Proof/WellFormed.lean ====
section
/-! DEFINITION. Which terms of the abstract instruction set have an encoding (30_encoding.md). -/

namespace Sys2Proof

/-- An RM operand whose index word, if it has one, matches a listed pattern (30_encoding.md R98, R99, R116). -/
def Rm.wellFormed : Rm → Bool
  | .badRegIdx _ | .badAbsIdx _ _ => false
  | .reg _ | .rel _ _ | .ind _ | .postInc _ | .preDec _ | .short _ | .imm16 _ | .imm24 _ | .abs16 _ | .abs24 _
  | .pcRel16 _ | .pcRel24 _ | .regIdx _ _ | .absIdx _ _ => true

/-- LD can never have a short-form-immediate destination (30_encoding.md R113). -/
def Rm.isShort : Rm → Bool
  | .short _ => true
  | .reg _ | .rel _ _ | .ind _ | .postInc _ | .preDec _ | .imm16 _ | .imm24 _ | .abs16 _ | .abs24 _
  | .pcRel16 _ | .pcRel24 _ | .regIdx _ _ | .absIdx _ _ | .badRegIdx _ | .badAbsIdx _ _ => false

/-- The immediate of an `rm, imm` form fits the operation size (30_encoding.md R101). -/
def Size.fits (z : Size) (imm : Ptr) : Bool := (imm.setWidth z.bits).setWidth 24 == imm

/-- The terms that some instruction words encode. -/
def Instr.wellFormed : Instr → Bool
  | .nop | .halt | .ilg => true
  | .ldFRm m | .ldWfRm m | .ldRmF m | .ldRmWf m => m.wellFormed
  | .adq _ _ m | .sbq _ _ m => m.wellFormed
  | .rlc _ m | .rrc _ m | .rl _ m | .rr _ m | .sla _ m | .sra _ m | .srl _ m => m.wellFormed
  | .swapB m | .swapW m | .swapP m => m.wellFormed
  | .tst _ m | .cpl _ m | .neg _ m | .ngx _ m => m.wellFormed
  -- R112: with register number 0 these words are TST, CPL, NEG, NGX
  | .mulu _ r m | .muls _ r m | .divu _ r m | .divs _ r m => r != 0 && m.wellFormed
  | .ldRmRm _ d m => d.wellFormed && !d.isShort && m.wellFormed
  -- R94: LDZX and LDSX "can't be used with .P"
  | .ldzx z _ m | .ldsx z _ m => z != .p && m.wellFormed
  | .lea _ m | .leaPre _ m => m.wellFormed
  | .addRRm _ _ m | .adxRRm _ _ m | .subRRm _ _ m | .sbxRRm _ _ m | .andRRm _ _ m | .xorRRm _ _ m | .orRRm _ _ m
  | .cpRRm _ _ m => m.wellFormed
  | .addRmR _ m _ | .adxRmR _ m _ | .subRmR _ m _ | .sbxRmR _ m _ | .andRmR _ m _ | .xorRmR _ m _
  | .orRmR _ m _ => m.wellFormed
  | .addRmImm z m imm | .adxRmImm z m imm | .subRmImm z m imm | .sbxRmImm z m imm | .andRmImm z m imm
  | .xorRmImm z m imm | .orRmImm z m imm | .cpRmImm z m imm => m.wellFormed && z.fits imm
  | .ldPHml _ _ | .ldq _ _ => true
  | .bitImm _ m | .chgImm _ m | .resImm _ m | .setImm _ m => m.wellFormed
  | .bitM0 m | .chgM0 m | .resM0 m | .setM0 m => m.wellFormed
  | .ldIrl _ | .andF _ | .xorF _ | .orF _ | .ldFImm _ => true
  | .jrCond _ _ | .jrS _ | .crS _ | .repr _ | .djnz _ _ => true
  -- R114: bit 0 of `hml` tells the absolute form from the relative one
  | .jpHml v | .callHml v => !v.getLsbD 0
  | .jrL v | .crL v => v.getLsbD 0
  | .jpRm m | .jea m | .callRm m | .cea m => m.wellFormed
  | .repi _ | .rst _ => true
  | .push _ m | .pea m => m.wellFormed
  | .pop _ d => d.wellFormed && !d.isShort
  | .rxf | .sxf | .cxf | .ddm | .edm | .ret | .reti => true

/-- The ten assembler rows, which "have no opcode of their own" (48_macros.md R340): no word decodes to one of them. -/
def Instr.isAssemblerRow : Instr → Bool
  | .push _ _ | .pea _ | .pop _ _ | .rxf | .sxf | .cxf | .ddm | .edm | .ret | .reti => true
  | .nop | .halt | .ilg | .ldFRm _ | .ldWfRm _ | .ldRmF _ | .ldRmWf _ | .adq _ _ _ | .sbq _ _ _
  | .rlc _ _ | .rrc _ _ | .rl _ _ | .rr _ _ | .sla _ _ | .sra _ _ | .srl _ _ | .swapB _ | .swapW _ | .swapP _
  | .tst _ _ | .cpl _ _ | .neg _ _ | .ngx _ _ | .mulu _ _ _ | .muls _ _ _ | .divu _ _ _ | .divs _ _ _
  | .ldRmRm _ _ _ | .ldzx _ _ _ | .ldsx _ _ _ | .lea _ _ | .leaPre _ _
  | .addRRm _ _ _ | .adxRRm _ _ _ | .subRRm _ _ _ | .sbxRRm _ _ _ | .andRRm _ _ _ | .xorRRm _ _ _ | .orRRm _ _ _
  | .cpRRm _ _ _ | .addRmR _ _ _ | .adxRmR _ _ _ | .subRmR _ _ _ | .sbxRmR _ _ _ | .andRmR _ _ _ | .xorRmR _ _ _
  | .orRmR _ _ _ | .addRmImm _ _ _ | .adxRmImm _ _ _ | .subRmImm _ _ _ | .sbxRmImm _ _ _ | .andRmImm _ _ _
  | .xorRmImm _ _ _ | .orRmImm _ _ _ | .cpRmImm _ _ _ | .ldPHml _ _ | .ldq _ _
  | .bitImm _ _ | .chgImm _ _ | .resImm _ _ | .setImm _ _ | .bitM0 _ | .chgM0 _ | .resM0 _ | .setM0 _
  | .ldIrl _ | .andF _ | .xorF _ | .orF _ | .ldFImm _ | .jrCond _ _ | .jrS _ | .crS _ | .repr _ | .djnz _ _
  | .jpHml _ | .jrL _ | .callHml _ | .crL _ | .jpRm _ | .jea _ | .callRm _ | .cea _ | .repi _ | .rst _ => false

/-- `Len`: the number of words of the instruction (30_encoding.md R92); of an assembler row, the words of its expansion. -/
def Instr.len : Instr → Nat
  | .nop | .halt | .ilg => 1
  | .ldFRm m | .ldWfRm m | .ldRmF m | .ldRmWf m => 1 + m.ext
  | .adq _ _ m | .sbq _ _ m => 1 + m.ext
  | .rlc _ m | .rrc _ m | .rl _ m | .rr _ m | .sla _ m | .sra _ m | .srl _ m => 1 + m.ext
  | .swapB m | .swapW m | .swapP m => 1 + m.ext
  | .tst _ m | .cpl _ m | .neg _ m | .ngx _ m => 1 + m.ext
  | .mulu _ _ m | .muls _ _ m | .divu _ _ m | .divs _ _ m => 1 + m.ext
  | .ldRmRm _ d m => 1 + m.ext + d.ext
  | .ldzx _ _ m | .ldsx _ _ m | .lea _ m | .leaPre _ m => 1 + m.ext
  | .addRRm _ _ m | .adxRRm _ _ m | .subRRm _ _ m | .sbxRRm _ _ m | .andRRm _ _ m | .xorRRm _ _ m | .orRRm _ _ m
  | .cpRRm _ _ m => 1 + m.ext
  | .addRmR _ m _ | .adxRmR _ m _ | .subRmR _ m _ | .sbxRmR _ m _ | .andRmR _ m _ | .xorRmR _ m _
  | .orRmR _ m _ => 1 + m.ext
  | .addRmImm z m _ | .adxRmImm z m _ | .subRmImm z m _ | .sbxRmImm z m _ | .andRmImm z m _ | .xorRmImm z m _
  | .orRmImm z m _ | .cpRmImm z m _ => 1 + z.immWords + m.ext
  | .ldPHml _ _ => 2
  | .ldq _ _ => 1
  | .bitImm _ m | .chgImm _ m | .resImm _ m | .setImm _ m => 1 + m.ext
  | .bitM0 m | .chgM0 m | .resM0 m | .setM0 m => 1 + m.ext
  | .ldIrl _ | .andF _ | .xorF _ | .orF _ | .ldFImm _ => 1
  | .jrCond _ _ | .jrS _ | .crS _ | .repr _ | .djnz _ _ => 1
  | .jpHml _ | .jrL _ | .callHml _ | .crL _ => 2
  | .jpRm m | .jea m | .callRm m | .cea m => 1 + m.ext
  | .repi _ | .rst _ => 1
  | .push _ m | .pea m | .pop _ m => 1 + m.ext
  | .rxf | .sxf | .cxf | .ddm | .edm | .ret => 1
  | .reti => 2

end Sys2Proof
end

