-- ==== Sys2Proof/Decode.lean ====
section
/-! DEFINITION. The decoder and, after it, the encoder (30_encoding.md). Both are total. The decoder reads bytes in the
order they lie in memory and refuses by name; the encoder writes the words of a well-formed instruction. -/

namespace Sys2Proof

/-- Why the decoder gives no instruction. -/
inductive DecodeError where
  /-- The bytes end before the instruction does. Five words are always enough (R92). -/
  | truncated
  /-- The first word selects no row of R110 (R115). -/
  | nonexistent (w : Word)
  /-- An index word matches none of the five patterns (R116); the term holds the operands as read, so that what happens
  before the malformed word is evaluated can be modelled (40_operands.md R162). -/
  | malformed (i : Instr)
deriving DecidableEq, Repr

/-! ### Fields of the first word (R93 to R96) -/

/-- The six places of a first word: bits 15:14, 13:12, 11, 10:8, 7:6 and 5:0. Every field of R105 is one of them or
several side by side. -/
structure FirstWord where
  zz : BitVec 2
  c : BitVec 2
  b : BitVec 1
  r : RegNum
  f : BitVec 2
  m : BitVec 6
deriving DecidableEq, Repr

def FirstWord.split (w : Word) : FirstWord where
  zz := w.extractLsb' 14 2
  c := w.extractLsb' 12 2
  b := w.extractLsb' 11 1
  r := w.extractLsb' 8 3
  f := w.extractLsb' 6 2
  m := w.extractLsb' 0 6

def FirstWord.join (w : FirstWord) : Word := w.zz ++ w.c ++ w.b ++ w.r ++ w.f ++ w.m

/-- Bits 11:6, the destination field of LD (R96). -/
def FirstWord.dst (w : FirstWord) : BitVec 6 := w.b ++ w.r ++ w.f

/-- Bits 7:0 (R102, R103). -/
def FirstWord.low (w : FirstWord) : Byte := w.f ++ w.m

/-- Size codes of R94; the value 3 is not a size. -/
def Size.ofBits (zz : BitVec 2) : Option Size :=
  match zz.toNat with
  | 0 => some .b
  | 1 => some .w
  | 2 => some .p
  | _ => none

def Size.toBits : Size → BitVec 2
  | .b => 0
  | .w => 1
  | .p => 2

/-- Condition codes of 10_state.md R36; 14 and 15 are not conditions. -/
def Cond.ofCode (k : BitVec 4) : Option Cond :=
  match k.toNat with
  | 0 => some .le
  | 1 => some .gt
  | 2 => some .lt
  | 3 => some .ge
  | 4 => some .ule
  | 5 => some .ugt
  | 6 => some .c
  | 7 => some .nc
  | 8 => some .m
  | 9 => some .p
  | 10 => some .ov
  | 11 => some .nov
  | 12 => some .z
  | 13 => some .nz
  | _ => none

def Cond.code : Cond → BitVec 4
  | .le => 0
  | .gt => 1
  | .lt => 2
  | .ge => 3
  | .ule => 4
  | .ugt => 5
  | .c => 6
  | .nc => 7
  | .m => 8
  | .p => 9
  | .ov => 10
  | .nov => 11
  | .z => 12
  | .nz => 13

/-! ### Extension words (R97 to R104) -/

def takeWord : List Word → Option (Word × List Word)
  | [] => none
  | w :: ws => some (w, ws)

/-- Two words in little-endian order, of which "the upper 8 bits of the 32-bit value are ignored" (R100). -/
def takeImm24 : List Word → Option (Ptr × List Word)
  | lo :: hi :: ws => some (hi.setWidth 8 ++ lo, ws)
  | _ => none

/-- `imm*` of the `rm, imm` forms (R101): at `.B` the high byte of the word is ignored. -/
def takeImm (z : Size) (ws : List Word) : Option (Ptr × List Word) :=
  match z with
  | .b => (takeWord ws).map fun p => ((p.1.setWidth 8).setWidth 24, p.2)
  | .w => (takeWord ws).map fun p => (p.1.setWidth 24, p.2)
  | .p => takeImm24 ws

/-- The high byte of an index word: the five patterns of R98 and R99. -/
def Index.ofByte (h : Byte) : Option Index :=
  match (h.extractLsb' 4 4).toNat with
  | 0 => some (.byte (h.getLsbD 3) (h.extractLsb' 0 3))
  | 4 => some (.word (h.getLsbD 3) (h.extractLsb' 0 3))
  | 8 => if h.getLsbD 3 then none else some (.ptr (h.extractLsb' 0 3))
  | _ => none

def Index.toByte : Index → Byte
  | .byte isSigned r => 0#4 ++ BitVec.ofBool isSigned ++ r
  | .word isSigned r => 4#4 ++ BitVec.ofBool isSigned ++ r
  | .ptr r => 8#4 ++ 0#1 ++ r

/-- A Register Index Word (R98); one that matches none of the five patterns is malformed (R116). -/
def Rm.ofRegIndexWord (w : Word) : Rm :=
  if w.extractLsb' 5 3 = 0 ∧ w.extractLsb' 0 2 = 0 then
    match Index.ofByte (w.extractLsb' 8 8) with
    | some ix => .regIdx (w.extractLsb' 2 3) ix
    | none => .badRegIdx w
  else .badRegIdx w

/-- The two words of Absolute Indexed (R99). -/
def Rm.ofAbsIndexWords (ml w : Word) : Rm :=
  match Index.ofByte (w.extractLsb' 8 8) with
  | some ix => .absIdx (w.setWidth 8 ++ ml) ix
  | none => .badAbsIdx ml w

/-- The operand of the 6-bit field `m`, which takes its extension words from `ws` (R96, R97). -/
def Rm.decode (m : BitVec 6) (ws : List Word) : Option (Rm × List Word) :=
  let r : RegNum := m.extractLsb' 2 3
  let high := m.getLsbD 5
  match (m.extractLsb' 0 2).toNat with
  | 0 => some (if high then .postInc r else .reg r, ws)
  | 2 => some (if high then .preDec r else .ind r, ws)
  | 3 => some (.short (m.extractLsb' 2 4), ws)
  | _ =>
    if high then
      match r.toNat with
      | 0 => (takeWord ws).map fun p => (.imm16 p.1, p.2)
      | 1 => (takeImm24 ws).map fun p => (.imm24 p.1, p.2)
      | 2 => (takeWord ws).map fun p => (.abs16 p.1, p.2)
      | 3 => (takeImm24 ws).map fun p => (.abs24 p.1, p.2)
      | 4 => (takeWord ws).map fun p => (.pcRel16 p.1, p.2)
      | 5 => (takeImm24 ws).map fun p => (.pcRel24 p.1, p.2)
      | 6 => (takeWord ws).map fun p => (Rm.ofRegIndexWord p.1, p.2)
      | _ =>
        match ws with
        | ml :: w :: ws' => some (Rm.ofAbsIndexWords ml w, ws')
        | _ => none
    else (takeWord ws).map fun p => (.rel r p.1, p.2)

/-! ### Formats (R105) -/

/-- One RM field: formats F-RM, F-ZRM, F-ZNRM, F-ZRRM, F-RRM, F-NRM. -/
def decodeRm (k : Rm → Instr) (m : BitVec 6) (ws : List Word) : Except DecodeError Instr :=
  match Rm.decode m ws with
  | some (rm, _) => .ok (k rm)
  | none => .error .truncated

/-- F-ZRMI: the immediate words, then the words of the RM field (R104). -/
def decodeRmImm (k : Rm → Ptr → Instr) (z : Size) (m : BitVec 6) (ws : List Word) : Except DecodeError Instr :=
  match takeImm z ws with
  | some (imm, ws') => decodeRm (fun rm => k rm imm) m ws'
  | none => .error .truncated

/-- F-ZDS: all words of the source, then all words of the destination (R104). -/
def decodeDstSrc (k : Rm → Rm → Instr) (d m : BitVec 6) (ws : List Word) : Except DecodeError Instr :=
  match Rm.decode m ws with
  | some (src, ws') => decodeRm (fun dst => k dst src) d ws'
  | none => .error .truncated

/-- F-RH and F-H: `hml` is the low byte of the first word above `ml` (R102). -/
def decodeHml (k : Ptr → Instr) (h : Byte) (ws : List Word) : Except DecodeError Instr :=
  match takeWord ws with
  | some (ml, _) => .ok (k (h ++ ml))
  | none => .error .truncated

/-! ### The opcode map (R110) -/

/-- `zz00 0rrr 00xx xxxx`: rows 1 to 7. -/
def decodeLow (z : Size) (w : FirstWord) (ws : List Word) : Except DecodeError Instr :=
  match w.r.toNat, z with
  | 0, .b =>
    match w.m.toNat with
    | 0 => .ok .nop
    | 1 => .ok .halt
    | 2 => .ok .ilg
    | _ => .error (.nonexistent w.join)
  | 1, .b => decodeRm .ldFRm w.m ws
  | 1, .w => decodeRm .ldWfRm w.m ws
  | 5, .b => decodeRm .ldRmF w.m ws
  | 5, .w => decodeRm .ldRmWf w.m ws
  | _, _ => .error (.nonexistent w.join)

/-- `zz00 0ooo 10mm mmmm`: rows 9 to 16. -/
def decodeShift (z : Size) (w : FirstWord) (ws : List Word) : Except DecodeError Instr :=
  match w.r.toNat with
  | 0 => decodeRm (.rlc z) w.m ws
  | 1 => decodeRm (.rrc z) w.m ws
  | 2 => decodeRm (.rl z) w.m ws
  | 3 => decodeRm (.rr z) w.m ws
  | 4 => decodeRm (.sla z) w.m ws
  | 5 => decodeRm (.sra z) w.m ws
  | 6 =>
    match z with
    | .b => decodeRm .swapB w.m ws
    | .w => decodeRm .swapW w.m ws
    | .p => decodeRm .swapP w.m ws
  | _ => decodeRm (.srl z) w.m ws

/-- `zz00`: rows 1 to 25. With `rrr = 0` the multiplies and divides are TST, CPL, NEG, NGX (R112). -/
def decodeGroup0 (z : Size) (w : FirstWord) (ws : List Word) : Except DecodeError Instr :=
  if w.b = 0 then
    match w.f.toNat with
    | 0 => decodeLow z w ws
    | 1 => decodeRm (.adq z w.r) w.m ws
    | 2 => decodeShift z w ws
    | _ => decodeRm (.sbq z w.r) w.m ws
  else if w.r = 0 then
    match w.f.toNat with
    | 0 => decodeRm (.tst z) w.m ws
    | 1 => decodeRm (.cpl z) w.m ws
    | 2 => decodeRm (.neg z) w.m ws
    | _ => decodeRm (.ngx z) w.m ws
  else
    match w.f.toNat with
    | 0 => decodeRm (.mulu z w.r) w.m ws
    | 1 => decodeRm (.muls z w.r) w.m ws
    | 2 => decodeRm (.divu z w.r) w.m ws
    | _ => decodeRm (.divs z w.r) w.m ws

/-- `zz01`: rows 26 to 30. A short-form destination marks LDZX, LDSX and LEA (R113). -/
def decodeGroup1 (z : Size) (w : FirstWord) (ws : List Word) : Except DecodeError Instr :=
  if w.f = 3 then
    match z with
    | .b => if w.b = 0 then decodeRm (.ldzx .b w.r) w.m ws else decodeRm (.ldsx .b w.r) w.m ws
    | .w => if w.b = 0 then decodeRm (.ldzx .w w.r) w.m ws else decodeRm (.ldsx .w w.r) w.m ws
    | .p => if w.b = 0 then decodeRm (.lea w.r) w.m ws else decodeRm (.leaPre w.r) w.m ws
  else decodeDstSrc (.ldRmRm z) w.dst w.m ws

/-- `zz10`: rows 31 to 38. -/
def decodeGroup2 (z : Size) (w : FirstWord) (ws : List Word) : Except DecodeError Instr :=
  if w.b = 0 then
    match w.f.toNat with
    | 0 => decodeRm (.addRRm z w.r) w.m ws
    | 1 => decodeRm (.adxRRm z w.r) w.m ws
    | 2 => decodeRm (.subRRm z w.r) w.m ws
    | _ => decodeRm (.sbxRRm z w.r) w.m ws
  else
    match w.f.toNat with
    | 0 => decodeRm (.andRRm z w.r) w.m ws
    | 1 => decodeRm (.xorRRm z w.r) w.m ws
    | 2 => decodeRm (.orRRm z w.r) w.m ws
    | _ => decodeRm (.cpRRm z w.r) w.m ws

/-- `zz11 1ooo 11mm mmmm`: rows 46 to 53. -/
def decodeImmForms (z : Size) (w : FirstWord) (ws : List Word) : Except DecodeError Instr :=
  match w.r.toNat with
  | 0 => decodeRmImm (.addRmImm z) z w.m ws
  | 1 => decodeRmImm (.adxRmImm z) z w.m ws
  | 2 => decodeRmImm (.subRmImm z) z w.m ws
  | 3 => decodeRmImm (.sbxRmImm z) z w.m ws
  | 4 => decodeRmImm (.andRmImm z) z w.m ws
  | 5 => decodeRmImm (.xorRmImm z) z w.m ws
  | 6 => decodeRmImm (.orRmImm z) z w.m ws
  | _ => decodeRmImm (.cpRmImm z) z w.m ws

/-- `zz11`: rows 39 to 53. -/
def decodeGroup3 (z : Size) (w : FirstWord) (ws : List Word) : Except DecodeError Instr :=
  if w.b = 0 then
    match w.f.toNat with
    | 0 => decodeRm (fun m => .addRmR z m w.r) w.m ws
    | 1 => decodeRm (fun m => .adxRmR z m w.r) w.m ws
    | 2 => decodeRm (fun m => .subRmR z m w.r) w.m ws
    | _ => decodeRm (fun m => .sbxRmR z m w.r) w.m ws
  else
    match w.f.toNat with
    | 0 => decodeRm (fun m => .andRmR z m w.r) w.m ws
    | 1 => decodeRm (fun m => .xorRmR z m w.r) w.m ws
    | 2 => decodeRm (fun m => .orRmR z m w.r) w.m ws
    | _ => decodeImmForms z w ws

/-- Groups 0 to 11: bits 13:12 select the sub-group (R93). -/
def decodeSized (z : Size) (w : FirstWord) (ws : List Word) : Except DecodeError Instr :=
  match w.c.toNat with
  | 0 => decodeGroup0 z w ws
  | 1 => decodeGroup1 z w ws
  | 2 => decodeGroup2 z w ws
  | _ => decodeGroup3 z w ws

/-- `1100`: rows 54 and 55. -/
def decodeGroup12 (w : FirstWord) (ws : List Word) : Except DecodeError Instr :=
  if w.b = 0 then decodeHml (.ldPHml w.r) w.low ws else .ok (.ldq w.r w.low)

/-- `1101`: rows 56 to 68. -/
def decodeGroup13 (w : FirstWord) (ws : List Word) : Except DecodeError Instr :=
  if w.b = 0 then
    match w.f.toNat with
    | 0 => decodeRm (.bitImm w.r) w.m ws
    | 1 => decodeRm (.chgImm w.r) w.m ws
    | 2 => decodeRm (.resImm w.r) w.m ws
    | _ => decodeRm (.setImm w.r) w.m ws
  else
    match w.r.toNat with
    | 0 =>
      match w.f.toNat with
      | 0 => decodeRm .bitM0 w.m ws
      | 1 => decodeRm .chgM0 w.m ws
      | 2 => decodeRm .resM0 w.m ws
      | _ => decodeRm .setM0 w.m ws
    | 3 =>
      if w.f = 0 ∧ w.m.extractLsb' 3 3 = 0 then .ok (.ldIrl (w.m.extractLsb' 0 3))
      else .error (.nonexistent w.join)
    | 4 => .ok (.andF w.low)
    | 5 => .ok (.xorF w.low)
    | 6 => .ok (.orF w.low)
    | 7 => .ok (.ldFImm w.low)
    | _ => .error (.nonexistent w.join)

/-- `1110`: rows 69 to 71; codes 14 and 15 are JR.S and CR.S (R114). -/
def decodeGroup14 (w : FirstWord) : Except DecodeError Instr :=
  match Cond.ofCode (w.b ++ w.r) with
  | some cc => .ok (.jrCond cc w.low)
  | none => if w.r.getLsbD 0 then .ok (.crS w.low) else .ok (.jrS w.low)

/-- `1111`: rows 72 to 83. Bit 0 of `ml` tells JP from JR.L and CALL from CR.L (R114). -/
def decodeGroup15 (w : FirstWord) (ws : List Word) : Except DecodeError Instr :=
  if w.b = 0 then
    if w.f.getLsbD 1 then .ok (.djnz w.r ((w.f.extractLsb' 0 1 ++ w.m)))
    else if w.low = 0 then .ok (.repr w.r)
    else .error (.nonexistent w.join)
  else
    match w.r.toNat with
    | 0 => decodeHml (fun v => if v.getLsbD 0 then .jrL v else .jpHml v) w.low ws
    | 1 => decodeHml (fun v => if v.getLsbD 0 then .crL v else .callHml v) w.low ws
    | 2 =>
      match w.f.toNat with
      | 0 => decodeRm .jpRm w.m ws
      | 1 => decodeRm .jea w.m ws
      | _ => .error (.nonexistent w.join)
    | 3 =>
      match w.f.toNat with
      | 0 => decodeRm .callRm w.m ws
      | 1 => decodeRm .cea w.m ws
      | _ => .error (.nonexistent w.join)
    | 6 =>
      if w.f = 0 ∧ w.m.getLsbD 5 = false then .ok (.repi (w.m.extractLsb' 0 5))
      else .error (.nonexistent w.join)
    | 7 => .ok (.rst w.low)
    | _ => .error (.nonexistent w.join)

/-- Bits 15:12 select the group (R93). -/
def decodeFields (w : FirstWord) (ws : List Word) : Except DecodeError Instr :=
  match Size.ofBits w.zz with
  | some z => decodeSized z w ws
  | none =>
    match w.c.toNat with
    | 0 => decodeGroup12 w ws
    | 1 => decodeGroup13 w ws
    | 2 => decodeGroup14 w
    | _ => decodeGroup15 w ws

/-- The instruction of a list of words, malformed index words set apart (R115, R116). -/
def decodeWords : List Word → Except DecodeError Instr
  | [] => .error .truncated
  | w :: ws =>
    match decodeFields (FirstWord.split w) ws with
    | .ok i => if i.wellFormed then .ok i else .error (.malformed i)
    | .error e => .error e

/-- Words are stored little-endian (20_memory.md R63, R70); a last odd byte is no word. -/
def wordsOfBytes : List Byte → List Word
  | lo :: hi :: bs => (hi ++ lo) :: wordsOfBytes bs
  | _ => []

/-- The instruction that the bytes from an instruction's address onwards hold. -/
def decode (bs : List Byte) : Except DecodeError Instr := decodeWords (wordsOfBytes bs)

/-! ### The encoder -/

/-- The 6-bit field of an operand (R96). -/
def Rm.field : Rm → BitVec 6
  | .reg r => 0#1 ++ r ++ 0#2
  | .rel r _ => 0#1 ++ r ++ 1#2
  | .ind r => 0#1 ++ r ++ 2#2
  | .postInc r => 1#1 ++ r ++ 0#2
  | .preDec r => 1#1 ++ r ++ 2#2
  | .short n => n ++ 3#2
  | .imm16 _ => 0b100001
  | .imm24 _ => 0b100101
  | .abs16 _ => 0b101001
  | .abs24 _ => 0b101101
  | .pcRel16 _ => 0b110001
  | .pcRel24 _ => 0b110101
  | .regIdx _ _ | .badRegIdx _ => 0b111001
  | .absIdx _ _ | .badAbsIdx _ _ => 0b111101

/-- A 24-bit value as two words, the ignored upper byte written as 0 (R100). -/
def imm24Words (v : Ptr) : List Word := [v.extractLsb' 0 16, (v.extractLsb' 16 8).setWidth 16]

/-- The words of `imm*` (R101), the ignored high byte at `.B` written as 0. -/
def Size.immWordList (z : Size) (imm : Ptr) : List Word :=
  match z with
  | .b => [(imm.extractLsb' 0 8).setWidth 16]
  | .w => [imm.extractLsb' 0 16]
  | .p => imm24Words imm

/-- The extension words of an operand (R96 to R99). -/
def Rm.words : Rm → List Word
  | .reg _ | .ind _ | .postInc _ | .preDec _ | .short _ => []
  | .rel _ d | .imm16 d | .abs16 d | .pcRel16 d => [d]
  | .imm24 v | .abs24 v | .pcRel24 v => imm24Words v
  | .regIdx base ix => [ix.toByte ++ 0#3 ++ base ++ 0#2]
  | .absIdx base ix => [base.extractLsb' 0 16, ix.toByte ++ base.extractLsb' 16 8]
  | .badRegIdx w => [w]
  | .badAbsIdx ml w => [ml, w]

/-- A first word of groups 0 to 11: sub-group, bit 11, bits 10:8, bits 7:6 and the RM field. -/
def sizedWord (z : Size) (c : BitVec 2) (b : BitVec 1) (r : RegNum) (f : BitVec 2) (m : Rm) : Word :=
  FirstWord.join ⟨z.toBits, c, b, r, f, m.field⟩

/-- A first word of groups 12 to 15 with an RM field. -/
def plainWord (c : BitVec 2) (b : BitVec 1) (r : RegNum) (f : BitVec 2) (m : Rm) : Word :=
  FirstWord.join ⟨3, c, b, r, f, m.field⟩

/-- A first word of groups 12 to 15 with an 8-bit field in bits 7:0. -/
def lowWord (c : BitVec 2) (b : BitVec 1) (r : RegNum) (n : Byte) : Word :=
  FirstWord.join ⟨3, c, b, r, n.extractLsb' 6 2, n.extractLsb' 0 6⟩

/-- LD.z rm.dst, rm.src: the destination field stands in bits 11:6, its words come last (R104). -/
def ldWords (z : Size) (d m : Rm) : List Word :=
  (FirstWord.join ⟨z.toBits, 1, d.field.extractLsb' 5 1, d.field.extractLsb' 2 3, d.field.extractLsb' 0 2, m.field⟩) ::
    (m.words ++ d.words)

/-- LEA r24 and LEA @-r24. -/
def leaWords (b : BitVec 1) (r : RegNum) (m : Rm) : List Word := sizedWord .p 1 b r 3 m :: m.words

/-- Two-word instructions with `hml` (R102). -/
def hmlWords (c : BitVec 2) (b : BitVec 1) (r : RegNum) (v : Ptr) : List Word :=
  [lowWord c b r (v.extractLsb' 16 8), v.extractLsb' 0 16]

/-- The words of an instruction, in the order they lie in memory (R110); of an assembler row, the words of its expansion
(48_macros.md). -/
def encode : Instr → List Word
  | .nop => [0x0000]
  | .halt => [0x0001]
  | .ilg => [0x0002]
  | .ldFRm m => sizedWord .b 0 0 1 0 m :: m.words
  | .ldWfRm m => sizedWord .w 0 0 1 0 m :: m.words
  | .ldRmF m => sizedWord .b 0 0 5 0 m :: m.words
  | .ldRmWf m => sizedWord .w 0 0 5 0 m :: m.words
  | .adq z n m => sizedWord z 0 0 n 1 m :: m.words
  | .rlc z m => sizedWord z 0 0 0 2 m :: m.words
  | .rrc z m => sizedWord z 0 0 1 2 m :: m.words
  | .rl z m => sizedWord z 0 0 2 2 m :: m.words
  | .rr z m => sizedWord z 0 0 3 2 m :: m.words
  | .sla z m => sizedWord z 0 0 4 2 m :: m.words
  | .sra z m => sizedWord z 0 0 5 2 m :: m.words
  | .swapB m => sizedWord .b 0 0 6 2 m :: m.words
  | .swapW m => sizedWord .w 0 0 6 2 m :: m.words
  | .swapP m => sizedWord .p 0 0 6 2 m :: m.words
  | .srl z m => sizedWord z 0 0 7 2 m :: m.words
  | .sbq z n m => sizedWord z 0 0 n 3 m :: m.words
  | .tst z m => sizedWord z 0 1 0 0 m :: m.words
  | .mulu z r m => sizedWord z 0 1 r 0 m :: m.words
  | .cpl z m => sizedWord z 0 1 0 1 m :: m.words
  | .muls z r m => sizedWord z 0 1 r 1 m :: m.words
  | .neg z m => sizedWord z 0 1 0 2 m :: m.words
  | .divu z r m => sizedWord z 0 1 r 2 m :: m.words
  | .ngx z m => sizedWord z 0 1 0 3 m :: m.words
  | .divs z r m => sizedWord z 0 1 r 3 m :: m.words
  | .ldRmRm z d m => ldWords z d m
  | .ldzx z r m => sizedWord z 1 0 r 3 m :: m.words
  | .ldsx z r m => sizedWord z 1 1 r 3 m :: m.words
  | .lea r m => leaWords 0 r m
  | .leaPre r m => leaWords 1 r m
  | .addRRm z r m => sizedWord z 2 0 r 0 m :: m.words
  | .adxRRm z r m => sizedWord z 2 0 r 1 m :: m.words
  | .subRRm z r m => sizedWord z 2 0 r 2 m :: m.words
  | .sbxRRm z r m => sizedWord z 2 0 r 3 m :: m.words
  | .andRRm z r m => sizedWord z 2 1 r 0 m :: m.words
  | .xorRRm z r m => sizedWord z 2 1 r 1 m :: m.words
  | .orRRm z r m => sizedWord z 2 1 r 2 m :: m.words
  | .cpRRm z r m => sizedWord z 2 1 r 3 m :: m.words
  | .addRmR z m r => sizedWord z 3 0 r 0 m :: m.words
  | .adxRmR z m r => sizedWord z 3 0 r 1 m :: m.words
  | .subRmR z m r => sizedWord z 3 0 r 2 m :: m.words
  | .sbxRmR z m r => sizedWord z 3 0 r 3 m :: m.words
  | .andRmR z m r => sizedWord z 3 1 r 0 m :: m.words
  | .xorRmR z m r => sizedWord z 3 1 r 1 m :: m.words
  | .orRmR z m r => sizedWord z 3 1 r 2 m :: m.words
  | .addRmImm z m imm => sizedWord z 3 1 0 3 m :: (z.immWordList imm ++ m.words)
  | .adxRmImm z m imm => sizedWord z 3 1 1 3 m :: (z.immWordList imm ++ m.words)
  | .subRmImm z m imm => sizedWord z 3 1 2 3 m :: (z.immWordList imm ++ m.words)
  | .sbxRmImm z m imm => sizedWord z 3 1 3 3 m :: (z.immWordList imm ++ m.words)
  | .andRmImm z m imm => sizedWord z 3 1 4 3 m :: (z.immWordList imm ++ m.words)
  | .xorRmImm z m imm => sizedWord z 3 1 5 3 m :: (z.immWordList imm ++ m.words)
  | .orRmImm z m imm => sizedWord z 3 1 6 3 m :: (z.immWordList imm ++ m.words)
  | .cpRmImm z m imm => sizedWord z 3 1 7 3 m :: (z.immWordList imm ++ m.words)
  | .ldPHml r v => hmlWords 0 0 r v
  | .ldq r n => [lowWord 0 1 r n]
  | .bitImm k m => plainWord 1 0 k 0 m :: m.words
  | .chgImm k m => plainWord 1 0 k 1 m :: m.words
  | .resImm k m => plainWord 1 0 k 2 m :: m.words
  | .setImm k m => plainWord 1 0 k 3 m :: m.words
  | .bitM0 m => plainWord 1 1 0 0 m :: m.words
  | .chgM0 m => plainWord 1 1 0 1 m :: m.words
  | .resM0 m => plainWord 1 1 0 2 m :: m.words
  | .setM0 m => plainWord 1 1 0 3 m :: m.words
  | .ldIrl n => [lowWord 1 1 3 (0#5 ++ n)]
  | .andF n => [lowWord 1 1 4 n]
  | .xorF n => [lowWord 1 1 5 n]
  | .orF n => [lowWord 1 1 6 n]
  | .ldFImm n => [lowWord 1 1 7 n]
  | .jrCond cc o => [lowWord 2 (cc.code.extractLsb' 3 1) (cc.code.extractLsb' 0 3) o]
  | .jrS o => [lowWord 2 1 6 o]
  | .crS o => [lowWord 2 1 7 o]
  | .repr r => [lowWord 3 0 r 0]
  | .djnz r o => [lowWord 3 0 r (1#1 ++ o)]
  | .jpHml v => hmlWords 3 1 0 v
  | .jrL v => hmlWords 3 1 0 v
  | .callHml v => hmlWords 3 1 1 v
  | .crL v => hmlWords 3 1 1 v
  | .jpRm m => plainWord 3 1 2 0 m :: m.words
  | .jea m => plainWord 3 1 2 1 m :: m.words
  | .callRm m => plainWord 3 1 3 0 m :: m.words
  | .cea m => plainWord 3 1 3 1 m :: m.words
  | .repi n => [lowWord 3 1 6 (0#3 ++ n)]
  | .rst n => [lowWord 3 1 7 n]
  | .push z m => ldWords z (.preDec 7) m
  | .pea m => leaWords 1 7 m
  | .pop z d => ldWords z d (.postInc 7)
  | .rxf => [lowWord 1 1 4 0xFE]
  | .sxf => [lowWord 1 1 6 0x01]
  | .cxf => [lowWord 1 1 5 0x01]
  | .ddm => [lowWord 1 1 4 0xFD]
  | .edm => [lowWord 1 1 6 0x02]
  | .ret => [plainWord 3 1 2 0 (.postInc 7)]
  | .reti => [sizedWord .w 0 0 1 0 (.postInc 7), plainWord 3 1 2 0 (.postInc 7)]

/-- The bytes of a list of words, low byte first (20_memory.md R63). -/
def bytesOfWords : List Word → List Byte
  | [] => []
  | w :: ws => w.extractLsb' 0 8 :: w.extractLsb' 8 8 :: bytesOfWords ws

/-- The bytes of an instruction as they lie in memory. -/
def encodeBytes (i : Instr) : List Byte := bytesOfWords (encode i)

/-! ### The host's numbering of an instruction's bits -/

/-- The five words of the number `w`, the first in its lowest 16 bits; five words hold the longest instruction (R92). -/
def wordsOfNat (w : Nat) : List Word :=
  (List.range 5).map fun k => BitVec.ofNat 16 (w >>> (16 * k))

/-- The bytes, as they lie in memory, of the instruction whose lowest `nbits` bits are those of `w` and whose other bits
are 0. -/
def tableWordBytes (nbits w : Nat) : List Byte := bytesOfWords (wordsOfNat (w % 2 ^ nbits))

/-- What the decoder reads from the instruction whose bits are `w`. -/
def decodeTableWord (nbits w : Nat) : Option Instr :=
  match decode (tableWordBytes nbits w) with
  | .ok i => some i
  | .error _ => none

end Sys2Proof
end

