-- ==== Sys2Proof/Machine/State.lean ====
section
/-! DEFINITION. The state of Pilot24 (10_state.md), its outcomes and its value after reset. State is plain data. -/

namespace Sys2Proof.Machine

/-- Memory: the bytes that differ from what an unlisted address reads as, by strictly rising address. -/
abbrev Memory := List Host.Cell

/-- What an address of RAM or ROM that no entry lists reads as. DESIGN CHOICE (log entry 1): the spec gives memory no contents at
reset (70_reset_and_hazards.md R411). -/
def Memory.unlisted : Byte := 0

/-- The canonical form above a lower bound: addresses strictly rise and stay inside the 2^24 bytes of 20_memory.md R60, and
no entry equals what an unlisted address reads as. -/
def Memory.wfFrom : Nat → Memory → Bool
  | _, [] => true
  | lo, (k, v) :: rest => decide (lo ≤ k) && decide (k < 2 ^ 24) && v != Memory.unlisted && Memory.wfFrom (k + 1) rest

/-- The canonical form of memory: equal memories are equal lists. -/
def Memory.wf (mem : Memory) : Bool := Memory.wfFrom 0 mem

/-- The six flags of WF (10_state.md R27). -/
structure Flags where
  /-- WF[7], Sign. -/
  s : Bool
  /-- WF[6], Zero. -/
  z : Bool
  /-- WF[3], Carry, a borrow after a subtraction. -/
  c : Bool
  /-- WF[2], Signed Overflow or Parity. -/
  vp : Bool
  /-- WF[1], Decimal Mode. -/
  d : Bool
  /-- WF[0], Extend Carry. -/
  x : Bool
deriving DecidableEq, Repr

/-- The inputs asserted at one instruction boundary: what the `IrqOracle` of 60_exceptions.md R366 gives there. -/
structure Requests where
  reset : Bool
  nmi : Bool
  irq1 : Bool
  irq2 : Bool
  irq3 : Bool
  irq4 : Bool
  irq5 : Bool
  irq6 : Bool
  irq7 : Bool
deriving DecidableEq, Repr

/-- The seven interrupt request levels, the highest priority first (60_exceptions.md R369). -/
inductive IrqLevel where
  | irq1 | irq2 | irq3 | irq4 | irq5 | irq6 | irq7
deriving DecidableEq, Repr

/-- What enters a trap: the causes of the vector table (60_exceptions.md R360) but for Reset, which pushes nothing. -/
inductive TrapCause where
  | nmi
  | irq (n : IrqLevel)
  | divideByZero
  | illegalInstruction
deriving DecidableEq, Repr

/-- The whole state of the machine. The last four fields are the model's own (log entries 4, 5 and 20). -/
structure State where
  /-- P0 to P7; P7 is SP (10_state.md R20). -/
  p : Vector Ptr 8
  /-- The program counter, bit 0 fixed to 0 (10_state.md R30, R31). -/
  pgc : Ptr
  /-- S, Z, C, VP, D, X: the implemented bits of WF's low byte F (10_state.md R27). -/
  flags : Flags
  /-- IRL, WF[10:8] (10_state.md R33). -/
  irl : BitVec 3
  /-- `REPI.A`: a REPI sequence is in progress (10_state.md R38). -/
  repiA : Bool
  /-- `REPI.N`: further executions still owed (10_state.md R38). -/
  repiN : BitVec 5
  /-- `REPR.A`: a REPR loop is in progress (10_state.md R39). -/
  reprA : Bool
  /-- `REPR.R`: the register that counts the loop (10_state.md R39). -/
  reprR : RegNum
  /-- Set by HALT; no instruction is fetched while it is set (10_state.md R40). -/
  halted : Bool
  /-- The contents of memory: of the addresses that hold RAM or ROM (20_memory.md R60). -/
  mem : Memory
  /-- The inputs asserted at the coming boundaries, the next one first; after the list, none. -/
  requests : List Requests
  /-- How many free values have been drawn. -/
  freeCount : Nat
  /-- The platform's memory map (20_memory.md R62), which no step changes. -/
  map : MemoryMap
  /-- The accesses that were not to memory alone and so reached the platform, the latest first. -/
  bus : List BusCycle
deriving DecidableEq, Repr

/-- Nothing stops this machine with a fault: it has no access fault, bus error, lockup or double-fault state
(60_exceptions.md R365, R376); both of its exceptions are taken, with a next state. So no constructor, and no meaning
raises one. -/
inductive Fault where
deriving DecidableEq, Repr

/-- Why a step is refused. -/
inductive Refusal where
  /-- Raised by an arm of `exec` for an instruction that has no meaning yet. Safe: the machine is said nothing about. -/
  | notModelled (mnemonic : String)
  /-- Raised by the cycle (never by a meaning) when a repeat in progress meets another REPI or REPR, an instruction that
  writes PGC, or HALT: "the model refuses a program that executes one" (47_misc.md R326). Safe: refusing errs toward
  unprovable (92_eei_decisions.md D20). Log entry 11. -/
  | repeatMisuse
deriving DecidableEq, Repr

/-- The Reset slot of the vector table, where execution starts (60_exceptions.md R360, 70_reset_and_hazards.md R410). -/
def resetVector : Ptr := 0xFFCFF0

/-- No input asserted. -/
def Requests.none : Requests := ⟨false, false, false, false, false, false, false, false, false⟩

/-- The machine right after reset (10_state.md R44): IRL, PGC and the repeat and halt bits as the spec states them; every
other register at 0, DESIGN CHOICE (log entry 2); memory with nothing listed; RAM everywhere, DESIGN CHOICE (log entry 1). -/
def State.reset : State where
  p := #v[0, 0, 0, 0, 0, 0, 0, 0]
  pgc := resetVector
  flags := ⟨false, false, false, false, false, false⟩
  irl := 0
  repiA := false
  repiN := 0
  reprA := false
  reprR := 0
  halted := false
  mem := []
  requests := []
  freeCount := 0
  map := [⟨0, 2 ^ 24, .ram⟩]
  bus := []

end Sys2Proof.Machine
end

