-- ==== Sys2Proof/Machine/Ops.lean ====
section
/-! DEFINITION. The named operations over registers, the status register, PGC, memory and the stack; free values; taking a
trap, returning from one, the Reset line and the choice of an interrupt. -/

namespace Sys2Proof.Machine

/-! ### General registers (10_state.md R20 to R23) -/

/-- `x[i]`: the 24 bits of Pi. -/
def State.getP (s : State) (i : RegNum) : Ptr := s.p[i.toNat]'i.isLt

/-- `x[i] <- v`. -/
def State.setP (s : State) (i : RegNum) (v : Ptr) : State := { s with p := s.p.set i.toNat v i.isLt }

/-- The P register that register number `i` lies in at size `.B`: numbers 4 to 7 name M0 to M3 (R22). -/
def byteHome (i : RegNum) : RegNum := if i.getLsbD 2 then i - 4 else i

/-- `R(z, i)` (R22). -/
def State.getR (s : State) : (z : Size) → RegNum → BitVec z.bits
  | .b, i => (s.getP (byteHome i)).extractLsb' (if i.getLsbD 2 then 8 else 0) 8
  | .w, i => (s.getP i).extractLsb' 0 16
  | .p, i => s.getP i

/-- `R(z, i) <- v`: only the bits that the name covers change (R23). -/
def State.setR (s : State) : (z : Size) → RegNum → BitVec z.bits → State
  | .b, i, v =>
    let old := s.getP (byteHome i)
    if i.getLsbD 2 then s.setP (byteHome i) (old.extractLsb' 16 8 ++ v ++ old.extractLsb' 0 8)
    else s.setP (byteHome i) (old.extractLsb' 8 16 ++ v)
  | .w, i, v => s.setP i ((s.getP i).extractLsb' 16 8 ++ v)
  | .p, i, v => s.setP i v

/-- P7 is the stack pointer. -/
def State.sp (s : State) : Ptr := s.getP 7

/-! ### The status register (10_state.md R26 to R29) -/

/-- F, the low byte of WF, with its two fixed zeros. -/
def State.fByte (s : State) : Byte :=
  BitVec.ofBool s.flags.s ++ BitVec.ofBool s.flags.z ++ 0#2 ++ BitVec.ofBool s.flags.c ++ BitVec.ofBool s.flags.vp ++
    BitVec.ofBool s.flags.d ++ BitVec.ofBool s.flags.x

/-- WF: the fixed zeros, IRL, and F (R27). -/
def State.wf (s : State) : Word := 0#5 ++ s.irl ++ s.fByte

/-- The flags in the bits of F; bits 5 and 4 are ignored (R28). -/
def flagsOfByte (v : Byte) : Flags where
  s := v.getLsbD 7
  z := v.getLsbD 6
  c := v.getLsbD 3
  vp := v.getLsbD 2
  d := v.getLsbD 1
  x := v.getLsbD 0

/-- `F <- v & $CF` (R28). -/
def State.setF (s : State) (v : Byte) : State := { s with flags := flagsOfByte v }

def State.setIrl (s : State) (v : BitVec 3) : State := { s with irl := v }

/-- `WF <- v & $07CF` (R28). -/
def State.setWf (s : State) (v : Word) : State := (s.setF (v.extractLsb' 0 8)).setIrl (v.extractLsb' 8 3)

def State.setFlags (s : State) (f : Flags) : State := { s with flags := f }

/-! ### The program counter (10_state.md R30 to R32) -/

/-- "Bit 0 of PGC is fixed to zero": every write stores `v & $FFFFFE` (R31). -/
def State.setPgc (s : State) (v : Ptr) : State := { s with pgc := v &&& 0xFFFFFE }

/-! ### Memory (20_memory.md R60 to R68) -/

/-- The byte at an address. -/
def Memory.get : Memory → Nat → Byte
  | [], _ => Memory.unlisted
  | (k, v) :: rest, a => if k = a then v else Memory.get rest a

/-- Memory with the byte at `a` replaced; the canonical form is kept. -/
def Memory.set : Memory → Nat → Byte → Memory
  | [], a, v => if v = Memory.unlisted then [] else [(a, v)]
  | (k, x) :: rest, a, v =>
    if k < a then (k, x) :: Memory.set rest a v
    else if k = a then (if v = Memory.unlisted then rest else (a, v) :: rest)
    else if v = Memory.unlisted then (k, x) :: rest else (a, v) :: (k, x) :: rest

/-! ### The memory map and the bus (20_memory.md R62, R68, R72)

An access to memory is complete in itself. Any other reaches the platform: it is put in front of `bus`, and a read is answered
by `Config.answer` (log entry 20). -/

def State.kindAt (s : State) (a : Ptr) : MemKind := s.map.kindAt a.toNat

/-- RAM: what a store changes. -/
def State.isRam (s : State) (a : Ptr) : Bool := s.kindAt a == .ram

/-- RAM or ROM: what a read finds in `mem`. -/
def State.isMemory (s : State) (a : Ptr) : Bool := s.kindAt a == .ram || s.kindAt a == .rom

/-- An 8-bit read has taken place. -/
def State.didRead8 (s : State) (a : Ptr) : State :=
  { s with bus := if s.isMemory a then s.bus else .read8 a :: s.bus }

/-- A 16-bit read has taken place at an even address. -/
def State.didRead16 (s : State) (a : Ptr) : State :=
  { s with bus := if s.isMemory a && s.isMemory (a + 1) then s.bus else .read16 a :: s.bus }

/-- An 8-bit write has taken place. -/
def State.didWrite8 (s : State) (a : Ptr) (v : Byte) : State :=
  { s with bus := if s.isRam a then s.bus else .write8 a v :: s.bus }

/-- A 16-bit write has taken place at an even address. -/
def State.didWrite16 (s : State) (a : Ptr) (v : Word) : State :=
  { s with bus := if s.isRam a && s.isRam (a + 1) then s.bus else .write16 a v :: s.bus }

/-- The byte that a read which has taken place finds at an address. -/
def State.found (s : State) (a : Ptr) : Byte := if s.isMemory a then s.mem.get a.toNat else Config.answer s.bus a

/-- RAM with the byte at `a` replaced; at any other address nothing. -/
def State.setByte (s : State) (a : Ptr) (v : Byte) : State :=
  { s with mem := if s.isRam a then s.mem.set a.toNat v else s.mem }

/-! ### Accesses (20_memory.md R63 to R68) -/

/-- `mem[a]`: what an 8-bit read at `a` gives (R66). -/
def State.byteAt (s : State) (a : Ptr) : Byte := (s.didRead8 a).found a

/-- "Bit 0 of the address is simply ignored" (R65). -/
def evenAddr (a : Ptr) : Ptr := a &&& 0xFFFFFE

/-- What a 16-bit read at `a` gives (R67). -/
def State.wordAt (s : State) (a : Ptr) : Word :=
  let t := s.didRead16 (evenAddr a)
  t.found (evenAddr a + 1) ++ t.found (evenAddr a)

/-- `MemRead(a, bytes(z))`: R66, R67, R68; a 24-bit read is the 16-bit read, then the byte above it, whose address is modulo
2^24. -/
def State.memRead (s : State) : (z : Size) → Ptr → BitVec z.bits
  | .b, a => s.byteAt a
  | .w, a => s.wordAt a
  | .p, a => (s.didRead16 (evenAddr a)).byteAt (evenAddr a + 2) ++ s.wordAt a

/-- The state after `MemRead(a, bytes(z))`: only `bus` may differ. -/
def State.didRead (s : State) (z : Size) (a : Ptr) : State :=
  { s with bus :=
    match z with
    | .b => (s.didRead8 a).bus
    | .w => (s.didRead16 (evenAddr a)).bus
    | .p => ((s.didRead16 (evenAddr a)).didRead8 (evenAddr a + 2)).bus }

/-- An 8-bit write (R66). -/
def State.write8 (s : State) (a : Ptr) (v : Byte) : State := (s.setByte a v).didWrite8 a v

/-- A 16-bit write (R67). -/
def State.write16 (s : State) (a : Ptr) (v : Word) : State :=
  ((s.setByte (evenAddr a) (v.extractLsb' 0 8)).setByte (evenAddr a + 1) (v.extractLsb' 8 8)).didWrite16 (evenAddr a) v

/-- `MemWrite(a, bytes(z), v)`: R66, R67, R68; a 24-bit write is the 16-bit write, then the byte above it. -/
def State.memWrite (s : State) : (z : Size) → Ptr → BitVec z.bits → State
  | .b, a, v => s.write8 a v
  | .w, a, v => s.write16 a v
  | .p, a, v => (s.write16 a (v.extractLsb' 0 16)).write8 (evenAddr a + 2) (v.extractLsb' 16 8)

/-- The addresses of the bytes that an access of size `z` at `a` touches (R66 to R68): what a frame leaves out. -/
def touched (z : Size) (a : Ptr) : List Ptr :=
  match z with
  | .b => [a]
  | .w => [evenAddr a, evenAddr a + 1]
  | .p => [evenAddr a, evenAddr a + 1, evenAddr a + 2]

/-! ### Fetching (30_encoding.md R91, 20_memory.md R70) -/

/-- The state in which `k` words have been read from PGC onwards, PGC not yet moved. -/
def State.didFetch (s : State) : Nat → State
  | 0 => s
  | k + 1 => { s with bus := ((s.didFetch k).didRead16 (evenAddr (s.pgc + BitVec.ofNat 24 (2 * k)))).bus }

/-- `k` words have been fetched and PGC is past them. -/
def State.advance (s : State) (k : Nat) : State :=
  { s with pgc := (s.pgc + BitVec.ofNat 24 (2 * k)) &&& 0xFFFFFE, bus := (s.didFetch k).bus }

/-- The word that is fetched after `k` others. -/
def State.fetchWord (s : State) (k : Nat) : Word := (s.didFetch k).wordAt (s.pgc + BitVec.ofNat 24 (2 * k))

/-! ### The stack (20_memory.md R74) -/

/-- `Push24(v): SP <- SP - 4; MemWrite(SP, 3, v)`. -/
def State.push24 (s : State) (v : Ptr) : State := (s.setP 7 (s.sp - 4)).memWrite .p (s.sp - 4) v

/-- `Push16(v): SP <- SP - 2; MemWrite(SP, 2, v)`. -/
def State.push16 (s : State) (v : Word) : State := (s.setP 7 (s.sp - 2)).memWrite .w (s.sp - 2) v

/-! ### Free values -/

/-- Count one more free value as drawn; the value is the opaque constant at `s.freeCount`. -/
def State.drawn (s : State) : State := { s with freeCount := s.freeCount + 1 }

/-! ### Traps (60_exceptions.md) -/

/-- The number of an interrupt request level, 1 to 7. -/
def IrqLevel.num : IrqLevel → Nat
  | .irq1 => 1
  | .irq2 => 2
  | .irq3 => 3
  | .irq4 => 4
  | .irq5 => 5
  | .irq6 => 6
  | .irq7 => 7

/-- The slot of a cause in the vector table (R360). -/
def TrapCause.slot : TrapCause → Nat
  | .nmi => 0
  | .irq n => n.num
  | .divideByZero => 13
  | .illegalInstruction => 14

/-- "The vector of slot k is `$FFCF00 + 16 * k`" (R360). -/
def TrapCause.vector (c : TrapCause) : Ptr := 0xFFCF00 + BitVec.ofNat 24 (16 * c.slot)

/-- IRL on entry: NMI clears it, IRQ n makes it n - 1, an exception leaves it (R372). -/
def TrapCause.irlOnEntry (c : TrapCause) (old : BitVec 3) : BitVec 3 :=
  match c with
  | .nmi => 0
  | .irq n => BitVec.ofNat 3 (n.num - 1)
  | .divideByZero | .illegalInstruction => old

/-- Clear the repeat and halt bits, as trap entry and Reset do (R372, 70_reset_and_hazards.md R410). -/
def State.clearProgress (s : State) : State := { s with repiA := false, reprA := false, halted := false }

/-- Taking a trap (R372): the return address, then the old WF, are pushed; IRL is lowered for an interrupt; the repeat and
halt bits are cleared; PGC goes to the slot itself. -/
def State.trap (s : State) (c : TrapCause) (ret : Ptr) : State :=
  let pushed := (s.push24 ret).push16 s.wf
  ((pushed.setIrl (c.irlOnEntry s.irl)).clearProgress).setPgc c.vector

/-- An exception raised by the instruction at `a`, whose ordinary return address is `ret`: while a REPR loop is in
progress the return address is that of the REPR (R370). -/
def State.raise (s : State) (c : TrapCause) (a ret : Ptr) : State := s.trap c (if s.reprA then a - 2 else ret)

/-- The Reset Routine (70_reset_and_hazards.md R410) on an asserted Reset line: IRL and PGC as it says, nothing pushed, SP
and memory not touched; P0 to P6, F, `REPI.N` and `REPR.R` are free values (R411, log entry 3). -/
def State.resetLine (s : State) : State :=
  let n := s.freeCount
  let regs := Vector.ofFn fun i : Fin 8 => if i = 7 then s.sp else Config.resetP n (BitVec.ofNat 3 i.val)
  let cleared := { s with p := regs, repiN := Config.resetRepiN n, reprR := Config.resetReprR n }
  ((((cleared.setF (Config.resetF n)).setIrl 0).clearProgress).setPgc resetVector).drawn

/-! ### Interrupts (60_exceptions.md R366 to R369) -/

/-- Whether IRQ n is asserted. -/
def Requests.irq (rq : Requests) : IrqLevel → Bool
  | .irq1 => rq.irq1
  | .irq2 => rq.irq2
  | .irq3 => rq.irq3
  | .irq4 => rq.irq4
  | .irq5 => rq.irq5
  | .irq6 => rq.irq6
  | .irq7 => rq.irq7

/-- The levels in the order of priority (R369). -/
def IrqLevel.all : List IrqLevel := [.irq1, .irq2, .irq3, .irq4, .irq5, .irq6, .irq7]

/-- `acceptable(IRQn) = asserted(IRQn) and n <= IRL` (R368). -/
def State.acceptsIrq (s : State) (rq : Requests) (n : IrqLevel) : Bool := rq.irq n && decide (n.num ≤ s.irl.toNat)

/-- The interrupt taken at a boundary: NMI first, else the acceptable IRQ with the lowest number (R369). -/
def State.acceptable (s : State) (rq : Requests) : Option TrapCause :=
  if rq.nmi then some .nmi else (IrqLevel.all.find? (s.acceptsIrq rq)).map .irq

/-- The inputs asserted at this boundary. -/
def State.asserted (s : State) : Requests :=
  match s.requests with
  | [] => Requests.none
  | rq :: _ => rq

/-- The schedule of inputs past this boundary. -/
def State.pastBoundary (s : State) : State := { s with requests := s.requests.tail }

end Sys2Proof.Machine
end

