-- ==== Sys2Proof/Machine/Flags.lean ====
section
/-! DEFINITION. Every flag computation of the spec: addition and subtraction (42_arithmetic.md R201 to R204), logic
(43_logic.md R240), shifts and rotates (44_shift.md R260 to R267), the products and quotients (42_arithmetic.md R221 to
R234), and the conditions (10_state.md R36). -/

namespace Sys2Proof.Machine

/-! ### Addition and subtraction -/

/-- A result with its carry or borrow and its signed overflow. -/
structure Sum (n : Nat) where
  res : BitVec n
  c : Bool
  v : Bool
deriving DecidableEq, Repr

/-- A signed value outside `[-2^(n-1), 2^(n-1) - 1]`. -/
def outsideSigned (n : Nat) (t : Int) : Bool := decide (t < -(2 ^ (n - 1) : Int)) || decide ((2 ^ (n - 1) : Int) ≤ t)

/-- `AddCore(a, b, cin, n)` (R202). -/
def addCore {n : Nat} (a b : BitVec n) (cin : Bool) : Sum n :=
  let t := a.toNat + b.toNat + cin.toNat
  { res := BitVec.ofNat n t, c := decide (2 ^ n ≤ t), v := outsideSigned n (a.toInt + b.toInt + cin.toNat) }

/-- `SubCore(a, b, bin, n)` (R203); `c` is a borrow. -/
def subCore {n : Nat} (a b : BitVec n) (bin : Bool) : Sum n :=
  let t : Int := (a.toNat : Int) - b.toNat - bin.toNat
  { res := BitVec.ofInt n t, c := decide (t < 0), v := outsideSigned n (a.toInt - b.toInt - bin.toNat) }

/-- Z of a result: "zero" means all of its bits are 0 (R201). -/
def isZero {n : Nat} (v : BitVec n) : Bool := v == 0

/-- Flags of ADQ, SBQ and CP: S, Z, C, VP (10_state.md R37). -/
def Flags.withSum {n : Nat} (f : Flags) (r : Sum n) : Flags :=
  { f with s := r.res.msb, z := isZero r.res, c := r.c, vp := r.v }

/-- Flags of ADD, ADX, SUB, SBX, NEG, NGX: also X, with the same value as C (10_state.md R34). -/
def Flags.withSumX {n : Nat} (f : Flags) (r : Sum n) : Flags := { f.withSum r with x := r.c }

/-- Which of the two cores an instruction uses. -/
inductive AddSub where
  | add | sub
deriving DecidableEq, Repr

def AddSub.core {n : Nat} (op : AddSub) (a b : BitVec n) (cx : Bool) : Sum n :=
  match op with
  | .add => addCore a b cx
  | .sub => subCore a b cx

/-! ### Decimal Mode (R204) -/

/-- "A byte `b` is valid BCD when `b[7:4] <= 9` and `b[3:0] <= 9`". -/
def validBcd (b : Byte) : Bool := decide ((b.extractLsb' 4 4).toNat ≤ 9) && decide ((b.extractLsb' 0 4).toNat ≤ 9)

/-- `dec(b)`. -/
def dec (b : Byte) : Nat := 10 * (b.extractLsb' 4 4).toNat + (b.extractLsb' 0 4).toNat

/-- `bcd(k)` for `k` up to 99. -/
def bcd (k : Nat) : Byte := BitVec.ofNat 4 (k / 10) ++ BitVec.ofNat 4 (k % 10)

/-- `DecAdd(a, b, cin)`: the byte and the decimal carry. -/
def decAdd (a b : Byte) (cin : Bool) : Byte × Bool :=
  let t := dec a + dec b + cin.toNat
  (bcd (t % 100), decide (100 ≤ t))

/-- `DecSub(a, b, bin)`: the byte and the decimal borrow; `t mod 100` is taken in 0 to 99. -/
def decSub (a b : Byte) (bin : Bool) : Byte × Bool :=
  let t : Int := (dec a : Int) - dec b - bin.toNat
  (bcd (t % 100).toNat, decide (t < 0))

def AddSub.dec (op : AddSub) (a b : Byte) (cx : Bool) : Byte × Bool :=
  match op with
  | .add => decAdd a b cx
  | .sub => decSub a b cx

/-- The decimal body of `Arith` (R204): VP is free, and on invalid BCD the byte and every flag it writes are free. D is not
changed. -/
def decimalArith (op : AddSub) (a b : Byte) (cx : Bool) (s : State) : Byte × State :=
  if validBcd a && validBcd b then
    let r := op.dec a b cx
    let f := s.flags
    (r.1, (s.setFlags { f with s := r.1.msb, z := isZero r.1, c := r.2, x := r.2, vp := Config.decimalVP s.freeCount }).drawn)
  else
    let v := Config.bcdInvalid s.freeCount
    let f := s.flags
    (v.res, (s.setFlags { f with s := v.s, z := v.z, c := v.c, x := v.x, vp := v.vp }).drawn)

/-- The binary body of `Arith` (R204). -/
def binaryArith {n : Nat} (op : AddSub) (a b : BitVec n) (cx : Bool) (s : State) : BitVec n × State :=
  let r := op.core a b cx
  (r.res, s.setFlags (s.flags.withSumX r))

/-- `Arith(op, a, b, cx, z)` (R204): the common body of the six instructions that read D. -/
def arith (op : AddSub) : (z : Size) → BitVec z.bits → BitVec z.bits → Bool → State → BitVec z.bits × State
  | .b, a, b, cx, s => if s.flags.d then decimalArith op a b cx s else binaryArith op a b cx s
  | .w, a, b, cx, s => binaryArith op a b cx s
  | .p, a, b, cx, s => binaryArith op a b cx s

/-- ADQ, SBQ and CP: always binary, X not written (R211, R218, R235). -/
def quickArith {n : Nat} (op : AddSub) (a b : BitVec n) (s : State) : BitVec n × State :=
  let r := op.core a b false
  (r.res, s.setFlags (s.flags.withSum r))

/-! ### Logic (43_logic.md R240) -/

/-- `parity_even_n(v)`: "1 when the number of 1 bits in `v[n-1:0]` is even". -/
def parityEven {n : Nat} (v : BitVec n) : Bool := (List.range n).countP v.getLsbD % 2 == 0

/-- `LogicFlags(res, n)`. -/
def Flags.withLogic {n : Nat} (f : Flags) (res : BitVec n) : Flags :=
  { f with s := res.msb, z := isZero res, c := false, vp := parityEven res }

/-- A logic result with its flags. -/
def logic {n : Nat} (res : BitVec n) (s : State) : BitVec n × State := (res, s.setFlags (s.flags.withLogic res))

/-! ### Shifts and rotates (44_shift.md) -/

/-- The seven operations of `zz00 0ooo 10mm mmmm`. -/
inductive ShiftOp where
  | sla | sra | srl | rl | rr | rlc | rrc
deriving DecidableEq, Repr

/-- A left move by one position with `b` entering bit 0. -/
def shiftIn {n : Nat} (a : BitVec n) (b : Bool) : BitVec n := (a <<< 1) ||| BitVec.setWidth n (BitVec.ofBool b)

/-- A right move by one position with `b` entering bit n-1. -/
def shiftDown {n : Nat} (a : BitVec n) (b : Bool) : BitVec n :=
  (a >>> 1) ||| (BitVec.setWidth n (BitVec.ofBool b) <<< (n - 1))

/-- `res` of R261 to R267; `x` is the old X. -/
def ShiftOp.res {n : Nat} (op : ShiftOp) (a : BitVec n) (x : Bool) : BitVec n :=
  match op with
  | .sla => shiftIn a false
  | .sra => shiftDown a a.msb
  | .srl => shiftDown a false
  | .rl => shiftIn a x
  | .rr => shiftDown a x
  | .rlc => shiftIn a a.msb
  | .rrc => shiftDown a (a.getLsbD 0)

/-- `out`, the bit shifted out. -/
def ShiftOp.out {n : Nat} (op : ShiftOp) (a : BitVec n) : Bool :=
  match op with
  | .sla | .rl | .rlc => a.msb
  | .sra | .srl | .rr | .rrc => a.getLsbD 0

/-- VP: whether the top bit flipped; SRA clears it (R260, R262). -/
def ShiftOp.vp {n : Nat} (op : ShiftOp) (a res : BitVec n) : Bool :=
  match op with
  | .sra => false
  | .sla | .srl | .rl | .rr | .rlc | .rrc => res.msb != a.msb

/-- The common body of R260 on the value read. -/
def shift {n : Nat} (op : ShiftOp) (a : BitVec n) (s : State) : BitVec n × State :=
  let res := op.res a s.flags.x
  let out := op.out a
  let f := s.flags
  (res, s.setFlags { f with s := res.msb, z := isZero res, c := out, x := out, vp := op.vp a res })

/-! ### Products and quotients (42_arithmetic.md R221 to R234) -/

/-- The unsigned product, up to `(2^n - 1)^2`. -/
def mulUnsigned {n : Nat} (a b : BitVec n) : Nat := a.toNat * b.toNat

/-- The signed product as a 2n-bit two's complement number. -/
def mulSigned {n : Nat} (a b : BitVec n) : Nat := ((a.toInt * b.toInt) % (2 ^ (2 * n) : Int)).toNat

/-- Flags of MULU and MULS: S and Z from all 2n bits of the product. -/
def Flags.withProduct (f : Flags) (n p : Nat) : Flags :=
  { f with s := p.testBit (2 * n - 1), z := p == 0, c := false, vp := false }

/-- `signed_2n` of a 2n-bit number. -/
def signed2n (n v : Nat) : Int := if v < 2 ^ (2 * n - 1) then (v : Int) else (v : Int) - 2 ^ (2 * n)

/-- The quotient that fits, with its remainder, its sign and whether it is zero; `none` on overflow. -/
structure Quotient (n : Nat) where
  quot : BitVec n
  rem : BitVec n
  s : Bool
  z : Bool
deriving DecidableEq, Repr

/-- DIVU on a dividend and a divisor that is not 0 (R232); `none` when the quotient exceeds n bits. -/
def divUnsigned (n dividend divisor : Nat) : Option (Quotient n) :=
  let q := dividend / divisor
  let r := dividend % divisor
  if q < 2 ^ n then some ⟨BitVec.ofNat n q, BitVec.ofNat n r, (BitVec.ofNat n q).msb, q == 0⟩ else none

/-- The quotient of two integers by a rounding (`DivsRounding`, R234). -/
def roundedQuot (rounding : DivsRounding) (a b : Int) : Int :=
  match rounding with
  | .truncate => a.tdiv b
  | .floor => a.fdiv b

/-- DIVS (R234): the remainder is `N - q * dv`; `none` when the quotient is outside the signed range. -/
def divSigned (n : Nat) (rounding : DivsRounding) (dividend divisor : Int) : Option (Quotient n) :=
  let q := roundedQuot rounding dividend divisor
  let r := dividend - q * divisor
  if outsideSigned n q then none else some ⟨BitVec.ofInt n q, BitVec.ofInt n r, decide (q < 0), q == 0⟩

/-! ### Conditions (10_state.md R36) -/

/-- Whether a condition holds on the flags. -/
def condHolds (cc : Cond) (f : Flags) : Bool :=
  match cc with
  | .le => f.s != f.vp || f.z
  | .gt => f.s == f.vp && !f.z
  | .lt => f.s != f.vp
  | .ge => f.s == f.vp
  | .ule => f.c || f.z
  | .ugt => !f.c && !f.z
  | .c => f.c
  | .nc => !f.c
  | .m => f.s
  | .p => !f.s
  | .ov => f.vp
  | .nov => !f.vp
  | .z => f.z
  | .nz => !f.z

end Sys2Proof.Machine
end

