-- ==== Sys2Proof/Machine/Operands.lean ====
section
/-! DEFINITION. RM operands (40_operands.md): locations, the auto-modify of a base register, reading and writing, and the
shapes in which the instructions use an operand. In a state given to `locate`, `autoModify` and `resolve` PGC is already
`Next`, the address after the instruction's last word (log entry 15). -/

namespace Sys2Proof.Machine

/-- An operand location (R140); an immediate is already at the operand's width. -/
inductive Loc (z : Size) where
  | reg (i : RegNum)
  | mem (ea : Ptr)
  | imm (v : BitVec z.bits)
deriving DecidableEq, Repr

/-- `Step(z, rrr)` (R150); for the source of LEA, JEA and CEA the size is `.P`, so the step is 4. -/
def stepOf (z : Size) (r : RegNum) : Ptr :=
  match z with
  | .b => if r = 7 then 2 else 1
  | .w => 2
  | .p => 4

/-- `adapt(v, z)`: the low `bits(z)` bits (R159). -/
def adapt (z : Size) (v : Ptr) : BitVec z.bits := v.setWidth z.bits

/-- `Index(b)`: the index register at its size, extended to 24 bits (R152). -/
def State.index (s : State) : Index → Ptr
  | .byte isSigned r => if isSigned then (s.getR .b r).signExtend 24 else (s.getR .b r).setWidth 24
  | .word isSigned r => if isSigned then (s.getR .w r).signExtend 24 else (s.getR .w r).setWidth 24
  | .ptr r => s.getP r

/-- The location of an operand (R141 to R153); the last two forms are malformed and have none, see `resolve`. -/
def locate (z : Size) (m : Rm) (s : State) : Loc z :=
  match m with
  | .reg r => .reg r
  | .rel r d => .mem (s.getP r + d.signExtend 24)
  | .ind r => .mem (s.getP r)
  | .postInc r => .mem (s.getP r)
  | .preDec r => .mem (s.getP r - stepOf z r)
  | .short n => .imm (adapt z (n.setWidth 24))
  | .imm16 d => .imm (adapt z (d.signExtend 24))
  | .imm24 v => .imm (adapt z v)
  | .abs16 d => .mem (d.signExtend 24)
  | .abs24 v => .mem v
  | .pcRel16 d => .mem (s.pgc + d.signExtend 24)
  | .pcRel24 v => .mem (s.pgc + v)
  | .regIdx base ix => .mem (s.getP base + s.index ix)
  | .absIdx base ix => .mem (base + s.index ix)
  | .badRegIdx _ => .imm 0
  | .badAbsIdx _ _ => .imm 0

/-- The post-increment or pre-decrement of the base register, done as part of resolution (R141, R145, R146). -/
def autoModify (z : Size) (m : Rm) (s : State) : State :=
  match m with
  | .postInc r => s.setP r (s.getP r + stepOf z r)
  | .preDec r => s.setP r (s.getP r - stepOf z r)
  | .reg _ | .rel _ _ | .ind _ | .short _ | .imm16 _ | .imm24 _ | .abs16 _ | .abs24 _ | .pcRel16 _ | .pcRel24 _
  | .regIdx _ _ | .absIdx _ _ | .badRegIdx _ | .badAbsIdx _ _ => s

/-- `Resolve(m, z, step)` (R141): the location and the state after the auto-modify; `none` for a malformed index word, where
IllegalInstruction is raised (R152, R153, R162). -/
def resolve (z : Size) (m : Rm) (s : State) : Option (Loc z × State) :=
  if m.wellFormed then some (locate z m s, autoModify z m s) else none

/-- `ReadOp(loc, z)` (R155). -/
def readOp {z : Size} (l : Loc z) (s : State) : BitVec z.bits :=
  match l with
  | .reg i => s.getR z i
  | .mem ea => s.memRead z ea
  | .imm v => v

/-- The state after `ReadOp(loc, z)`: an operand in memory has been read (20_memory.md R73). -/
def afterRead {z : Size} (l : Loc z) (s : State) : State :=
  match l with
  | .mem ea => s.didRead z ea
  | .reg _ | .imm _ => s

/-- `WriteOp(loc, z, v)` (R156): "all writes to immediate values fail silently". -/
def writeOp {z : Size} (l : Loc z) (v : BitVec z.bits) (s : State) : State :=
  match l with
  | .reg i => s.setR z i v
  | .mem ea => s.memWrite z ea v
  | .imm _ => s

/-- The effective address of an operand (R157); of a register or an immediate it is a free value (R158, log entry 10). -/
def effectiveAddress {z : Size} (l : Loc z) (s : State) : Ptr × State :=
  match l with
  | .mem ea => (ea, s)
  | .reg _ | .imm _ => (Config.eaOfNonMemory s.freeCount, s.drawn)

/-! ### The shapes in which instructions use their operand

Each takes the number `k` of the instruction's words and a state whose PGC is the instruction's address. -/

/-- Fetch all words, resolve the operand, go on with its location; a malformed index word raises IllegalInstruction with
PGC after the words as the return address (60_exceptions.md R370). -/
def withOperand (z : Size) (k : Nat) (m : Rm) (s : State) (body : Loc z → State → State) : State :=
  let fetched := s.advance k
  match resolve z m fetched with
  | some (l, s') => body l s'
  | none => fetched.raise .illegalInstruction s.pgc fetched.pgc

/-- A source operand, read at once (R160). -/
def withSource (z : Size) (k : Nat) (m : Rm) (s : State) (body : BitVec z.bits → State → State) : State :=
  withOperand z k m s fun l s' => body (readOp l s') (afterRead l s')

/-- A read-modify-write operand, resolved once (R154): `f` computes the new value and writes the flags. -/
def modify (z : Size) (k : Nat) (m : Rm) (s : State) (f : BitVec z.bits → State → BitVec z.bits × State) : State :=
  withOperand z k m s fun l s' => let r := f (readOp l s') (afterRead l s'); writeOp l r.1 r.2

/-- A register operand that receives the result of `f` on itself and a source operand: the `r, rm.src` forms. -/
def intoRegister (z : Size) (r : RegNum) (m : Rm) (s : State)
    (f : BitVec z.bits → BitVec z.bits → State → BitVec z.bits × State) : State :=
  withSource z (1 + m.ext) m s fun b s' => let v := f (s'.getR z r) b s'; v.2.setR z r v.1

/-- A read-modify-write operand and a register source: the `rm.rmw, r` forms; the register is read after the operand's
auto-modify (R161). -/
def intoOperand (z : Size) (m : Rm) (r : RegNum) (s : State)
    (f : BitVec z.bits → BitVec z.bits → State → BitVec z.bits × State) : State :=
  modify z (1 + m.ext) m s fun a s' => f a (s'.getR z r) s'

/-- A read-modify-write operand and an immediate: the `rm.rmw, imm` forms (30_encoding.md R101). -/
def immIntoOperand (z : Size) (m : Rm) (imm : Ptr) (s : State)
    (f : BitVec z.bits → BitVec z.bits → State → BitVec z.bits × State) : State :=
  modify z (1 + z.immWords + m.ext) m s fun a s' => f a (adapt z imm) s'

/-- The source of a copy, read when only its own words have been fetched (40_operands.md R160 clause 3): its value and the state
after the read. `Next`, from which a PGC-relative source starts, lies after the destination's words too (R151). -/
def copySource (z : Size) (d m : Rm) (s : State) : BitVec z.bits × State :=
  let l := locate z m (s.advance (1 + m.ext + d.ext))
  let s' := autoModify z m (s.advance (1 + m.ext))
  (readOp l s', afterRead l s')

/-- A copy from a source to a destination operand: LD.z rm.dst, rm.src, PUSH and POP (41_data_transfer.md R171). The words of the
destination are fetched after the source is read (20_memory.md R73, 40_operands.md R160). A malformed source is met when only its
own words have been fetched, a malformed destination after all words (60_exceptions.md R370), and keeps the source's auto-modify
(40_operands.md R162). -/
def copyOperand (z : Size) (d m : Rm) (s : State) : State :=
  if m.wellFormed then
    let src := copySource z d m s
    let fetched := src.2.advance d.ext
    match resolve z d fetched with
    | some (dst, s') => writeOp dst src.1 s'
    | none => fetched.raise .illegalInstruction s.pgc fetched.pgc
  else
    let fetched := s.advance (1 + m.ext)
    fetched.raise .illegalInstruction s.pgc fetched.pgc

/-- The push of an effective address through a decremented register: LEA @-r24 and PEA (41_data_transfer.md R183). -/
def pushAddress (r : RegNum) (m : Rm) (s : State) : State :=
  withOperand .p (1 + m.ext) m s fun l s' =>
    let ea := effectiveAddress l s'
    let a := ea.2.getP r - 4
    (ea.2.setP r a).memWrite .p a ea.1

/-- A jump to the value of a 24-bit operand: JP rm24 and RET (46_control_flow.md R294). -/
def jumpToValue (m : Rm) (s : State) : State := withSource .p (1 + m.ext) m s fun v s' => s'.setPgc v

/-- A load of the whole status register: LD.W WF, rm16 and the first half of RETI (41_data_transfer.md R173). -/
def loadStatus (m : Rm) (s : State) : State := withSource .w (1 + m.ext) m s fun v s' => s'.setWf v

/-- F as the result of an operation on itself, written "directly without interference" (43_logic.md R250). -/
def onF (f : Byte → Byte) (s : State) : State := (s.advance 1).setF (f s.fByte)

end Sys2Proof.Machine
end

