-- ==== Sys2Proof/Machine/Arithmetic.lean ====
section
/-! DEFINITION. Arithmetic instructions (42_arithmetic.md). A meaning takes the state at the instruction's address. -/

namespace Sys2Proof.Machine

/-- R205. -/
def execAddRRm (z : Size) (r : RegNum) (m : Rm) (s : State) : Host.Outcome State Fault Refusal :=
  .next (intoRegister z r m s fun a b s' => arith .add z a b false s')

/-- R206. -/
def execAddRmR (z : Size) (m : Rm) (r : RegNum) (s : State) : Host.Outcome State Fault Refusal :=
  .next (intoOperand z m r s fun a b s' => arith .add z a b false s')

/-- R207. -/
def execAddRmImm (z : Size) (m : Rm) (imm : Ptr) (s : State) : Host.Outcome State Fault Refusal :=
  .next (immIntoOperand z m imm s fun a b s' => arith .add z a b false s')

/-- R208. -/
def execAdxRRm (z : Size) (r : RegNum) (m : Rm) (s : State) : Host.Outcome State Fault Refusal :=
  .next (intoRegister z r m s fun a b s' => arith .add z a b s'.flags.x s')

/-- R209. -/
def execAdxRmR (z : Size) (m : Rm) (r : RegNum) (s : State) : Host.Outcome State Fault Refusal :=
  .next (intoOperand z m r s fun a b s' => arith .add z a b s'.flags.x s')

/-- R210. -/
def execAdxRmImm (z : Size) (m : Rm) (imm : Ptr) (s : State) : Host.Outcome State Fault Refusal :=
  .next (immIntoOperand z m imm s fun a b s' => arith .add z a b s'.flags.x s')

/-- R212. -/
def execSubRRm (z : Size) (r : RegNum) (m : Rm) (s : State) : Host.Outcome State Fault Refusal :=
  .next (intoRegister z r m s fun a b s' => arith .sub z a b false s')

/-- R213. -/
def execSubRmR (z : Size) (m : Rm) (r : RegNum) (s : State) : Host.Outcome State Fault Refusal :=
  .next (intoOperand z m r s fun a b s' => arith .sub z a b false s')

/-- R214. -/
def execSubRmImm (z : Size) (m : Rm) (imm : Ptr) (s : State) : Host.Outcome State Fault Refusal :=
  .next (immIntoOperand z m imm s fun a b s' => arith .sub z a b false s')

/-- R215. -/
def execSbxRRm (z : Size) (r : RegNum) (m : Rm) (s : State) : Host.Outcome State Fault Refusal :=
  .next (intoRegister z r m s fun a b s' => arith .sub z a b s'.flags.x s')

/-- R216. -/
def execSbxRmR (z : Size) (m : Rm) (r : RegNum) (s : State) : Host.Outcome State Fault Refusal :=
  .next (intoOperand z m r s fun a b s' => arith .sub z a b s'.flags.x s')

/-- R217. -/
def execSbxRmImm (z : Size) (m : Rm) (imm : Ptr) (s : State) : Host.Outcome State Fault Refusal :=
  .next (immIntoOperand z m imm s fun a b s' => arith .sub z a b s'.flags.x s')

/-- The operand of ADQ and SBQ: `w[10:8] + 1`, 1 to 8 (30_encoding.md R103). -/
def quickOperand (z : Size) (n : BitVec 3) : BitVec z.bits := BitVec.ofNat z.bits (n.toNat + 1)

/-- R211. -/
def execAdq (z : Size) (n : BitVec 3) (m : Rm) (s : State) : Host.Outcome State Fault Refusal :=
  .next (modify z (1 + m.ext) m s fun a s' => quickArith .add a (quickOperand z n) s')

/-- R218. -/
def execSbq (z : Size) (n : BitVec 3) (m : Rm) (s : State) : Host.Outcome State Fault Refusal :=
  .next (modify z (1 + m.ext) m s fun a s' => quickArith .sub a (quickOperand z n) s')

/-- R219: `0 - rmw`. -/
def execNeg (z : Size) (m : Rm) (s : State) : Host.Outcome State Fault Refusal :=
  .next (modify z (1 + m.ext) m s fun a s' => arith .sub z 0 a false s')

/-- R220: `0 - rmw - X`. -/
def execNgx (z : Size) (m : Rm) (s : State) : Host.Outcome State Fault Refusal :=
  .next (modify z (1 + m.ext) m s fun a s' => arith .sub z 0 a s'.flags.x s')

/-- The common end of MULU and MULS: R0 receives the upper half of the 2n-bit product `p`, `r` the lower (R221). -/
def storeProduct (z : Size) (r : RegNum) (p : Nat) (s : State) : State :=
  ((s.setR z 0 (BitVec.ofNat z.bits (p / 2 ^ z.bits))).setR z r (BitVec.ofNat z.bits p)).setFlags
    (s.flags.withProduct z.bits p)

/-- R221. -/
def execMulu (z : Size) (r : RegNum) (m : Rm) (s : State) : Host.Outcome State Fault Refusal :=
  .next (withSource z (1 + m.ext) m s fun b s' => storeProduct z r (mulUnsigned (s'.getR z r) b) s')

/-- R222. -/
def execMuls (z : Size) (r : RegNum) (m : Rm) (s : State) : Host.Outcome State Fault Refusal :=
  .next (withSource z (1 + m.ext) m s fun b s' => storeProduct z r (mulSigned (s'.getR z r) b) s')

/-- The common end of DIVU and DIVS: `r` receives the quotient, R0 the remainder, C is cleared, VP tells an overflow; after
an overflow `r`, R0, S and Z are `DivOverflowResult` (R233, log entry 8). -/
def storeQuotient (z : Size) (r : RegNum) (q : Option (Quotient z.bits)) (open_ : DivOverflow) (s : State) : State :=
  let f := s.flags
  match q with
  | some q => ((s.setR z r q.quot).setR z 0 q.rem).setFlags { f with s := q.s, z := q.z, c := false, vp := false }
  | none =>
    ((s.setR z r (adapt z open_.quot)).setR z 0 (adapt z open_.rem)).setFlags
      { f with s := open_.s, z := open_.z, c := false, vp := true }

/-- The dividend `R(z, 0) : R(z, r)` as an unsigned number (R232). -/
def State.dividend (s : State) (z : Size) (r : RegNum) : Nat := (s.getR z 0).toNat * 2 ^ z.bits + (s.getR z r).toNat

/-- R232; a divisor of 0 raises DivideByZero with the next instruction as return address (R230). -/
def execDivu (z : Size) (r : RegNum) (m : Rm) (s : State) : Host.Outcome State Fault Refusal :=
  .next (withSource z (1 + m.ext) m s fun d s' =>
    let n := s'.dividend z r
    if d = 0 then s'.raise .divideByZero s.pgc s'.pgc
    else storeQuotient z r (divUnsigned z.bits n d.toNat) (Config.divOverflow z false n d.toNat) s')

/-- R234; a divisor of 0 raises DivideByZero with the next instruction as return address (R230). -/
def execDivs (z : Size) (r : RegNum) (m : Rm) (s : State) : Host.Outcome State Fault Refusal :=
  .next (withSource z (1 + m.ext) m s fun d s' =>
    let n := s'.dividend z r
    if d = 0 then s'.raise .divideByZero s.pgc s'.pgc
    else storeQuotient z r (divSigned z.bits Config.divsRounding (signed2n z.bits n) d.toInt)
      (Config.divOverflow z true n d.toNat) s')

/-- R235: `r - src`, only the flags are written. -/
def execCpRRm (z : Size) (r : RegNum) (m : Rm) (s : State) : Host.Outcome State Fault Refusal :=
  .next (withSource z (1 + m.ext) m s fun b s' => (quickArith .sub (s'.getR z r) b s').2)

/-- R236: `rm - imm`, only the flags are written. -/
def execCpRmImm (z : Size) (m : Rm) (imm : Ptr) (s : State) : Host.Outcome State Fault Refusal :=
  .next (withSource z (1 + z.immWords + m.ext) m s fun a s' => (quickArith .sub a (adapt z imm) s').2)

end Sys2Proof.Machine
end

