-- ==== Sys2Proof/Machine/Assembler.lean ====
section
/-! DEFINITION. The assembler rows of the opcode table (48_macros.md): each does what the instructions it stands for do. No word
decodes to one of them, so no step runs one (log entry 12). -/

namespace Sys2Proof.Machine

/-- R341: `LD.z @-SP, src`. -/
def execPush (z : Size) (m : Rm) (s : State) : Host.Outcome State Fault Refusal := .next (copyOperand z (.preDec 7) m s)

/-- R342: `LEA @-SP, src`. -/
def execPea (m : Rm) (s : State) : Host.Outcome State Fault Refusal := .next (pushAddress 7 m s)

/-- R343: `LD.z dst, @SP+`. -/
def execPop (z : Size) (d : Rm) (s : State) : Host.Outcome State Fault Refusal := .next (copyOperand z d (.postInc 7) s)

/-- R344: `AND.B F, $FE`. -/
def execRxf (s : State) : Host.Outcome State Fault Refusal := .next (onF (fun f => f &&& 0xFE) s)

/-- R345: `OR.B F, $01`. -/
def execSxf (s : State) : Host.Outcome State Fault Refusal := .next (onF (fun f => f ||| 0x01) s)

/-- R346: `XOR.B F, $01`. -/
def execCxf (s : State) : Host.Outcome State Fault Refusal := .next (onF (fun f => f ^^^ 0x01) s)

/-- R347: `AND.B F, $FD`. -/
def execDdm (s : State) : Host.Outcome State Fault Refusal := .next (onF (fun f => f &&& 0xFD) s)

/-- R348: `OR.B F, $02`. -/
def execEdm (s : State) : Host.Outcome State Fault Refusal := .next (onF (fun f => f ||| 0x02) s)

/-- R349: `JP @SP+`. -/
def execRet (s : State) : Host.Outcome State Fault Refusal := .next (jumpToValue (.postInc 7) s)

/-- R350: `LD.W WF, @SP+`, then `JP @SP+`: the return from a trap. The instruction boundary between the two, where a step
may take an interrupt (60_exceptions.md R378), is not part of this meaning (log entry 12). -/
def execReti (s : State) : Host.Outcome State Fault Refusal := .next (jumpToValue (.postInc 7) (loadStatus (.postInc 7) s))

end Sys2Proof.Machine
end

