-- ==== Sys2Proof/Machine/Bit.lean ====
section
/-! DEFINITION. Bit instructions (45_bit.md R280). A meaning takes the state at the instruction's address. -/

namespace Sys2Proof.Machine

/-- `1 << k` for a bit number. -/
def bitMask (k : BitVec 3) : Byte := 1 <<< k.toNat

/-- The bit number of the M0 forms: "only the lower 3 bits of it pertain to the bit number". -/
def State.m0Bit (s : State) : BitVec 3 := (s.getP 0).extractLsb' 8 3

/-- `Z <- 1 if a[k] = 0 else 0`, the only flag written. -/
def State.testBit (s : State) (a : Byte) (k : BitVec 3) : State :=
  let f := s.flags
  s.setFlags { f with z := !a.getLsbD k.toNat }

/-- R281. -/
def execBitImm (k : BitVec 3) (m : Rm) (s : State) : Host.Outcome State Fault Refusal :=
  .next (withSource .b (1 + m.ext) m s fun a s' => s'.testBit a k)

/-- R282. -/
def execChgImm (k : BitVec 3) (m : Rm) (s : State) : Host.Outcome State Fault Refusal :=
  .next (modify .b (1 + m.ext) m s fun a s' => (a ^^^ bitMask k, s'.testBit a k))

/-- R283. -/
def execResImm (k : BitVec 3) (m : Rm) (s : State) : Host.Outcome State Fault Refusal :=
  .next (modify .b (1 + m.ext) m s fun a s' => (a &&& ~~~bitMask k, s'.testBit a k))

/-- R284. -/
def execSetImm (k : BitVec 3) (m : Rm) (s : State) : Host.Outcome State Fault Refusal :=
  .next (modify .b (1 + m.ext) m s fun a s' => (a ||| bitMask k, s'.testBit a k))

/-- R285. -/
def execBitM0 (m : Rm) (s : State) : Host.Outcome State Fault Refusal :=
  .next (withSource .b (1 + m.ext) m s fun a s' => s'.testBit a s'.m0Bit)

/-- R286. -/
def execChgM0 (m : Rm) (s : State) : Host.Outcome State Fault Refusal :=
  .next (modify .b (1 + m.ext) m s fun a s' => (a ^^^ bitMask s'.m0Bit, s'.testBit a s'.m0Bit))

/-- R287. -/
def execResM0 (m : Rm) (s : State) : Host.Outcome State Fault Refusal :=
  .next (modify .b (1 + m.ext) m s fun a s' => (a &&& ~~~bitMask s'.m0Bit, s'.testBit a s'.m0Bit))

/-- R288. -/
def execSetM0 (m : Rm) (s : State) : Host.Outcome State Fault Refusal :=
  .next (modify .b (1 + m.ext) m s fun a s' => (a ||| bitMask s'.m0Bit, s'.testBit a s'.m0Bit))

end Sys2Proof.Machine
end

