-- ==== Sys2Proof/Machine/Control.lean ====
section
/-! DEFINITION. Control flow instructions (46_control_flow.md). A meaning takes the state at the instruction's address. -/

namespace Sys2Proof.Machine

/-- `sext_24(offset8) * 2` (R301). -/
def shortOffset (o : BitVec 8) : Ptr := o.signExtend 24 * 2

/-- The offset of JR.L and CR.L: the stored odd field minus 1 (R301, log entry 17). -/
def longOffset (v : Ptr) : Ptr := v - 1

/-- A jump to `Next + offset` from a state whose PGC is `Next` (R301). -/
def State.jumpBy (s : State) (offset : Ptr) : State := s.setPgc (s.pgc + offset)

/-- A call from a state whose PGC is `Next`: `Push24(Next)`, then the target (R302). -/
def State.call (s : State) (target : Ptr) : State := (s.push24 s.pgc).setPgc target

/-- R290. -/
def execJrCond (cc : Cond) (o : BitVec 8) (s : State) : Host.Outcome State Fault Refusal :=
  let fetched := s.advance 1
  .next (if condHolds cc s.flags then fetched.jumpBy (shortOffset o) else fetched)

/-- R291. -/
def execJrS (o : BitVec 8) (s : State) : Host.Outcome State Fault Refusal := .next ((s.advance 1).jumpBy (shortOffset o))

/-- R292. -/
def execJrL (v : Ptr) (s : State) : Host.Outcome State Fault Refusal := .next ((s.advance 2).jumpBy (longOffset v))

/-- R293. -/
def execJpHml (v : Ptr) (s : State) : Host.Outcome State Fault Refusal := .next ((s.advance 2).setPgc v)

/-- R294. -/
def execJpRm (m : Rm) (s : State) : Host.Outcome State Fault Refusal := .next (jumpToValue m s)

/-- R295. -/
def execJea (m : Rm) (s : State) : Host.Outcome State Fault Refusal :=
  .next (withOperand .p (1 + m.ext) m s fun l s' => let ea := effectiveAddress l s'; ea.2.setPgc ea.1)

/-- R296. -/
def execCrS (o : BitVec 8) (s : State) : Host.Outcome State Fault Refusal :=
  let fetched := s.advance 1
  .next (fetched.call (fetched.pgc + shortOffset o))

/-- R297. -/
def execCrL (v : Ptr) (s : State) : Host.Outcome State Fault Refusal :=
  let fetched := s.advance 2
  .next (fetched.call (fetched.pgc + longOffset v))

/-- R298. -/
def execCallHml (v : Ptr) (s : State) : Host.Outcome State Fault Refusal := .next ((s.advance 2).call v)

/-- R299: the target is read before the push (R302). -/
def execCallRm (m : Rm) (s : State) : Host.Outcome State Fault Refusal :=
  .next (withSource .p (1 + m.ext) m s fun v s' => s'.call v)

/-- R300. -/
def execCea (m : Rm) (s : State) : Host.Outcome State Fault Refusal :=
  .next (withOperand .p (1 + m.ext) m s fun l s' => let ea := effectiveAddress l s'; ea.2.call ea.1)

/-- R308: `$FFD000 + 16 * n`. -/
def execRst (n : Byte) (s : State) : Host.Outcome State Fault Refusal :=
  .next ((s.advance 1).call (0xFFD000 + BitVec.ofNat 24 (16 * n.toNat)))

/-- R309: the offset is one-extended, `sext_24(1 : offset7) * 2`. -/
def execDjnz (r : RegNum) (o : BitVec 7) (s : State) : Host.Outcome State Fault Refusal :=
  let fetched := s.advance 1
  let count := s.getP r - 1
  let counted := fetched.setP r count
  .next (if count = 0 then counted else counted.jumpBy (shortOffset (1#1 ++ o)))

end Sys2Proof.Machine
end

