-- ==== Sys2Proof/Machine/Logic.lean ====
section
/-! DEFINITION. Logic instructions (43_logic.md). A meaning takes the state at the instruction's address. -/

namespace Sys2Proof.Machine

/-- R241. -/
def execAndRRm (z : Size) (r : RegNum) (m : Rm) (s : State) : Host.Outcome State Fault Refusal :=
  .next (intoRegister z r m s fun a b s' => logic (a &&& b) s')

/-- R242. -/
def execAndRmR (z : Size) (m : Rm) (r : RegNum) (s : State) : Host.Outcome State Fault Refusal :=
  .next (intoOperand z m r s fun a b s' => logic (a &&& b) s')

/-- R243. -/
def execAndRmImm (z : Size) (m : Rm) (imm : Ptr) (s : State) : Host.Outcome State Fault Refusal :=
  .next (immIntoOperand z m imm s fun a b s' => logic (a &&& b) s')

/-- R244. -/
def execXorRRm (z : Size) (r : RegNum) (m : Rm) (s : State) : Host.Outcome State Fault Refusal :=
  .next (intoRegister z r m s fun a b s' => logic (a ^^^ b) s')

/-- R245. -/
def execXorRmR (z : Size) (m : Rm) (r : RegNum) (s : State) : Host.Outcome State Fault Refusal :=
  .next (intoOperand z m r s fun a b s' => logic (a ^^^ b) s')

/-- R246. -/
def execXorRmImm (z : Size) (m : Rm) (imm : Ptr) (s : State) : Host.Outcome State Fault Refusal :=
  .next (immIntoOperand z m imm s fun a b s' => logic (a ^^^ b) s')

/-- R247. -/
def execOrRRm (z : Size) (r : RegNum) (m : Rm) (s : State) : Host.Outcome State Fault Refusal :=
  .next (intoRegister z r m s fun a b s' => logic (a ||| b) s')

/-- R248. -/
def execOrRmR (z : Size) (m : Rm) (r : RegNum) (s : State) : Host.Outcome State Fault Refusal :=
  .next (intoOperand z m r s fun a b s' => logic (a ||| b) s')

/-- R249. -/
def execOrRmImm (z : Size) (m : Rm) (imm : Ptr) (s : State) : Host.Outcome State Fault Refusal :=
  .next (immIntoOperand z m imm s fun a b s' => logic (a ||| b) s')

/-- R250: F receives the result as a whole. -/
def execAndF (n : Byte) (s : State) : Host.Outcome State Fault Refusal := .next (onF (fun f => f &&& n) s)

/-- R251: F receives the result as a whole. -/
def execXorF (n : Byte) (s : State) : Host.Outcome State Fault Refusal := .next (onF (fun f => f ^^^ n) s)

/-- R252: F receives the result as a whole. -/
def execOrF (n : Byte) (s : State) : Host.Outcome State Fault Refusal := .next (onF (fun f => f ||| n) s)

/-- R253. -/
def execCpl (z : Size) (m : Rm) (s : State) : Host.Outcome State Fault Refusal :=
  .next (modify z (1 + m.ext) m s fun a s' => logic (~~~a) s')

/-- R254: the source AND R0, only the flags are written. -/
def execTst (z : Size) (m : Rm) (s : State) : Host.Outcome State Fault Refusal :=
  .next (withSource z (1 + m.ext) m s fun b s' => (logic (b &&& s'.getR z 0) s').2)

end Sys2Proof.Machine
end

