-- ==== Sys2Proof/Machine/Misc.lean ====
section
/-! DEFINITION. Miscellaneous instructions and the repeat prefixes (47_misc.md). A meaning takes the state at the instruction's
address; the repeat rule that follows an instruction is in Machine/Cycle.lean. -/

namespace Sys2Proof.Machine

/-- R323. -/
def execNop (s : State) : Host.Outcome State Fault Refusal := .next (s.advance 1)

/-- R322. -/
def execHalt (s : State) : Host.Outcome State Fault Refusal :=
  let fetched := s.advance 1
  .next { fetched with halted := true }

/-- R324: the return address is `A + 2`. -/
def execIlg (s : State) : Host.Outcome State Fault Refusal :=
  let fetched := s.advance 1
  .next (fetched.raise .illegalInstruction s.pgc fetched.pgc)

/-- R320. -/
def execRepi (n : BitVec 5) (s : State) : Host.Outcome State Fault Refusal :=
  let fetched := s.advance 1
  .next { fetched with repiA := true, repiN := n }

/-- R321. -/
def execRepr (r : RegNum) (s : State) : Host.Outcome State Fault Refusal :=
  let fetched := s.advance 1
  let f := s.flags
  .next { fetched.setFlags { f with z := false } with reprA := true, reprR := r }

end Sys2Proof.Machine
end

