-- ==== Sys2Proof/Machine/Shift.lean ====
section
/-! DEFINITION. Shift and rotate instructions (44_shift.md R260). A meaning takes the state at the instruction's address. -/

namespace Sys2Proof.Machine

/-- R261. -/
def execSla (z : Size) (m : Rm) (s : State) : Host.Outcome State Fault Refusal := .next (modify z (1 + m.ext) m s (shift .sla))

/-- R262. -/
def execSra (z : Size) (m : Rm) (s : State) : Host.Outcome State Fault Refusal := .next (modify z (1 + m.ext) m s (shift .sra))

/-- R263. -/
def execSrl (z : Size) (m : Rm) (s : State) : Host.Outcome State Fault Refusal := .next (modify z (1 + m.ext) m s (shift .srl))

/-- R264. -/
def execRl (z : Size) (m : Rm) (s : State) : Host.Outcome State Fault Refusal := .next (modify z (1 + m.ext) m s (shift .rl))

/-- R265. -/
def execRr (z : Size) (m : Rm) (s : State) : Host.Outcome State Fault Refusal := .next (modify z (1 + m.ext) m s (shift .rr))

/-- R266. -/
def execRlc (z : Size) (m : Rm) (s : State) : Host.Outcome State Fault Refusal := .next (modify z (1 + m.ext) m s (shift .rlc))

/-- R267. -/
def execRrc (z : Size) (m : Rm) (s : State) : Host.Outcome State Fault Refusal := .next (modify z (1 + m.ext) m s (shift .rrc))

end Sys2Proof.Machine
end

