-- ==== Sys2Proof/Machine/Transfer.lean ====
section
/-! DEFINITION. Data transfer instructions (41_data_transfer.md). A meaning takes the state at the instruction's address. -/

namespace Sys2Proof.Machine

/-- R172. -/
def execLdFRm (m : Rm) (s : State) : Host.Outcome State Fault Refusal :=
  .next (withSource .b (1 + m.ext) m s fun v s' => s'.setF v)

/-- R173. -/
def execLdWfRm (m : Rm) (s : State) : Host.Outcome State Fault Refusal := .next (loadStatus m s)

/-- R174. -/
def execLdRmF (m : Rm) (s : State) : Host.Outcome State Fault Refusal :=
  .next (withOperand .b (1 + m.ext) m s fun l s' => writeOp l s'.fByte s')

/-- R175. -/
def execLdRmWf (m : Rm) (s : State) : Host.Outcome State Fault Refusal :=
  .next (withOperand .w (1 + m.ext) m s fun l s' => writeOp l s'.wf s')

/-- R171. -/
def execLdRmRm (z : Size) (d m : Rm) (s : State) : Host.Outcome State Fault Refusal := .next (copyOperand z d m s)

/-- R180: the source at its own size and step, zero-extended to 24 bits. -/
def execLdzx (z : Size) (r : RegNum) (m : Rm) (s : State) : Host.Outcome State Fault Refusal :=
  .next (withSource z (1 + m.ext) m s fun v s' => s'.setP r (v.setWidth 24))

/-- R181: the source at its own size and step, sign-extended to 24 bits. -/
def execLdsx (z : Size) (r : RegNum) (m : Rm) (s : State) : Host.Outcome State Fault Refusal :=
  .next (withSource z (1 + m.ext) m s fun v s' => s'.setP r (v.signExtend 24))

/-- R182: the effective address, with a step of 4; nothing is read. -/
def execLea (r : RegNum) (m : Rm) (s : State) : Host.Outcome State Fault Refusal :=
  .next (withOperand .p (1 + m.ext) m s fun l s' => let ea := effectiveAddress l s'; ea.2.setP r ea.1)

/-- R183. -/
def execLeaPre (r : RegNum) (m : Rm) (s : State) : Host.Outcome State Fault Refusal := .next (pushAddress r m s)

/-- R184: the nibbles of a byte exchanged. -/
def execSwapB (m : Rm) (s : State) : Host.Outcome State Fault Refusal :=
  .next (modify .b (1 + m.ext) m s fun v s' => (v.extractLsb' 0 4 ++ v.extractLsb' 4 4, s'))

/-- R185: the bytes of a word exchanged. -/
def execSwapW (m : Rm) (s : State) : Host.Outcome State Fault Refusal :=
  .next (modify .w (1 + m.ext) m s fun v s' => (v.extractLsb' 0 8 ++ v.extractLsb' 8 8, s'))

/-- R186: the high and low bytes of a pointer exchanged. -/
def execSwapP (m : Rm) (s : State) : Host.Outcome State Fault Refusal :=
  .next (modify .p (1 + m.ext) m s fun v s' => (v.extractLsb' 0 8 ++ v.extractLsb' 8 8 ++ v.extractLsb' 16 8, s'))

/-- R176. -/
def execLdPHml (r : RegNum) (v : Ptr) (s : State) : Host.Outcome State Fault Refusal := .next ((s.advance 2).setP r v)

/-- R177. -/
def execLdq (r : RegNum) (n : BitVec 8) (s : State) : Host.Outcome State Fault Refusal :=
  .next ((s.advance 1).setP r (n.signExtend 24))

/-- R179. -/
def execLdIrl (n : BitVec 3) (s : State) : Host.Outcome State Fault Refusal := .next ((s.advance 1).setIrl n)

/-- R178. -/
def execLdFImm (n : Byte) (s : State) : Host.Outcome State Fault Refusal := .next (onF (fun _ => n) s)

end Sys2Proof.Machine
end

