-- ==== Sys2Proof/Machine/Dispatch.lean ====
section
/-! DEFINITION. One arm per instruction, each a direct call of its meaning (00_scope.md R12 clause 5). -/

namespace Sys2Proof.Machine

/-- The meaning of an instruction in the state whose PGC is its address. -/
def exec (i : Instr) (s : State) : Host.Outcome State Fault Refusal :=
  match i with
  | .nop => Sys2Proof.Machine.execNop s
  | .halt => Sys2Proof.Machine.execHalt s
  | .ilg => Sys2Proof.Machine.execIlg s
  | .ldFRm m => Sys2Proof.Machine.execLdFRm m s
  | .ldWfRm m => Sys2Proof.Machine.execLdWfRm m s
  | .ldRmF m => Sys2Proof.Machine.execLdRmF m s
  | .ldRmWf m => Sys2Proof.Machine.execLdRmWf m s
  | .adq z n m => Sys2Proof.Machine.execAdq z n m s
  | .rlc z m => Sys2Proof.Machine.execRlc z m s
  | .rrc z m => Sys2Proof.Machine.execRrc z m s
  | .rl z m => Sys2Proof.Machine.execRl z m s
  | .rr z m => Sys2Proof.Machine.execRr z m s
  | .sla z m => Sys2Proof.Machine.execSla z m s
  | .sra z m => Sys2Proof.Machine.execSra z m s
  | .swapB m => Sys2Proof.Machine.execSwapB m s
  | .swapW m => Sys2Proof.Machine.execSwapW m s
  | .swapP m => Sys2Proof.Machine.execSwapP m s
  | .srl z m => Sys2Proof.Machine.execSrl z m s
  | .sbq z n m => Sys2Proof.Machine.execSbq z n m s
  | .tst z m => Sys2Proof.Machine.execTst z m s
  | .mulu z r m => Sys2Proof.Machine.execMulu z r m s
  | .cpl z m => Sys2Proof.Machine.execCpl z m s
  | .muls z r m => Sys2Proof.Machine.execMuls z r m s
  | .neg z m => Sys2Proof.Machine.execNeg z m s
  | .divu z r m => Sys2Proof.Machine.execDivu z r m s
  | .ngx z m => Sys2Proof.Machine.execNgx z m s
  | .divs z r m => Sys2Proof.Machine.execDivs z r m s
  | .ldRmRm z d m => Sys2Proof.Machine.execLdRmRm z d m s
  | .ldzx z r m => Sys2Proof.Machine.execLdzx z r m s
  | .ldsx z r m => Sys2Proof.Machine.execLdsx z r m s
  | .lea r m => Sys2Proof.Machine.execLea r m s
  | .leaPre r m => Sys2Proof.Machine.execLeaPre r m s
  | .addRRm z r m => Sys2Proof.Machine.execAddRRm z r m s
  | .adxRRm z r m => Sys2Proof.Machine.execAdxRRm z r m s
  | .subRRm z r m => Sys2Proof.Machine.execSubRRm z r m s
  | .sbxRRm z r m => Sys2Proof.Machine.execSbxRRm z r m s
  | .andRRm z r m => Sys2Proof.Machine.execAndRRm z r m s
  | .xorRRm z r m => Sys2Proof.Machine.execXorRRm z r m s
  | .orRRm z r m => Sys2Proof.Machine.execOrRRm z r m s
  | .cpRRm z r m => Sys2Proof.Machine.execCpRRm z r m s
  | .addRmR z m r => Sys2Proof.Machine.execAddRmR z m r s
  | .adxRmR z m r => Sys2Proof.Machine.execAdxRmR z m r s
  | .subRmR z m r => Sys2Proof.Machine.execSubRmR z m r s
  | .sbxRmR z m r => Sys2Proof.Machine.execSbxRmR z m r s
  | .andRmR z m r => Sys2Proof.Machine.execAndRmR z m r s
  | .xorRmR z m r => Sys2Proof.Machine.execXorRmR z m r s
  | .orRmR z m r => Sys2Proof.Machine.execOrRmR z m r s
  | .addRmImm z m imm => Sys2Proof.Machine.execAddRmImm z m imm s
  | .adxRmImm z m imm => Sys2Proof.Machine.execAdxRmImm z m imm s
  | .subRmImm z m imm => Sys2Proof.Machine.execSubRmImm z m imm s
  | .sbxRmImm z m imm => Sys2Proof.Machine.execSbxRmImm z m imm s
  | .andRmImm z m imm => Sys2Proof.Machine.execAndRmImm z m imm s
  | .xorRmImm z m imm => Sys2Proof.Machine.execXorRmImm z m imm s
  | .orRmImm z m imm => Sys2Proof.Machine.execOrRmImm z m imm s
  | .cpRmImm z m imm => Sys2Proof.Machine.execCpRmImm z m imm s
  | .ldPHml r v => Sys2Proof.Machine.execLdPHml r v s
  | .ldq r n => Sys2Proof.Machine.execLdq r n s
  | .bitImm k m => Sys2Proof.Machine.execBitImm k m s
  | .chgImm k m => Sys2Proof.Machine.execChgImm k m s
  | .resImm k m => Sys2Proof.Machine.execResImm k m s
  | .setImm k m => Sys2Proof.Machine.execSetImm k m s
  | .bitM0 m => Sys2Proof.Machine.execBitM0 m s
  | .chgM0 m => Sys2Proof.Machine.execChgM0 m s
  | .resM0 m => Sys2Proof.Machine.execResM0 m s
  | .setM0 m => Sys2Proof.Machine.execSetM0 m s
  | .ldIrl n => Sys2Proof.Machine.execLdIrl n s
  | .andF n => Sys2Proof.Machine.execAndF n s
  | .xorF n => Sys2Proof.Machine.execXorF n s
  | .orF n => Sys2Proof.Machine.execOrF n s
  | .ldFImm n => Sys2Proof.Machine.execLdFImm n s
  | .jrCond cc o => Sys2Proof.Machine.execJrCond cc o s
  | .jrS o => Sys2Proof.Machine.execJrS o s
  | .crS o => Sys2Proof.Machine.execCrS o s
  | .repr r => Sys2Proof.Machine.execRepr r s
  | .djnz r o => Sys2Proof.Machine.execDjnz r o s
  | .jpHml v => Sys2Proof.Machine.execJpHml v s
  | .jrL v => Sys2Proof.Machine.execJrL v s
  | .callHml v => Sys2Proof.Machine.execCallHml v s
  | .crL v => Sys2Proof.Machine.execCrL v s
  | .jpRm m => Sys2Proof.Machine.execJpRm m s
  | .jea m => Sys2Proof.Machine.execJea m s
  | .callRm m => Sys2Proof.Machine.execCallRm m s
  | .cea m => Sys2Proof.Machine.execCea m s
  | .repi n => Sys2Proof.Machine.execRepi n s
  | .rst n => Sys2Proof.Machine.execRst n s
  | .push z m => Sys2Proof.Machine.execPush z m s
  | .pea m => Sys2Proof.Machine.execPea m s
  | .pop z d => Sys2Proof.Machine.execPop z d s
  | .rxf => Sys2Proof.Machine.execRxf s
  | .sxf => Sys2Proof.Machine.execSxf s
  | .cxf => Sys2Proof.Machine.execCxf s
  | .ddm => Sys2Proof.Machine.execDdm s
  | .edm => Sys2Proof.Machine.execEdm s
  | .ret => Sys2Proof.Machine.execRet s
  | .reti => Sys2Proof.Machine.execReti s

end Sys2Proof.Machine
end

