-- ==== Sys2Proof/Machine/Cycle.lean ====
section
/-! DEFINITION. One machine step (00_scope.md R12): the inputs at the boundary, the fetch, the decoded instruction, and the
repeat rule (47_misc.md R325 to R327). -/

namespace Sys2Proof.Machine

/-! ### The repeat prefixes -/

/-- REPI and REPR, to which the repeat rule is not applied (00_scope.md R12 clause 6). -/
def isRepeatPrefix (i : Instr) : Bool :=
  match i with
  | .repi _ | .repr _ => true
  | _ => false

/-- An instruction that writes PGC (47_misc.md R326 lists them). -/
def writesPgc (i : Instr) : Bool :=
  match i with
  | .jrCond _ _ | .jrS _ | .jrL _ | .jpHml _ | .jpRm _ | .jea _ | .crS _ | .crL _ | .callHml _ | .callRm _ | .cea _
  | .rst _ | .djnz _ _ | .ret | .reti => true
  | _ => false

/-- What may not follow a repeat prefix: REPI, REPR, a control transfer, HALT (R326, parameter `RepeatMisuse`). -/
def notRepeatable (i : Instr) : Bool :=
  isRepeatPrefix i || writesPgc i || i == .halt

/-- The repeat rule after the completed instruction at `a` (R325). After a trap neither bit is set, so it does nothing. -/
def State.repeatRule (s : State) (a : Ptr) : State :=
  if s.repiA then
    if s.repiN ≠ 0 then { s with repiN := s.repiN - 1 }.setPgc a else { s with repiA := false }
  else if s.reprA then
    let count := s.getP s.reprR - 1
    let counted := s.setP s.reprR count
    if count ≠ 0 ∧ s.flags.z = false then counted.setPgc a else { counted with reprA := false }
  else s

/-! ### Fetch -/

/-- The five words from PGC onwards, each read after those before it: no instruction has more (30_encoding.md R92). Each is read
at an even address, and the address wraps at 2^24 (20_memory.md R70). -/
def State.wordsAhead (s : State) : List Word := [0, 1, 2, 3, 4].map s.fetchWord

/-- The size, destination and source of LD.z rm.dst, rm.src: of all instructions it alone has words that are fetched after an
operand is read (20_memory.md R73, 40_operands.md R160). The size, the source and the destination's number of words stand in the
words up to the last of the source. -/
def copyOf (o : Except DecodeError Instr) : Option (Size × Rm × Rm) :=
  match o with
  | .ok (.ldRmRm z d m) | .error (.malformed (.ldRmRm z d m)) => some (z, d, m)
  | _ => none

/-- The words that are decoded: of a copy, those after the source's are read when the source has been. That the words of the
decoded instruction, and no more, have been read is what `State.advance` records. -/
def State.fetchWords (s : State) : List Word :=
  match copyOf (decodeWords s.wordsAhead) with
  | some (z, d, m) => (s.wordsAhead.take (1 + m.ext) ++ (copySource z d m s).2.wordsAhead).take 5
  | none => s.wordsAhead

/-- The bytes of these words. -/
def State.fetchBytes (s : State) : List Byte := bytesOfWords s.fetchWords

/-! ### The step -/

/-- Apply the repeat rule to a next state, but after a repeat prefix. -/
def afterInstr (i : Instr) (a : Ptr) (o : Host.Outcome State Fault Refusal) : Host.Outcome State Fault Refusal :=
  match o with
  | .next t => .next (if isRepeatPrefix i then t else t.repeatRule a)
  | .fault f => .fault f
  | .refused r => .refused r

/-- Clauses 5 and 6 of R12 for a decoded instruction, with the refusal of R326. -/
def runInstr (i : Instr) (s : State) : Host.Outcome State Fault Refusal :=
  if (s.repiA || s.reprA) && notRepeatable i then .refused .repeatMisuse else afterInstr i s.pgc (exec i s)

/-- Clauses 4 to 6 of R12. A first word of no row raises IllegalInstruction with return address `A + 2` (60_exceptions.md
R370); a malformed instruction evaluates its operands up to the malformed word, where it raises it too. Five words are
never too few, so the case of missing bytes does not arise. -/
def fetchAndRun (s : State) : Host.Outcome State Fault Refusal :=
  match decode s.fetchBytes with
  | .ok i => runInstr i s
  | .error (.malformed i) => exec i s
  | .error (.nonexistent _) => .next ((s.advance 1).raise .illegalInstruction s.pgc (s.advance 1).pgc)
  | .error .truncated => .next ((s.advance 1).raise .illegalInstruction s.pgc (s.advance 1).pgc)

/-- The return address of an interrupt at a boundary: the address of the REPR while its loop is in progress (60_exceptions.md
R370). -/
def State.interruptReturn (s : State) : Ptr := if s.reprA then s.pgc - 2 else s.pgc

/-- One step (R12): Reset before all else; while halted only an acceptable interrupt; then an interrupt unless REPI holds it
off; then an instruction. `s` is the state past the boundary, `rq` the inputs asserted there. -/
def boundary (rq : Requests) (s : State) : Host.Outcome State Fault Refusal :=
  if rq.reset then .next s.resetLine
  else if s.halted then
    match s.acceptable rq with
    | some c => .next (s.trap c s.pgc)
    | none => .next s
  else if s.repiA then fetchAndRun s
  else
    match s.acceptable rq with
    | some c => .next (s.trap c s.interruptReturn)
    | none => fetchAndRun s

/-- One step of the machine: the inputs of this boundary are taken from the schedule. -/
def cycle (s : State) : Host.Outcome State Fault Refusal := boundary s.asserted s.pastBoundary

/-! ### Placing an instruction -/

/-- Memory with the byte at `a` loaded from outside: into RAM or ROM, and where the map has neither, into ROM put there. -/
def State.loadByte (s : State) (a : Ptr) (v : Byte) : State :=
  { s with mem := s.mem.set a.toNat v, map := if s.isMemory a then s.map else ⟨a.toNat, 1, .rom⟩ :: s.map }

/-- Memory with the bytes of `bs` loaded from `a` onwards, modulo 2^24. -/
def State.storeBytes (s : State) (a : Ptr) : List Byte → State
  | [] => s
  | v :: bs => (s.loadByte a v).storeBytes (a + 1) bs

/-- The instruction whose bits are those of `w` at the address where the next step fetches, and everything that this step
needs to run it: no input is asserted at the coming boundary, and the core is not halted. -/
def State.placeInstr (s : State) (nbits w : Nat) : State :=
  let placed := s.storeBytes (evenAddr s.pgc) (tableWordBytes nbits w)
  { placed with requests := Requests.none :: s.requests, halted := false }

end Sys2Proof.Machine
end

