-- ==== Sys2Proof/Machine/Step.lean ====
section
/-! DEFINITION. The step of the machine and the host's way to place an instruction. -/

namespace Sys2Proof.Machine

/-- One step (00_scope.md R12). -/
def step (s : State) : Host.Outcome State Fault Refusal := cycle s

/-- The state whose next step fetches and runs the instruction with the bits of `w` (log entry 13). -/
def State.withFetchWord (s : State) (nbits w : Nat) : State := s.placeInstr nbits w

end Sys2Proof.Machine
end

