-- ==== Sys2Proof/Safety.lean ====
section
/-! DEFINITION. What a state of a sound run satisfies, in the terms the statements use. -/

namespace Sys2Proof.Machine

/-- The invariant of the machine: memory in its canonical form; bit 0 of PGC is 0 (10_state.md R31); at most one repeat in
progress, because a repeat prefix may not follow another (47_misc.md R326); and none while halted. -/
structure State.Inv (s : State) : Prop where
  memory : s.mem.wf = true
  even : s.pgc.getLsbD 0 = false
  oneRepeat : (s.repiA && s.reprA) = false
  haltAlone : (s.halted && (s.repiA || s.reprA)) = false

/-- A step goes on: it ends in no fault and no refusal. -/
def GoesOn (o : Host.Outcome State Fault Refusal) : Prop := ∃ t, o = .next t

end Sys2Proof.Machine
end

