-- ==== Sys2Proof/Certificates/Slice0/Obligations.lean ====
section
/-! DEFINITION. The statements for the provers. The first part names what several statements share; every result there is
written from the spec's rule with the arithmetic of bit vectors and numbers, not with the model's flag computations. Where a
statement rests on a choice of the model or on a decision of the spec its docstring says so. -/

namespace Sys2Proof.Claims

open Sys2Proof.Machine

/-! ### Operands -/

/-- The state with the instruction's `k` words fetched (PGC is `Next`) and operand `m` of size `z` resolved: the base register
of an auto-modify form is already changed (40_operands.md R160). -/
def resolved (z : Size) (k : Nat) (m : Rm) (s : State) : State := autoModify z m (s.advance k)

/-- Where the operand lies. -/
def place (z : Size) (k : Nat) (m : Rm) (s : State) : Loc z := locate z m (s.advance k)

/-- The state once the operand has been read as well: only `bus` may differ from `resolved`. -/
def accessed (z : Size) (k : Nat) (m : Rm) (s : State) : State := afterRead (place z k m s) (resolved z k m s)

/-- The operand's value, read as soon as it is resolved. -/
def operand (z : Size) (k : Nat) (m : Rm) (s : State) : BitVec z.bits := readOp (place z k m s) (resolved z k m s)

/-- The source of a copy as read: its place starts from `Next`, but only the first word and its own words have been fetched. -/
def copyValue (z : Size) (d m : Rm) (s : State) : BitVec z.bits :=
  readOp (place z (1 + m.ext + d.ext) m s) (resolved z (1 + m.ext) m s)

/-- The state in which that read has taken place (20_memory.md R73, 40_operands.md R160). -/
def copyRead (z : Size) (d m : Rm) (s : State) : State :=
  afterRead (place z (1 + m.ext + d.ext) m s) (resolved z (1 + m.ext) m s)

/-- And the one in which the words of the destination have then been fetched too. -/
def copyFetched (z : Size) (d m : Rm) (s : State) : State := (copyRead z d m s).advance d.ext

/-- A result and the state that goes with it, from the register operand `a` and the source `b`, stored in the register: the
`r, rm.src` forms. -/
def registerNext (z : Size) (r : RegNum) (m : Rm) (s : State)
    (f : BitVec z.bits → BitVec z.bits → State → BitVec z.bits × State) : State :=
  let s1 := accessed z (1 + m.ext) m s
  let v := f (s1.getR z r) (operand z (1 + m.ext) m s) s1
  v.2.setR z r v.1

/-- A result and the state that goes with it, from the operand, stored in the operand: read-modify-write forms of `k` words. -/
def operandNext (z : Size) (k : Nat) (m : Rm) (s : State) (f : BitVec z.bits → State → BitVec z.bits × State) : State :=
  let v := f (operand z k m s) (accessed z k m s)
  writeOp (place z k m s) v.1 v.2

/-! ### Results -/

/-- A carry as an `n`-bit number. -/
def carryIn (n : Nat) (c : Bool) : BitVec n := BitVec.ofNat n c.toNat

/-- S, Z, C and VP of the sum `a + b + cin` (42_arithmetic.md R202, with VP in its second form). -/
def sumFlags {n : Nat} (a b : BitVec n) (cin : Bool) (f : Flags) : Flags :=
  let res := a + b + carryIn n cin
  { f with s := res.msb, z := decide (res = 0), c := decide (2 ^ n ≤ a.toNat + b.toNat + cin.toNat)
           vp := decide (a.msb = b.msb ∧ res.msb ≠ a.msb) }

/-- S, Z, C and VP of the difference `a - b - bin` (R203, with C and VP in their second form). -/
def diffFlags {n : Nat} (a b : BitVec n) (bin : Bool) (f : Flags) : Flags :=
  let res := a - b - carryIn n bin
  { f with s := res.msb, z := decide (res = 0), c := decide (a.toNat < b.toNat + bin.toNat)
           vp := decide (a.msb ≠ b.msb ∧ res.msb ≠ a.msb) }

/-- X as a ditto of C (10_state.md R34). -/
def alsoX (f : Flags) : Flags := { f with x := f.c }

/-- `a + b + cin` with S, Z, C, VP and X. -/
def sum {n : Nat} (cin : Bool) (a b : BitVec n) (s : State) : BitVec n × State :=
  (a + b + carryIn n cin, s.setFlags (alsoX (sumFlags a b cin s.flags)))

/-- `a - b - bin` with S, Z, C, VP and X. -/
def diff {n : Nat} (bin : Bool) (a b : BitVec n) (s : State) : BitVec n × State :=
  (a - b - carryIn n bin, s.setFlags (alsoX (diffFlags a b bin s.flags)))

/-- A byte of two decimal digits. -/
def twoDigits (b : Byte) : Prop := b.toNat / 16 ≤ 9 ∧ b.toNat % 16 ≤ 9

/-- The number that two decimal digits write. -/
def digitsValue (b : Byte) : Int := 10 * (b.toNat / 16 : Nat) + (b.toNat % 16 : Nat)

/-- The two decimal digits of the number `t` modulo 100. -/
def digitsOf (t : Int) : Byte := BitVec.ofNat 8 (16 * ((t % 100).toNat / 10) + (t % 100).toNat % 10)

/-- The decimal result for the number `t`: a carry or borrow when it is not one of 0 to 99; VP is the next free value. -/
def decimalNext (t : Int) (s : State) : Byte × State :=
  let res := digitsOf t
  let c := decide (t < 0 ∨ 100 ≤ t)
  let f := s.flags
  (res, (s.setFlags { f with s := res.msb, z := decide (res = 0), c := c, x := c
                             vp := Config.decimalVP s.freeCount }).drawn)

/-- Addition or subtraction of decimal digits. -/
def decimalSum (cin : Bool) (a b : Byte) (s : State) : Byte × State :=
  decimalNext (digitsValue a + digitsValue b + cin.toNat) s

def decimalDiff (bin : Bool) (a b : Byte) (s : State) : Byte × State :=
  decimalNext (digitsValue a - digitsValue b - bin.toNat) s

/-- What a decimal operation on a byte that is not two digits leaves: one free value for the byte and one for each flag. -/
def notDigits (s : State) : Byte × State :=
  let v := Config.bcdInvalid s.freeCount
  let f := s.flags
  (v.res, (s.setFlags { f with s := v.s, z := v.z, c := v.c, x := v.x, vp := v.vp }).drawn)

/-- The number of 1 bits. -/
def ones {n : Nat} (v : BitVec n) : Nat := ((List.range n).map fun k => (v.getLsbD k).toNat).sum

/-- A logic result with its flags (43_logic.md R240). -/
def logicNext {n : Nat} (res : BitVec n) (s : State) : BitVec n × State :=
  let f := s.flags
  (res, s.setFlags { f with s := res.msb, z := decide (res = 0), c := false, vp := decide (ones res % 2 = 0) })

/-- A shift's result with its flags: `out` goes to C and X (44_shift.md R260). -/
def shiftNext {n : Nat} (res : BitVec n) (out vp : Bool) (s : State) : BitVec n × State :=
  let f := s.flags
  (res, s.setFlags { f with s := res.msb, z := decide (res = 0), c := out, x := out, vp := vp })

/-- Whether the top two bits differ. -/
def topBitsDiffer {n : Nat} (a : BitVec n) : Bool := a.msb != a.getLsbD (n - 2)

/-- The flags in F, bit by bit (10_state.md R27). -/
def flagsIn (v : Byte) : Flags :=
  ⟨v.getLsbD 7, v.getLsbD 6, v.getLsbD 3, v.getLsbD 2, v.getLsbD 1, v.getLsbD 0⟩

/-- Z as the inverse of the tested bit, nothing else (45_bit.md R280). -/
def bitTested (a : Byte) (k : BitVec 3) (s : State) : State :=
  let f := s.flags
  s.setFlags { f with z := !a.getLsbD k.toNat }

/-- `v` is `a` with bit `k` given the value `b`. -/
def bitReplaced (a v : Byte) (k : BitVec 3) (b : Bool) : Prop :=
  ∀ j : Nat, j < 8 → v.getLsbD j = if j = k.toNat then b else a.getLsbD j

/-- How far the stack pointer moves for one item of size `z` (20_memory.md R75). -/
def stackStep : Size → Ptr
  | .b | .w => 2
  | .p => 4

/-- A call from a state whose PGC is `Next` (46_control_flow.md R302). -/
def callNext (target : Ptr) (s : State) : State :=
  ((s.setP 7 (s.getP 7 - 4)).memWrite .p (s.getP 7 - 4) s.pgc).setPgc target

/-- The state, as far as memory goes, in which the second half of RETI pops the return address: the word under it has been read
and the second instruction fetched (48_macros.md R350). -/
def secondPop (s : State) : State := ((s.advance 1).didRead .w (s.getP 7)).advance 1

/-! ### When an instruction raises no exception -/

/-- The RM operands of an instruction. -/
def operandsOf : Instr → List Rm
  | .nop | .halt | .ilg | .ldPHml _ _ | .ldq _ _ | .ldIrl _ | .andF _ | .xorF _ | .orF _ | .ldFImm _ | .jrCond _ _
  | .jrS _ | .crS _ | .repr _ | .djnz _ _ | .jpHml _ | .jrL _ | .callHml _ | .crL _ | .repi _ | .rst _ | .rxf | .sxf
  | .cxf | .ddm | .edm | .ret | .reti => []
  | .ldFRm m | .ldWfRm m | .ldRmF m | .ldRmWf m | .adq _ _ m | .rlc _ m | .rrc _ m | .rl _ m | .rr _ m | .sla _ m
  | .sra _ m | .swapB m | .swapW m | .swapP m | .srl _ m | .sbq _ _ m | .tst _ m | .mulu _ _ m | .cpl _ m
  | .muls _ _ m | .neg _ m | .divu _ _ m | .ngx _ m | .divs _ _ m | .ldzx _ _ m | .ldsx _ _ m | .lea _ m
  | .leaPre _ m | .addRRm _ _ m | .adxRRm _ _ m | .subRRm _ _ m | .sbxRRm _ _ m | .andRRm _ _ m | .xorRRm _ _ m
  | .orRRm _ _ m | .cpRRm _ _ m | .addRmR _ m _ | .adxRmR _ m _ | .subRmR _ m _ | .sbxRmR _ m _ | .andRmR _ m _
  | .xorRmR _ m _ | .orRmR _ m _ | .addRmImm _ m _ | .adxRmImm _ m _ | .subRmImm _ m _ | .sbxRmImm _ m _
  | .andRmImm _ m _ | .xorRmImm _ m _ | .orRmImm _ m _ | .cpRmImm _ m _ | .bitImm _ m | .chgImm _ m | .resImm _ m
  | .setImm _ m | .bitM0 m | .chgM0 m | .resM0 m | .setM0 m | .jpRm m | .jea m | .callRm m | .cea m | .push _ m
  | .pea m | .pop _ m => [m]
  | .ldRmRm _ d m => [d, m]

/-- The size at which an instruction uses its RM operand (40_operands.md R150): its own size, or that of `rm8`, `rm16`, `rm24`;
`.P` where it has no RM operand. -/
def operandSize : Instr → Size
  | .ldFRm _ | .ldRmF _ | .swapB _ | .bitImm _ _ | .chgImm _ _ | .resImm _ _ | .setImm _ _ | .bitM0 _ | .chgM0 _
  | .resM0 _ | .setM0 _ => .b
  | .ldWfRm _ | .ldRmWf _ | .swapW _ => .w
  | .swapP _ | .lea _ _ | .leaPre _ _ | .jpRm _ | .jea _ | .callRm _ | .cea _ | .pea _ => .p
  | .adq z _ _ | .rlc z _ | .rrc z _ | .rl z _ | .rr z _ | .sla z _ | .sra z _ | .srl z _ | .sbq z _ _ | .tst z _
  | .mulu z _ _ | .cpl z _ | .muls z _ _ | .neg z _ | .divu z _ _ | .ngx z _ | .divs z _ _ | .ldRmRm z _ _
  | .ldzx z _ _ | .ldsx z _ _ | .addRRm z _ _ | .adxRRm z _ _ | .subRRm z _ _ | .sbxRRm z _ _ | .andRRm z _ _
  | .xorRRm z _ _ | .orRRm z _ _ | .cpRRm z _ _ | .addRmR z _ _ | .adxRmR z _ _ | .subRmR z _ _ | .sbxRmR z _ _
  | .andRmR z _ _ | .xorRmR z _ _ | .orRmR z _ _ | .addRmImm z _ _ | .adxRmImm z _ _ | .subRmImm z _ _
  | .sbxRmImm z _ _ | .andRmImm z _ _ | .xorRmImm z _ _ | .orRmImm z _ _ | .cpRmImm z _ _ | .push z _ | .pop z _ => z
  | .nop | .halt | .ilg | .ldPHml _ _ | .ldq _ _ | .ldIrl _ | .andF _ | .xorF _ | .orF _ | .ldFImm _ | .jrCond _ _
  | .jrS _ | .crS _ | .repr _ | .djnz _ _ | .jpHml _ | .jrL _ | .callHml _ | .crL _ | .repi _ | .rst _ | .rxf | .sxf
  | .cxf | .ddm | .edm | .ret | .reti => .p

/-- Whether an instruction is a divide whose divisor is 0 (42_arithmetic.md R230). -/
def dividesByZero (i : Instr) (s : State) : Prop :=
  match i with
  | .divu z _ m | .divs z _ m => operand z (1 + m.ext) m s = 0
  | _ => False

/-- An instruction that raises neither exception: it is not ILG, its index words match a pattern, and it is no divide by zero. -/
def raisesNone (i : Instr) (s : State) : Prop :=
  i ≠ .ilg ∧ (∀ m ∈ operandsOf i, m.wellFormed = true) ∧ ¬ dividesByZero i s

/-! ### What an instruction may write -/

/-- The bytes of an operand that is written. -/
def placeBytes {z : Size} (l : Loc z) : List Ptr :=
  match l with
  | .mem ea => touched z ea
  | .reg _ | .imm _ => []

/-- Where an instruction that raises no exception stores. -/
inductive Stored where
  /-- No byte. -/
  | nothing
  /-- The operand `m` of size `z` of an instruction of `k` words. -/
  | operand (z : Size) (k : Nat) (m : Rm)
  /-- The destination `d` of a copy, located after the source `m` is read. -/
  | copied (z : Size) (d m : Rm)
  /-- A cell of size `z` that a push through `r` makes, after the operand of an instruction of `k` words is resolved. -/
  | pushed (z : Size) (r : RegNum) (k : Nat) (m : Rm)
  /-- The cell of a return address that a call of `k` words with no operand pushes. -/
  | returned (k : Nat)

/-- Where each instruction stores (20_memory.md R71). -/
def storesAt : Instr → Stored
  | .nop | .halt | .ilg | .ldFRm _ | .ldWfRm _ | .tst _ _ | .mulu _ _ _ | .muls _ _ _ | .divu _ _ _ | .divs _ _ _
  | .ldzx _ _ _ | .ldsx _ _ _ | .lea _ _ | .addRRm _ _ _ | .adxRRm _ _ _ | .subRRm _ _ _ | .sbxRRm _ _ _
  | .andRRm _ _ _ | .xorRRm _ _ _ | .orRRm _ _ _ | .cpRRm _ _ _ | .cpRmImm _ _ _ | .ldPHml _ _ | .ldq _ _
  | .bitImm _ _ | .bitM0 _ | .ldIrl _ | .andF _ | .xorF _ | .orF _ | .ldFImm _ | .jrCond _ _ | .jrS _ | .repr _
  | .djnz _ _ | .jpHml _ | .jrL _ | .jpRm _ | .jea _ | .repi _ | .rxf | .sxf | .cxf | .ddm | .edm | .ret | .reti =>
    .nothing
  | .adq z _ m | .rlc z m | .rrc z m | .rl z m | .rr z m | .sla z m | .sra z m | .srl z m | .sbq z _ m | .cpl z m
  | .neg z m | .ngx z m | .addRmR z m _ | .adxRmR z m _ | .subRmR z m _ | .sbxRmR z m _ | .andRmR z m _
  | .xorRmR z m _ | .orRmR z m _ => .operand z (1 + m.ext) m
  | .addRmImm z m _ | .adxRmImm z m _ | .subRmImm z m _ | .sbxRmImm z m _ | .andRmImm z m _ | .xorRmImm z m _
  | .orRmImm z m _ => .operand z (1 + z.immWords + m.ext) m
  | .ldRmF m | .swapB m | .chgImm _ m | .resImm _ m | .setImm _ m | .chgM0 m | .resM0 m | .setM0 m =>
    .operand .b (1 + m.ext) m
  | .ldRmWf m | .swapW m => .operand .w (1 + m.ext) m
  | .swapP m => .operand .p (1 + m.ext) m
  | .ldRmRm z d m => .copied z d m
  | .pop z d => .copied z d (.postInc 7)
  | .push z m => .pushed z 7 (1 + m.ext) m
  | .leaPre r m => .pushed .p r (1 + m.ext) m
  | .callRm m | .cea m | .pea m => .pushed .p 7 (1 + m.ext) m
  | .crS _ | .rst _ => .returned 1
  | .callHml _ | .crL _ => .returned 2

/-- The addresses of the bytes that an instruction which raises no exception stores to. -/
def storedBytes (i : Instr) (s : State) : List Ptr :=
  match storesAt i with
  | .nothing => []
  | .operand z k m => placeBytes (place z k m s)
  | .copied z d m => placeBytes (locate z d (copyFetched z d m s))
  | .pushed z r k m => touched z ((resolved z k m s).getP r - stackStep z)
  | .returned k => touched .p ((s.advance k).getP 7 - 4)

/-- The instructions that store no byte, whatever their operands, when they raise no exception. -/
def storesNothing (i : Instr) : Prop := storesAt i = .nothing

/-- The calls, each with the state that makes the push: PGC is `Next` and the operand, if there is one, is resolved and, but for
CEA, read. -/
def callBase (i : Instr) (s : State) : Option State :=
  match i with
  | .crS _ | .rst _ => some (s.advance 1)
  | .crL _ | .callHml _ => some (s.advance 2)
  | .callRm m => some (accessed .p (1 + m.ext) m s)
  | .cea m => some (resolved .p (1 + m.ext) m s)
  | _ => none

/-- The P register that register number `i` names a part of at size `z` (10_state.md R22). -/
def partOf (z : Size) (i : RegNum) : RegNum :=
  match z with
  | .b => if 4 ≤ i.toNat then i - 4 else i
  | .w | .p => i

/-- The register that resolving an operand changes. -/
def autoBase : Rm → List RegNum
  | .postInc r | .preDec r => [r]
  | _ => []

/-- The register that writing an operand changes. -/
def writtenPlace (z : Size) : Rm → List RegNum
  | .reg r => [partOf z r]
  | _ => []

/-- The register an instruction names as its destination, and the ones it writes implicitly (10_state.md R24): P0 for the
multiplies and divides, SP for pushes, pops and calls. -/
def destination : Instr → List RegNum
  | .mulu z r _ | .muls z r _ | .divu z r _ | .divs z r _ => [0, partOf z r]
  | .ldzx _ r _ | .ldsx _ r _ | .lea r _ | .leaPre r _ | .ldPHml r _ | .ldq r _ | .djnz r _ => [r]
  | .addRRm z r _ | .adxRRm z r _ | .subRRm z r _ | .sbxRRm z r _ | .andRRm z r _ | .xorRRm z r _ | .orRRm z r _ =>
    [partOf z r]
  | .ldRmRm z d _ => writtenPlace z d
  | .pop z d => 7 :: writtenPlace z d
  | .crS _ | .callHml _ | .crL _ | .callRm _ | .cea _ | .rst _ | .push _ _ | .pea _ | .ret | .reti => [7]
  | .adq z _ m | .rlc z m | .rrc z m | .rl z m | .rr z m | .sla z m | .sra z m | .srl z m | .sbq z _ m | .cpl z m
  | .neg z m | .ngx z m | .addRmR z m _ | .adxRmR z m _ | .subRmR z m _ | .sbxRmR z m _ | .andRmR z m _
  | .xorRmR z m _ | .orRmR z m _ | .addRmImm z m _ | .adxRmImm z m _ | .subRmImm z m _ | .sbxRmImm z m _
  | .andRmImm z m _ | .xorRmImm z m _ | .orRmImm z m _ => writtenPlace z m
  | .ldRmF m | .swapB m | .chgImm _ m | .resImm _ m | .setImm _ m | .chgM0 m | .resM0 m | .setM0 m =>
    writtenPlace .b m
  | .ldRmWf m | .swapW m => writtenPlace .w m
  | .swapP m => writtenPlace .p m
  | .nop | .halt | .ilg | .ldFRm _ | .ldWfRm _ | .tst _ _ | .cpRRm _ _ _ | .cpRmImm _ _ _ | .bitImm _ _
  | .bitM0 _ | .ldIrl _ | .andF _ | .xorF _ | .orF _ | .ldFImm _ | .jrCond _ _ | .jrS _ | .repr _ | .jpHml _
  | .jrL _ | .jpRm _ | .jea _ | .repi _ | .rxf | .sxf | .cxf | .ddm | .edm => []

/-- Every P register that an instruction which raises no exception may change. -/
def writtenRegs (i : Instr) : List RegNum := destination i ++ (operandsOf i).flatMap autoBase

/-- The bits of F that an instruction may write: the table of 10_state.md R37. -/
def writtenFlags : Instr → Byte
  | .rlc _ _ | .rrc _ _ | .rl _ _ | .rr _ _ | .sla _ _ | .sra _ _ | .srl _ _ | .neg _ _ | .ngx _ _
  | .addRRm _ _ _ | .adxRRm _ _ _ | .subRRm _ _ _ | .sbxRRm _ _ _ | .addRmR _ _ _ | .adxRmR _ _ _ | .subRmR _ _ _
  | .sbxRmR _ _ _ | .addRmImm _ _ _ | .adxRmImm _ _ _ | .subRmImm _ _ _ | .sbxRmImm _ _ _ => 0b11001101
  | .adq _ _ _ | .sbq _ _ _ | .tst _ _ | .mulu _ _ _ | .cpl _ _ | .muls _ _ _ | .divu _ _ _ | .divs _ _ _
  | .andRRm _ _ _ | .xorRRm _ _ _ | .orRRm _ _ _ | .cpRRm _ _ _ | .andRmR _ _ _ | .xorRmR _ _ _ | .orRmR _ _ _
  | .andRmImm _ _ _ | .xorRmImm _ _ _ | .orRmImm _ _ _ | .cpRmImm _ _ _ => 0b11001100
  | .bitImm _ _ | .chgImm _ _ | .resImm _ _ | .setImm _ _ | .bitM0 _ | .chgM0 _ | .resM0 _ | .setM0 _ | .repr _ =>
    0b01000000
  | .ldFRm _ | .ldWfRm _ | .andF _ | .xorF _ | .orF _ | .ldFImm _ | .reti => 0b11001111
  | .rxf | .sxf | .cxf => 0b00000001
  | .ddm | .edm => 0b00000010
  | .nop | .halt | .ilg | .ldRmF _ | .ldRmWf _ | .swapB _ | .swapW _ | .swapP _ | .ldRmRm _ _ _ | .ldzx _ _ _
  | .ldsx _ _ _ | .lea _ _ | .leaPre _ _ | .ldPHml _ _ | .ldq _ _ | .ldIrl _ | .jrCond _ _ | .jrS _ | .crS _
  | .djnz _ _ | .jpHml _ | .jrL _ | .callHml _ | .crL _ | .jpRm _ | .jea _ | .callRm _ | .cea _ | .repi _
  | .rst _ | .push _ _ | .pea _ | .pop _ _ | .ret => 0

/-- The instructions that write IRL (10_state.md R27). -/
def writesIrl : Instr → Bool
  | .ldWfRm _ | .ldIrl _ | .reti => true
  | _ => false

/-- The free values an instruction may draw (log entry 5): those of Decimal Mode and of an address that is none. -/
def drawsFree : Instr → Bool
  | .neg _ _ | .ngx _ _ | .lea _ _ | .leaPre _ _ | .addRRm _ _ _ | .adxRRm _ _ _ | .subRRm _ _ _ | .sbxRRm _ _ _
  | .addRmR _ _ _ | .adxRmR _ _ _ | .subRmR _ _ _ | .sbxRmR _ _ _ | .addRmImm _ _ _ | .adxRmImm _ _ _
  | .subRmImm _ _ _ | .sbxRmImm _ _ _ | .jea _ | .cea _ | .pea _ => true
  | .nop | .halt | .ilg | .ldFRm _ | .ldWfRm _ | .ldRmF _ | .ldRmWf _ | .adq _ _ _ | .rlc _ _ | .rrc _ _
  | .rl _ _ | .rr _ _ | .sla _ _ | .sra _ _ | .swapB _ | .swapW _ | .swapP _ | .srl _ _ | .sbq _ _ _ | .tst _ _
  | .mulu _ _ _ | .cpl _ _ | .muls _ _ _ | .divu _ _ _ | .divs _ _ _ | .ldRmRm _ _ _ | .ldzx _ _ _ | .ldsx _ _ _
  | .andRRm _ _ _ | .xorRRm _ _ _ | .orRRm _ _ _ | .cpRRm _ _ _ | .andRmR _ _ _ | .xorRmR _ _ _ | .orRmR _ _ _
  | .andRmImm _ _ _ | .xorRmImm _ _ _ | .orRmImm _ _ _ | .cpRmImm _ _ _ | .ldPHml _ _ | .ldq _ _ | .bitImm _ _
  | .chgImm _ _ | .resImm _ _ | .setImm _ _ | .bitM0 _ | .chgM0 _ | .resM0 _ | .setM0 _ | .ldIrl _ | .andF _
  | .xorF _ | .orF _ | .ldFImm _ | .jrCond _ _ | .jrS _ | .crS _ | .repr _ | .djnz _ _ | .jpHml _ | .jrL _
  | .callHml _ | .crL _ | .jpRm _ | .callRm _ | .repi _ | .rst _ | .push _ _ | .pop _ _ | .rxf | .sxf | .cxf
  | .ddm | .edm | .ret | .reti => false

/-! ### Encodings -/

/-- The first words that select no instruction, row by row of the table of 30_encoding.md R115. -/
def selectsNothing (w : Word) : Prop :=
  let n := w.toNat
  (0x0003 ≤ n ∧ n ≤ 0x003F) ∨
  (0x4000 ≤ n ∧ n ≤ 0x403F) ∨ (0x8000 ≤ n ∧ n ≤ 0x803F) ∨
  (0x8100 ≤ n ∧ n ≤ 0x813F) ∨ (0x8500 ≤ n ∧ n ≤ 0x853F) ∨
  (n < 0xC000 ∧ n / 4096 % 4 = 0 ∧ n / 2048 % 2 = 0 ∧ n / 256 % 8 ∈ [2, 3, 4, 6, 7] ∧ n / 64 % 4 = 0) ∨
  (0xD900 ≤ n ∧ n ≤ 0xDAFF) ∨
  (0xDB08 ≤ n ∧ n ≤ 0xDBFF) ∨
  (0xF000 ≤ n ∧ n ≤ 0xF7FF ∧ n / 128 % 2 = 0 ∧ n % 128 ≠ 0) ∨
  (0xFA80 ≤ n ∧ n ≤ 0xFAFF) ∨ (0xFB80 ≤ n ∧ n ≤ 0xFBFF) ∨
  (0xFC00 ≤ n ∧ n ≤ 0xFDFF) ∨
  (0xFE20 ≤ n ∧ n ≤ 0xFEFF)

/-! ### Steps -/

/-- The boundary at which the next step fetches an instruction: Reset is not asserted, the core is not halted, and no
interrupt is taken. -/
def fetchesNext (s : State) : Prop :=
  s.asserted.reset = false ∧ s.halted = false ∧ (s.repiA = true ∨ s.acceptable s.asserted = none)

/-- An IRQ that a boundary may take (60_exceptions.md R368). -/
def mayTake (s : State) (rq : Requests) (n : IrqLevel) : Prop := rq.irq n = true ∧ n.num ≤ s.irl.toNat

end Sys2Proof.Claims

section

open Sys2Proof Sys2Proof.Machine Sys2Proof.Claims

/-! ### Encoding -/

/-- Decode and encode agree on every instruction a word can stand for, whatever follows it (30_encoding.md R90 to R114). -/
def Obligations.CoreRoundTrip : Prop :=
  ∀ (i : Instr) (rest : List Word), i.wellFormed = true → i.isAssemblerRow = false →
    decodeWords (encode i ++ rest) = .ok i ∧ decode (encodeBytes i) = .ok i

/-- The words of each assembler row decode to the instruction it stands for (48_macros.md R341 to R350). -/
def Obligations.AssemblerRowsDecode : Prop :=
  (∀ (z : Size) (m : Rm), m.wellFormed = true →
    decodeWords (encode (.push z m)) = .ok (.ldRmRm z (.preDec 7) m) ∧
    decodeWords (encode (.pea m)) = .ok (.leaPre 7 m) ∧
    (m.isShort = false → decodeWords (encode (.pop z m)) = .ok (.ldRmRm z m (.postInc 7)))) ∧
  decodeWords (encode .rxf) = .ok (.andF 0xFE) ∧
  decodeWords (encode .sxf) = .ok (.orF 0x01) ∧
  decodeWords (encode .cxf) = .ok (.xorF 0x01) ∧
  decodeWords (encode .ddm) = .ok (.andF 0xFD) ∧
  decodeWords (encode .edm) = .ok (.orF 0x02) ∧
  decodeWords (encode .ret) = .ok (.jpRm (.postInc 7)) ∧
  decodeWords (encode .reti) = .ok (.ldWfRm (.postInc 7)) ∧
  decodeWords ((encode .reti).drop 1) = .ok (.jpRm (.postInc 7))

/-- A few words of the spec's own examples decode to what the spec says they are. -/
def Obligations.ExampleWordsDecode : Prop :=
  decodeWords [0x2004] = .ok (.addRRm .b 0 (.reg 1)) ∧
  decodeWords [0xB206] = .ok (.addRmR .p (.ind 1) 2) ∧
  decodeWords [0x78C0, 0x0001] = .ok (.addRmImm .w (.reg 0) 0x000001) ∧
  decodeWords [0x5108] = .ok (.ldRmRm .w (.reg 1) (.reg 2)) ∧
  decodeWords [0x3AA4] = .ok (.orRmR .b (.postInc 1) 2) ∧
  decodeWords [0x0580] = .ok (.sra .b (.reg 0)) ∧
  decodeWords [0xD384] = .ok (.resImm 3 (.reg 1)) ∧
  decodeWords [0xF800, 0x1001] = .ok (.jrL 0x001001) ∧
  decodeWords [0xF812, 0x3456] = .ok (.jpHml 0x123456) ∧
  decodeWords [0xEC02] = .ok (.jrCond .z 2) ∧
  decodeWords [0xFE03] = .ok (.repi 3)

/-- The first words that select no instruction are those of the table of 30_encoding.md R115, whatever follows them. -/
def Obligations.NonexistentFirstWords : Prop :=
  ∀ (w : Word) (ws : List Word),
    (∃ v, decodeWords (w :: ws) = .error (.nonexistent v)) ↔ selectsNothing w

/-- What the decoder gives is well formed and no assembler row (48_macros.md R340); what it calls malformed has an index word
that matches no pattern (30_encoding.md R116); and five words are always enough (R92). -/
def Obligations.DecodedIsWellFormed : Prop :=
  (∀ (ws : List Word) (i : Instr), decodeWords ws = .ok i → i.wellFormed = true ∧ i.isAssemblerRow = false ∧ i.len ≤ 5) ∧
  (∀ (ws : List Word) (i : Instr), decodeWords ws = .error (.malformed i) →
    ∃ m ∈ operandsOf i, m.wellFormed = false) ∧
  (∀ (a b c d e : Word), decodeWords [a, b, c, d, e] ≠ .error .truncated)

/-- No bit of a first word is ignored: the encoding of what was decoded begins with that word (30_encoding.md R93 to R103). -/
def Obligations.FirstWordRecovered : Prop :=
  ∀ (w : Word) (ws : List Word) (i : Instr), decodeWords (w :: ws) = .ok i →
    ∃ rest, encode i = w :: rest ∧ rest.length ≤ ws.length

/-! ### Registers, status register, PGC, conditions -/

/-- R22, the whole rule. -/
def Obligations.RegisterNumbers : Prop :=
  ∀ (s : State) (i : RegNum),
    s.getR .p i = s.getP i ∧
    s.getR .w i = (s.getP i).extractLsb' 0 16 ∧
    (i.toNat < 4 → s.getR .b i = (s.getP i).extractLsb' 0 8) ∧
    (4 ≤ i.toNat → s.getR .b i = (s.getP (i - 4)).extractLsb' 8 8)

/-- A write through a name changes the bits it covers and no others (10_state.md R23; the spec's decision D1). -/
def Obligations.PartialRegisterWrites : Prop :=
  ∀ (s : State) (i : RegNum),
    (∀ v : BitVec 24, (s.setR .p i v).getP i = v) ∧
    (∀ v : BitVec 16, ((s.setR .w i v).getP i).toNat = (s.getP i).toNat / 65536 * 65536 + v.toNat) ∧
    (∀ v : BitVec 8, i.toNat < 4 → ((s.setR .b i v).getP i).toNat = (s.getP i).toNat / 256 * 256 + v.toNat) ∧
    (∀ v : BitVec 8, 4 ≤ i.toNat → ((s.setR .b i v).getP (i - 4)).toNat =
      (s.getP (i - 4)).toNat / 65536 * 65536 + v.toNat * 256 + (s.getP (i - 4)).toNat % 256) ∧
    (∀ (z : Size) (v : BitVec z.bits) (j : RegNum), j ≠ partOf z i → (s.setR z i v).getP j = s.getP j)

/-- The bits of WF (10_state.md R27), and the seven that read as 0 and ignore writes (R28; the spec's decision D2). -/
def Obligations.StatusWordLayout : Prop :=
  ∀ s : State,
    flagsIn (s.wf.extractLsb' 0 8) = s.flags ∧ s.wf.extractLsb' 8 3 = s.irl ∧ s.wf &&& 0xF830 = 0 ∧
    (∀ v : Word, (s.setWf v).wf = v &&& 0x07CF) ∧
    (∀ v : Byte, (s.setF v).wf = (s.wf &&& 0x0700) ||| (v.setWidth 16 &&& 0x00CF))

/-- Bit 0 of PGC (10_state.md R31): every write of PGC clears it, so that every instruction leaves an even PGC, and a jump, call
or return to an odd address continues at the even address one below it, with no exception. The clauses of CALL rm24, JEA and CEA
take the order and the address of log entry 14 (the spec's decisions D26 and D27), the clause of RETI takes its meaning in one
piece, log entry 12. -/
def Obligations.PgcBitZero : Prop :=
  (∀ (s : State) (v : Ptr), (s.setPgc v).pgc = v &&& 0xFFFFFE) ∧
  (∀ (i : Instr) (s t : State), exec i s = .next t → t.pgc.getLsbD 0 = false) ∧
  (∀ (m : Rm) (s : State), m.wellFormed = true → (operand .p (1 + m.ext) m s).getLsbD 0 = true →
    ∃ t u, exec (.jpRm m) s = .next t ∧ t.pgc = operand .p (1 + m.ext) m s - 1 ∧
      exec (.callRm m) s = .next u ∧ u.pgc = operand .p (1 + m.ext) m s - 1) ∧
  (∀ (m : Rm) (s : State) (ea : Ptr), m.wellFormed = true → place .p (1 + m.ext) m s = .mem ea → ea.getLsbD 0 = true →
    ∃ t u, exec (.jea m) s = .next t ∧ t.pgc = ea - 1 ∧ exec (.cea m) s = .next u ∧ u.pgc = ea - 1) ∧
  (∀ s : State, ((s.advance 1).memRead .p (s.getP 7)).getLsbD 0 = true →
    ∃ t, exec .ret s = .next t ∧ t.pgc = (s.advance 1).memRead .p (s.getP 7) - 1) ∧
  (∀ s : State, ((secondPop s).memRead .p (s.getP 7 + 2)).getLsbD 0 = true →
    ∃ t, exec .reti s = .next t ∧ t.pgc = (secondPop s).memRead .p (s.getP 7 + 2) - 1)

/-- The condition codes, when each condition is true, and what stands at codes 14 and 15 (10_state.md R36; that the names are
right after CP is in `CompareResults`). -/
def Obligations.ConditionTable : Prop :=
  (∀ f : Flags,
    (condHolds .le f = true ↔ f.s ≠ f.vp ∨ f.z = true) ∧ (condHolds .gt f = true ↔ f.s = f.vp ∧ f.z = false) ∧
    (condHolds .lt f = true ↔ f.s ≠ f.vp) ∧ (condHolds .ge f = true ↔ f.s = f.vp) ∧
    (condHolds .ule f = true ↔ f.c = true ∨ f.z = true) ∧ (condHolds .ugt f = true ↔ f.c = false ∧ f.z = false) ∧
    (condHolds .c f = true ↔ f.c = true) ∧ (condHolds .nc f = true ↔ f.c = false) ∧
    (condHolds .m f = true ↔ f.s = true) ∧ (condHolds .p f = true ↔ f.s = false) ∧
    (condHolds .ov f = true ↔ f.vp = true) ∧ (condHolds .nov f = true ↔ f.vp = false) ∧
    (condHolds .z f = true ↔ f.z = true) ∧ (condHolds .nz f = true ↔ f.z = false)) ∧
  (List.range 16).map (fun k => Cond.ofCode (BitVec.ofNat 4 k)) =
    [some .le, some .gt, some .lt, some .ge, some .ule, some .ugt, some .c, some .nc, some .m, some .p, some .ov,
      some .nov, some .z, some .nz, none, none] ∧
  (∀ o : BitVec 8, decodeWords [0xEE00 ||| o.setWidth 16] = .ok (.jrS o) ∧
    decodeWords [0xEF00 ||| o.setWidth 16] = .ok (.crS o))

/-! ### Memory -/

/-- The accesses (20_memory.md R62 to R68), for every memory map. In RAM a read gives what was written, at the width written and
at narrower widths; every other byte of memory, and every byte of ROM, is unchanged; bit 0 of the address of a 16-bit or 24-bit
access is ignored (R65); a 24-bit access is the 16-bit one and then the 8-bit one (R68). At an address that is not memory the
access reaches the platform, and a read is answered by a free value. That addresses wrap is the spec's decision D3 (log entry
18); which addresses are memory is the platform's map, and how the platform answers is the model's form (log entries 1 and 20). -/
def Obligations.MemoryAccess : Prop :=
  ∀ (s : State) (a : Ptr), s.mem.wf = true →
    let e := evenAddr a
    e.toNat = a.toNat / 2 * 2 ∧
    -- RAM
    (s.isRam a = true → ∀ v : BitVec 8, (s.memWrite .b a v).memRead .b a = v) ∧
    ((∀ b ∈ [e, e + 1], s.isRam b = true) → ∀ v : BitVec 16,
      (s.memWrite .w a v).memRead .w a = v ∧ (s.memWrite .w a v).memRead .w e = v ∧
      (s.memWrite .w a v).memRead .b e = v.extractLsb' 0 8 ∧
      (s.memWrite .w a v).memRead .b (e + 1) = v.extractLsb' 8 8) ∧
    ((∀ b ∈ [e, e + 1, e + 2], s.isRam b = true) → ∀ v : BitVec 24, let t := s.memWrite .p a v
      t.memRead .p a = v ∧ t.memRead .p e = v ∧ t.memRead .w a = v.extractLsb' 0 16 ∧
      t.memRead .b e = v.extractLsb' 0 8 ∧ t.memRead .b (e + 1) = v.extractLsb' 8 8 ∧
      t.memRead .b (e + 2) = v.extractLsb' 16 8) ∧
    -- the rest of memory
    (∀ (z : Size) (v : BitVec z.bits) (b : Ptr), s.isMemory b = true → b ∉ touched z a ∨ s.kindAt b = .rom →
      (s.memWrite z a v).byteAt b = s.byteAt b) ∧
    (∀ z : Size, (∀ b ∈ touched z a, s.isMemory b = true) → s.didRead z a = s) ∧
    (∀ (z : Size) (v : BitVec z.bits), (∀ b ∈ touched z a, s.isRam b = true) → (s.memWrite z a v).bus = s.bus) ∧
    -- the platform
    (s.isMemory a = false → s.memRead .b a = Config.answer (.read8 a :: s.bus) a ∧
      s.didRead .b a = { s with bus := .read8 a :: s.bus }) ∧
    (s.isMemory e = false ∨ s.isMemory (e + 1) = false → s.didRead .w a = { s with bus := .read16 e :: s.bus } ∧
      (s.isMemory e = false → (s.memRead .w a).extractLsb' 0 8 = Config.answer (.read16 e :: s.bus) e) ∧
      (s.isMemory (e + 1) = false → (s.memRead .w a).extractLsb' 8 8 = Config.answer (.read16 e :: s.bus) (e + 1))) ∧
    (s.isRam a = false → ∀ v : BitVec 8, s.memWrite .b a v = { s with bus := .write8 a v :: s.bus }) ∧
    (s.isRam e = false → s.isRam (e + 1) = false → ∀ v : BitVec 16,
      s.memWrite .w a v = { s with bus := .write16 e v :: s.bus }) ∧
    -- 24 bits
    s.memRead .p a = (s.didRead .w a).memRead .b (e + 2) ++ s.memRead .w a ∧
    s.didRead .p a = (s.didRead .w a).didRead .b (e + 2) ∧
    (∀ v : BitVec 24,
      s.memWrite .p a v = (s.memWrite .w a (v.extractLsb' 0 16)).memWrite .b (e + 2) (v.extractLsb' 16 8))

/-! ### Operands -/

/-- The location of every addressing mode (40_operands.md R142 to R153), with immediates brought to the operand's width (R159,
the spec's decision D8) and PGC-relative addresses from the end of the whole instruction (R151, decision D10: PGC is `Next` in
the state that `locate` is given); and the step of PGC over `k` words (10_state.md R32). -/
def Obligations.OperandLocations : Prop :=
  ∀ (z : Size) (s : State),
    (∀ r, locate z (.reg r) s = .reg r) ∧
    (∀ r d, locate z (.rel r d) s = .mem (s.getP r + d.signExtend 24)) ∧
    (∀ r, locate z (.ind r) s = .mem (s.getP r)) ∧
    (∀ r, locate z (.postInc r) s = .mem (s.getP r)) ∧
    (∀ r, locate z (.preDec r) s = .mem ((autoModify z (.preDec r) s).getP r)) ∧
    (∀ n : BitVec 4, locate z (.short n) s = .imm (BitVec.ofNat z.bits n.toNat)) ∧
    (∀ d : Word, locate z (.imm16 d) s = .imm (BitVec.ofInt z.bits d.toInt)) ∧
    (∀ v : Ptr, locate z (.imm24 v) s = .imm (BitVec.ofNat z.bits v.toNat)) ∧
    (∀ d : Word, locate z (.abs16 d) s = .mem (BitVec.ofInt 24 d.toInt)) ∧
    (∀ v, locate z (.abs24 v) s = .mem v) ∧
    (∀ d : Word, locate z (.pcRel16 d) s = .mem (s.pgc + BitVec.ofInt 24 d.toInt)) ∧
    (∀ v, locate z (.pcRel24 v) s = .mem (s.pgc + v)) ∧
    (∀ b r, locate z (.regIdx b (.byte false r)) s = .mem (s.getP b + BitVec.ofNat 24 (s.getR .b r).toNat) ∧
      locate z (.regIdx b (.byte true r)) s = .mem (s.getP b + BitVec.ofInt 24 (s.getR .b r).toInt) ∧
      locate z (.regIdx b (.word false r)) s = .mem (s.getP b + BitVec.ofNat 24 (s.getR .w r).toNat) ∧
      locate z (.regIdx b (.word true r)) s = .mem (s.getP b + BitVec.ofInt 24 (s.getR .w r).toInt) ∧
      locate z (.regIdx b (.ptr r)) s = .mem (s.getP b + s.getP r)) ∧
    (∀ (h : Ptr) r, locate z (.absIdx h (.byte false r)) s = .mem (h + BitVec.ofNat 24 (s.getR .b r).toNat) ∧
      locate z (.absIdx h (.byte true r)) s = .mem (h + BitVec.ofInt 24 (s.getR .b r).toInt) ∧
      locate z (.absIdx h (.word false r)) s = .mem (h + BitVec.ofNat 24 (s.getR .w r).toNat) ∧
      locate z (.absIdx h (.word true r)) s = .mem (h + BitVec.ofInt 24 (s.getR .w r).toInt) ∧
      locate z (.absIdx h (.ptr r)) s = .mem (h + s.getP r)) ∧
    (∀ k : Nat, s.pgc.getLsbD 0 = false → (s.advance k).pgc = s.pgc + BitVec.ofNat 24 (2 * k))

/-- Auto-modify (40_operands.md R150): the four steps; that the two auto-modify modes apply them to all 24 bits of the base
register; that every instruction with one RM operand steps by the size of that operand, LD at each of its operands, in every
pair of modes and also when both have one base; that the pushes and pops through the base itself come after or before; that LDZX
and LDSX step by their source size; and that LEA, JEA and CEA step by 4. The order of two changes of one register is the spec's
decisions D9 and D26 (log entry 14). -/
def Obligations.AutoModifySteps : Prop :=
  (∀ r : RegNum, r ≠ 7 → stepOf .b r = 1) ∧ stepOf .b 7 = 2 ∧ (∀ r, stepOf .w r = 2) ∧ (∀ r, stepOf .p r = 4) ∧
  (∀ (z : Size) (r : RegNum) (s : State),
    autoModify z (.postInc r) s = s.setP r (s.getP r + stepOf z r) ∧
    autoModify z (.preDec r) s = s.setP r (s.getP r - stepOf z r)) ∧
  (∀ (i : Instr) (b : RegNum) (s t : State), raisesNone i s → b ∉ destination i → exec i s = .next t →
    (operandsOf i = [.postInc b] → t.getP b = s.getP b + stepOf (operandSize i) b) ∧
    (operandsOf i = [.preDec b] → t.getP b = s.getP b - stepOf (operandSize i) b)) ∧
  (∀ (z : Size) (d m : Rm) (b : RegNum) (s t : State), raisesNone (.ldRmRm z d m) s → b ∉ writtenPlace z d →
    exec (.ldRmRm z d m) s = .next t →
    t.getP b = (autoModify z d (autoModify z m s)).getP b ∧
    (b ∉ autoBase d → (m = .postInc b → t.getP b = s.getP b + stepOf z b) ∧
      (m = .preDec b → t.getP b = s.getP b - stepOf z b)) ∧
    (b ∉ autoBase m → (d = .postInc b → t.getP b = s.getP b + stepOf z b) ∧
      (d = .preDec b → t.getP b = s.getP b - stepOf z b))) ∧
  (∀ (z : Size) (r : RegNum) (s t : State),
    (exec (.push z (.postInc 7)) s = .next t → t.getP 7 = s.getP 7 + stepOf z 7 - stackStep z) ∧
    (exec (.push z (.preDec 7)) s = .next t → t.getP 7 = s.getP 7 - stepOf z 7 - stackStep z) ∧
    (exec (.pop z (.postInc 7)) s = .next t → t.getP 7 = s.getP 7 + stackStep z + stepOf z 7) ∧
    (exec (.pop z (.preDec 7)) s = .next t → t.getP 7 = s.getP 7 + stackStep z - stepOf z 7) ∧
    (exec (.callRm (.postInc 7)) s = .next t ∨ exec (.pea (.postInc 7)) s = .next t → t.getP 7 = s.getP 7 + 4 - 4) ∧
    (exec (.callRm (.preDec 7)) s = .next t ∨ exec (.pea (.preDec 7)) s = .next t → t.getP 7 = s.getP 7 - 4 - 4) ∧
    (exec (.leaPre r (.postInc r)) s = .next t → t.getP r = s.getP r + 4 - 4) ∧
    (exec (.leaPre r (.preDec r)) s = .next t → t.getP r = s.getP r - 4 - 4)) ∧
  (∀ (z : Size) (r b : RegNum) (s t : State), r ≠ b →
    (exec (.ldzx z r (.postInc b)) s = .next t ∨ exec (.ldsx z r (.postInc b)) s = .next t →
      t.getP b = s.getP b + stepOf z b) ∧
    (exec (.ldzx z r (.preDec b)) s = .next t ∨ exec (.ldsx z r (.preDec b)) s = .next t →
      t.getP b = s.getP b - stepOf z b)) ∧
  (∀ (r b : RegNum) (s t : State), r ≠ b →
    (exec (.lea r (.postInc b)) s = .next t ∨ exec (.leaPre r (.postInc b)) s = .next t → t.getP b = s.getP b + 4) ∧
    (exec (.lea r (.preDec b)) s = .next t ∨ exec (.leaPre r (.preDec b)) s = .next t → t.getP b = s.getP b - 4)) ∧
  (∀ (b : RegNum) (s t : State),
    (exec (.jea (.postInc b)) s = .next t → t.getP b = s.getP b + 4) ∧
    (exec (.jea (.preDec b)) s = .next t → t.getP b = s.getP b - 4) ∧
    (exec (.cea (.postInc b)) s = .next t → t.getP b = s.getP b + 4 - (if b = 7 then 4 else 0)) ∧
    (exec (.cea (.preDec b)) s = .next t → t.getP b = s.getP b - 4 - (if b = 7 then 4 else 0)))

/-- An index word that matches no pattern makes the instruction take the Illegal Instruction exception before it writes
anything (30_encoding.md R116, 40_operands.md R162, 60_exceptions.md R370; the spec's decisions D12 and D13, log entry 16). For the
copies (LD, PUSH, POP) a malformed destination is met after the source, whose auto-modify stays. -/
def Obligations.MalformedOperandTraps : Prop :=
  (∀ (i : Instr) (m : Rm) (s : State), operandsOf i = [m] → m.wellFormed = false →
    (∀ z d, i ≠ .pop z d) →
    let ret := (s.advance i.len).pgc
    exec i s = .next ((s.advance i.len).trap .illegalInstruction (if s.reprA then s.pgc - 2 else ret))) ∧
  (∀ (z : Size) (d m : Rm) (s : State), m.wellFormed = false →
    let ret := (s.advance (1 + m.ext)).pgc
    exec (.ldRmRm z d m) s = .next ((s.advance (1 + m.ext)).trap .illegalInstruction
      (if s.reprA then s.pgc - 2 else ret))) ∧
  (∀ (z : Size) (d m : Rm) (s : State), m.wellFormed = true → d.wellFormed = false →
    let s1 := copyFetched z d m s
    exec (.ldRmRm z d m) s = .next (s1.trap .illegalInstruction (if s.reprA then s.pgc - 2 else s1.pgc))) ∧
  (∀ (z : Size) (d : Rm) (s : State), d.wellFormed = false →
    let s1 := copyFetched z d (.postInc 7) s
    exec (.pop z d) s = .next (s1.trap .illegalInstruction (if s.reprA then s.pgc - 2 else s1.pgc)))

/-! ### Data transfer -/

/-- LD, PUSH and POP complete with the copy made: the source is read before the words of the destination are fetched and the
destination is resolved (41_data_transfer.md R171, 48_macros.md R341 and R343, 20_memory.md R73, 40_operands.md R160 and R161; the
spec's decision D9, log entry 14). -/
def Obligations.CopyResults : Prop :=
  (∀ (z : Size) (d m : Rm) (s : State), d.wellFormed = true → m.wellFormed = true →
    let s1 := copyFetched z d m s
    exec (.ldRmRm z d m) s = .next (writeOp (locate z d s1) (copyValue z d m s) (autoModify z d s1))) ∧
  (∀ (z : Size) (m : Rm) (s : State), m.wellFormed = true →
    let s1 := accessed z (1 + m.ext) m s
    exec (.push z m) s = .next ((s1.setP 7 (s1.getP 7 - stackStep z)).memWrite z (s1.getP 7 - stackStep z)
      (operand z (1 + m.ext) m s))) ∧
  (∀ (z : Size) (d : Rm) (s : State), d.wellFormed = true →
    let s0 := s.advance 1
    let s1 := ((s0.setP 7 (s.getP 7 + stackStep z)).didRead z (s.getP 7)).advance d.ext
    exec (.pop z d) s = .next (writeOp (locate z d s1) (s0.memRead z (s.getP 7)) (autoModify z d s1)))

/-- Loads and stores of F, WF and IRL complete with each bit in its place (41_data_transfer.md R172 to R175, R179). -/
def Obligations.StatusTransfers : Prop :=
  (∀ (m : Rm) (s : State), m.wellFormed = true →
    exec (.ldFRm m) s = .next ((accessed .b (1 + m.ext) m s).setFlags (flagsIn (operand .b (1 + m.ext) m s))) ∧
    (let v := operand .w (1 + m.ext) m s
     exec (.ldWfRm m) s =
      .next (((accessed .w (1 + m.ext) m s).setFlags (flagsIn (v.extractLsb' 0 8))).setIrl (v.extractLsb' 8 3))) ∧
    (∃ v : Byte, flagsIn v = s.flags ∧ v &&& 0x30 = 0 ∧
      exec (.ldRmF m) s = .next (writeOp (place .b (1 + m.ext) m s) v (resolved .b (1 + m.ext) m s))) ∧
    (∃ v : Word, flagsIn (v.extractLsb' 0 8) = s.flags ∧ v.extractLsb' 8 3 = s.irl ∧ v &&& 0xF830 = 0 ∧
      exec (.ldRmWf m) s = .next (writeOp (place .w (1 + m.ext) m s) v (resolved .w (1 + m.ext) m s)))) ∧
  (∀ (n : BitVec 3) (s : State), exec (.ldIrl n) s = .next ((s.advance 1).setIrl n))

/-- LDZX and LDSX complete with all 24 bits of the register written by the number the source reads as, unsigned or signed
(41_data_transfer.md R180, R181). -/
def Obligations.ExtendResults : Prop :=
  ∀ (z : Size) (r : RegNum) (m : Rm) (s : State), z ≠ .p → m.wellFormed = true →
    let v := operand z (1 + m.ext) m s
    (∃ x : Ptr, x.toNat = v.toNat ∧ exec (.ldzx z r m) s = .next ((accessed z (1 + m.ext) m s).setP r x)) ∧
    (∃ x : Ptr, x.toInt = v.toInt ∧ exec (.ldsx z r m) s = .next ((accessed z (1 + m.ext) m s).setP r x))

/-- R176 and R177, the whole rules: the words of LD.P r24, hml and of LDQ, the values they load, and nothing else changed. -/
def Obligations.ConstantLoads : Prop :=
  (∀ (r : RegNum) (h : Byte) (ml : Word) (s : State),
    decodeWords [BitVec.ofNat 16 (0xC000 + 256 * r.toNat + h.toNat), ml] = .ok (.ldPHml r (h ++ ml)) ∧
    exec (.ldPHml r (h ++ ml)) s = .next ((s.advance 2).setP r (h ++ ml))) ∧
  (∀ (r : RegNum) (n : BitVec 8) (s : State),
    decodeWords [BitVec.ofNat 16 (0xC800 + 256 * r.toNat + n.toNat)] = .ok (.ldq r n) ∧
    exec (.ldq r n) s = .next ((s.advance 1).setP r (BitVec.ofInt 24 n.toInt)))

/-- LEA, LEA @-r24, PEA, JEA and CEA complete with the operand's effective address, which is not accessed (41_data_transfer.md
R182 and R183, 46_control_flow.md R295 and R300; the spec's decision D27 on the auto-modify modes); and of a register or an
immediate, which has no address, with a free value in its place and everything else alike (40_operands.md R158, log entry 10). -/
def Obligations.AddressResults : Prop :=
  ∀ (r : RegNum) (m : Rm) (s s1 : State) (ea : Ptr), m.wellFormed = true →
    (place .p (1 + m.ext) m s = .mem ea ∧ s1 = resolved .p (1 + m.ext) m s ∨
      (∀ a, place .p (1 + m.ext) m s ≠ .mem a) ∧ ea = Config.eaOfNonMemory s.freeCount ∧
        s1 = (resolved .p (1 + m.ext) m s).drawn) →
    exec (.lea r m) s = .next (s1.setP r ea) ∧
    exec (.leaPre r m) s = .next ((s1.setP r (s1.getP r - 4)).memWrite .p (s1.getP r - 4) ea) ∧
    exec (.pea m) s = .next ((s1.setP 7 (s1.getP 7 - 4)).memWrite .p (s1.getP 7 - 4) ea) ∧
    exec (.jea m) s = .next (s1.setPgc ea) ∧
    exec (.cea m) s = .next (callNext ea s1)

/-- SWAP completes with the nibbles, the bytes, or the outer bytes exchanged, and no flag written (41_data_transfer.md R184 to
R186). -/
def Obligations.SwapResults : Prop :=
  ∀ (m : Rm) (s : State), m.wellFormed = true →
    (∃ v : Byte, v.toNat = (operand .b (1 + m.ext) m s).toNat % 16 * 16 + (operand .b (1 + m.ext) m s).toNat / 16 ∧
      exec (.swapB m) s = .next (writeOp (z := .b) (place .b (1 + m.ext) m s) v (accessed .b (1 + m.ext) m s))) ∧
    (∃ v : Word, v.toNat = (operand .w (1 + m.ext) m s).toNat % 256 * 256 + (operand .w (1 + m.ext) m s).toNat / 256 ∧
      exec (.swapW m) s = .next (writeOp (z := .w) (place .w (1 + m.ext) m s) v (accessed .w (1 + m.ext) m s))) ∧
    (∃ v : Ptr, v.toNat = (operand .p (1 + m.ext) m s).toNat % 256 * 65536 +
        (operand .p (1 + m.ext) m s).toNat / 256 % 256 * 256 + (operand .p (1 + m.ext) m s).toNat / 65536 ∧
      exec (.swapP m) s = .next (writeOp (z := .p) (place .p (1 + m.ext) m s) v (accessed .p (1 + m.ext) m s)))

/-! ### Arithmetic -/

/-- The two cores: result, carry or borrow, and signed overflow by the range of the exact value (42_arithmetic.md R202, R203);
and what the spec derives from them: the other forms of C and VP, and laws 1 and 2 of R237. -/
def Obligations.AddSubCores : Prop :=
  ∀ (z : Size) (a b : BitVec z.bits) (c : Bool),
    (let r := addCore a b c
     r.res.toNat + 2 ^ z.bits * r.c.toNat = a.toNat + b.toNat + c.toNat ∧
     (r.v = true ↔ a.toInt + b.toInt + c.toNat < -(2 ^ (z.bits - 1)) ∨ 2 ^ (z.bits - 1) ≤ a.toInt + b.toInt + c.toNat) ∧
     (r.v = true ↔ a.msb = b.msb ∧ r.res.msb ≠ a.msb)) ∧
    (let r := subCore a b c
     (a.toNat : Int) - b.toNat - c.toNat = r.res.toNat - 2 ^ z.bits * (r.c.toNat : Int) ∧
     (r.c = true ↔ a.toNat < b.toNat + c.toNat) ∧
     (r.v = true ↔ a.toInt - b.toInt - c.toNat < -(2 ^ (z.bits - 1)) ∨ 2 ^ (z.bits - 1) ≤ a.toInt - b.toInt - c.toNat) ∧
     (r.v = true ↔ a.msb ≠ b.msb ∧ r.res.msb ≠ a.msb))

/-- ADD and ADX complete with the binary sum, at `.W` and `.P` always and at `.B` outside Decimal Mode, in every form
(42_arithmetic.md R205 to R210). That Z of ADX looks at this sum alone is the spec's decision D30 (R201, log entry 19). -/
def Obligations.AddResults : Prop :=
  ∀ (z : Size) (r : RegNum) (m : Rm) (imm : Ptr) (s : State), m.wellFormed = true → (z = .b → s.flags.d = false) →
    exec (.addRRm z r m) s = .next (registerNext z r m s (sum false)) ∧
    exec (.adxRRm z r m) s = .next (registerNext z r m s (sum s.flags.x)) ∧
    exec (.addRmR z m r) s = .next (operandNext z (1 + m.ext) m s fun a s1 => sum false a (s1.getR z r) s1) ∧
    exec (.adxRmR z m r) s = .next (operandNext z (1 + m.ext) m s fun a s1 => sum s.flags.x a (s1.getR z r) s1) ∧
    exec (.addRmImm z m imm) s = .next (operandNext z (1 + z.immWords + m.ext) m s fun a s1 =>
      sum false a (imm.setWidth z.bits) s1) ∧
    exec (.adxRmImm z m imm) s = .next (operandNext z (1 + z.immWords + m.ext) m s fun a s1 =>
      sum s.flags.x a (imm.setWidth z.bits) s1)

/-- SUB and SBX complete with the binary difference, as `AddResults` says of the sum (42_arithmetic.md R212 to R217). That Z of SBX
looks at this difference alone is the spec's decision D30 (R201, log entry 19). -/
def Obligations.SubResults : Prop :=
  ∀ (z : Size) (r : RegNum) (m : Rm) (imm : Ptr) (s : State), m.wellFormed = true → (z = .b → s.flags.d = false) →
    exec (.subRRm z r m) s = .next (registerNext z r m s (diff false)) ∧
    exec (.sbxRRm z r m) s = .next (registerNext z r m s (diff s.flags.x)) ∧
    exec (.subRmR z m r) s = .next (operandNext z (1 + m.ext) m s fun a s1 => diff false a (s1.getR z r) s1) ∧
    exec (.sbxRmR z m r) s = .next (operandNext z (1 + m.ext) m s fun a s1 => diff s.flags.x a (s1.getR z r) s1) ∧
    exec (.subRmImm z m imm) s = .next (operandNext z (1 + z.immWords + m.ext) m s fun a s1 =>
      diff false a (imm.setWidth z.bits) s1) ∧
    exec (.sbxRmImm z m imm) s = .next (operandNext z (1 + z.immWords + m.ext) m s fun a s1 =>
      diff s.flags.x a (imm.setWidth z.bits) s1)

/-- NEG and NGX complete with the binary negation: C and X tell whether anything was subtracted, VP whether the most negative
number was negated (42_arithmetic.md R219, R220). That Z of NGX looks at this difference alone is the spec's decision D30 (R201,
log entry 19). -/
def Obligations.NegResults : Prop :=
  ∀ (z : Size) (m : Rm) (s : State), m.wellFormed = true → (z = .b → s.flags.d = false) →
    exec (.neg z m) s = .next (operandNext z (1 + m.ext) m s fun a s1 =>
      let f := s.flags
      (-a, s1.setFlags { f with s := (-a).msb, z := decide (a = 0), c := decide (a ≠ 0), x := decide (a ≠ 0)
                                vp := decide (a.toNat = 2 ^ (z.bits - 1)) })) ∧
    exec (.ngx z m) s = .next (operandNext z (1 + m.ext) m s fun a s1 =>
      let f := s.flags
      let res := -a - carryIn z.bits f.x
      let c := decide (a ≠ 0) || f.x
      (res, s1.setFlags { f with s := res.msb, z := decide (res = 0), c := c, x := c, vp := a.msb && res.msb }))

/-- ADQ and SBQ complete with 1 to 8 added or subtracted, always in binary, with X not written (42_arithmetic.md R211, R218). -/
def Obligations.QuickResults : Prop :=
  ∀ (z : Size) (n : BitVec 3) (m : Rm) (s : State), m.wellFormed = true →
    let k := BitVec.ofNat z.bits (n.toNat + 1)
    exec (.adq z n m) s = .next (operandNext z (1 + m.ext) m s fun a s1 =>
      (a + k, s1.setFlags (sumFlags a k false s.flags))) ∧
    exec (.sbq z n m) s = .next (operandNext z (1 + m.ext) m s fun a s1 =>
      (a - k, s1.setFlags (diffFlags a k false s.flags)))

/-- CP completes with the flags of the difference and nothing else changed, always in binary (42_arithmetic.md R235, R236); and
after it the conditions compare its operands, as unsigned and as signed numbers (10_state.md R36, 42_arithmetic.md R237 law 9:
inferences of the spec). -/
def Obligations.CompareResults : Prop :=
  ∀ (z : Size) (r : RegNum) (m : Rm) (imm : Ptr) (s : State), m.wellFormed = true →
    (let s1 := accessed z (1 + m.ext) m s
     exec (.cpRRm z r m) s =
      .next (s1.setFlags (diffFlags (s1.getR z r) (operand z (1 + m.ext) m s) false s.flags))) ∧
    (let k := 1 + z.immWords + m.ext
     exec (.cpRmImm z m imm) s =
      .next ((accessed z k m s).setFlags (diffFlags (operand z k m s) (imm.setWidth z.bits) false s.flags))) ∧
    (∀ t, exec (.cpRRm z r m) s = .next t →
      let a := (accessed z (1 + m.ext) m s).getR z r
      let b := operand z (1 + m.ext) m s
      (condHolds .z t.flags = true ↔ a = b) ∧ (condHolds .nz t.flags = true ↔ a ≠ b) ∧
      (condHolds .c t.flags = true ↔ a.toNat < b.toNat) ∧ (condHolds .nc t.flags = true ↔ b.toNat ≤ a.toNat) ∧
      (condHolds .ule t.flags = true ↔ a.toNat ≤ b.toNat) ∧ (condHolds .ugt t.flags = true ↔ b.toNat < a.toNat) ∧
      (condHolds .lt t.flags = true ↔ a.toInt < b.toInt) ∧ (condHolds .ge t.flags = true ↔ b.toInt ≤ a.toInt) ∧
      (condHolds .le t.flags = true ↔ a.toInt ≤ b.toInt) ∧ (condHolds .gt t.flags = true ↔ b.toInt < a.toInt))

/-- In Decimal Mode the byte forms of the six instructions that read D complete with the decimal result where both bytes are
two decimal digits, and VP is a free value; where one is not, the byte and the five flags are free values (42_arithmetic.md R204,
the spec's decisions D17 on the digits and D30 on Z of ADX, SBX and NGX, log entry 19; log entries 6 and 7). The instructions are
given as pairs of an instruction and its next state. -/
def Obligations.DecimalResults : Prop :=
  ∀ (r : RegNum) (m : Rm) (imm : Ptr) (s : State), m.wellFormed = true → s.flags.d = true →
    let k := 1 + m.ext
    let s1 := accessed .b k m s
    let b := operand .b k m s
    let a : Byte := s1.getR .b r
    let bi := operand .b (2 + m.ext) m s
    let i : Byte := imm.setWidth 8
    (twoDigits a ∧ twoDigits b →
      exec (.addRRm .b r m) s = .next (registerNext .b r m s (decimalSum false)) ∧
      exec (.adxRRm .b r m) s = .next (registerNext .b r m s (decimalSum s.flags.x)) ∧
      exec (.subRRm .b r m) s = .next (registerNext .b r m s (decimalDiff false)) ∧
      exec (.sbxRRm .b r m) s = .next (registerNext .b r m s (decimalDiff s.flags.x)) ∧
      exec (.addRmR .b m r) s = .next (operandNext .b k m s fun v t => decimalSum false v a t) ∧
      exec (.adxRmR .b m r) s = .next (operandNext .b k m s fun v t => decimalSum s.flags.x v a t) ∧
      exec (.subRmR .b m r) s = .next (operandNext .b k m s fun v t => decimalDiff false v a t) ∧
      exec (.sbxRmR .b m r) s = .next (operandNext .b k m s fun v t => decimalDiff s.flags.x v a t)) ∧
    (¬ (twoDigits a ∧ twoDigits b) →
      (∀ j ∈ [Instr.addRRm .b r m, .adxRRm .b r m, .subRRm .b r m, .sbxRRm .b r m],
        exec j s = .next (registerNext .b r m s fun _ _ t => notDigits t)) ∧
      (∀ j ∈ [Instr.addRmR .b m r, .adxRmR .b m r, .subRmR .b m r, .sbxRmR .b m r],
        exec j s = .next (operandNext .b k m s fun _ t => notDigits t))) ∧
    (twoDigits bi ∧ twoDigits i →
      exec (.addRmImm .b m imm) s = .next (operandNext .b (2 + m.ext) m s fun v t => decimalSum false v i t) ∧
      exec (.adxRmImm .b m imm) s = .next (operandNext .b (2 + m.ext) m s fun v t => decimalSum s.flags.x v i t) ∧
      exec (.subRmImm .b m imm) s = .next (operandNext .b (2 + m.ext) m s fun v t => decimalDiff false v i t) ∧
      exec (.sbxRmImm .b m imm) s = .next (operandNext .b (2 + m.ext) m s fun v t => decimalDiff s.flags.x v i t)) ∧
    (¬ (twoDigits bi ∧ twoDigits i) →
      ∀ j ∈ [Instr.addRmImm .b m imm, .adxRmImm .b m imm, .subRmImm .b m imm, .sbxRmImm .b m imm],
        exec j s = .next (operandNext .b (2 + m.ext) m s fun _ t => notDigits t)) ∧
    (twoDigits b →
      exec (.neg .b m) s = .next (operandNext .b k m s fun v t => decimalDiff false 0 v t) ∧
      exec (.ngx .b m) s = .next (operandNext .b k m s fun v t => decimalDiff s.flags.x 0 v t)) ∧
    (¬ twoDigits b →
      ∀ j ∈ [Instr.neg .b m, .ngx .b m], exec j s = .next (operandNext .b k m s fun _ t => notDigits t))

/-- MULU and MULS complete with the double-width product, R0 the upper half and the register the lower; S is its top bit
(42_arithmetic.md R221, R222; for MULU the spec's decision D30). -/
def Obligations.MulResults : Prop :=
  ∀ (z : Size) (r : RegNum) (m : Rm) (s : State), r ≠ 0 → m.wellFormed = true →
    let s1 := accessed z (1 + m.ext) m s
    let a := s1.getR z r
    let b := operand z (1 + m.ext) m s
    let f := s.flags
    (∃ hi lo : BitVec z.bits, hi.toNat * 2 ^ z.bits + lo.toNat = a.toNat * b.toNat ∧
      exec (.mulu z r m) s = .next (((s1.setR z 0 hi).setR z r lo).setFlags
        { f with s := hi.msb, z := decide (a = 0 ∨ b = 0), c := false, vp := false })) ∧
    (∃ hi lo : BitVec z.bits, (hi ++ lo).toInt = a.toInt * b.toInt ∧
      exec (.muls z r m) s = .next (((s1.setR z 0 hi).setR z r lo).setFlags
        { f with s := hi.msb, z := decide (a = 0 ∨ b = 0), c := false, vp := false }))

/-- DIVU completes with the quotient and the remainder of the double-width dividend when the quotient fits, which is when R0 is
less than the divisor; S is the stored quotient's top bit (42_arithmetic.md R232; the spec's decision D30). -/
def Obligations.DivuResults : Prop :=
  ∀ (z : Size) (r : RegNum) (m : Rm) (s : State), r ≠ 0 → m.wellFormed = true →
    let s1 := accessed z (1 + m.ext) m s
    let d := operand z (1 + m.ext) m s
    let f := s.flags
    (s1.getR z 0).toNat < d.toNat →
    ∃ q rem : BitVec z.bits,
      q.toNat * d.toNat + rem.toNat = (s1.getR z 0).toNat * 2 ^ z.bits + (s1.getR z r).toNat ∧ rem.toNat < d.toNat ∧
      exec (.divu z r m) s = .next (((s1.setR z r q).setR z 0 rem).setFlags
        { f with s := q.msb, z := decide (q = 0), c := false, vp := false })

/-- DIVS completes with the quotient rounded toward zero, and the remainder with the dividend's sign, when the quotient fits
(42_arithmetic.md R234). The rounding is the spec's choice D15, kept as a constant of Config (log entry 9). -/
def Obligations.DivsResults : Prop :=
  ∀ (z : Size) (r : RegNum) (m : Rm) (s : State), r ≠ 0 → m.wellFormed = true →
    let s1 := accessed z (1 + m.ext) m s
    let d := operand z (1 + m.ext) m s
    let n := (s1.getR z 0 ++ s1.getR z r).toInt
    let f := s.flags
    d ≠ 0 → -(2 ^ (z.bits - 1)) ≤ n.tdiv d.toInt → n.tdiv d.toInt < 2 ^ (z.bits - 1) →
    ∃ q rem : BitVec z.bits,
      q.toInt * d.toInt + rem.toInt = n ∧ rem.toInt.natAbs < d.toInt.natAbs ∧
      (rem = 0 ∨ (rem.toInt < 0 ↔ n < 0)) ∧
      exec (.divs z r m) s = .next (((s1.setR z r q).setR z 0 rem).setFlags
        { f with s := decide (q.toInt < 0), z := decide (q = 0), c := false, vp := false })

/-- A divide whose quotient does not fit completes with VP set and C cleared; the register, R0, S and Z are free values that
depend on the operands alone (42_arithmetic.md R233, log entry 8). -/
def Obligations.DivOverflowResults : Prop :=
  ∀ (z : Size) (r : RegNum) (m : Rm) (s : State), r ≠ 0 → m.wellFormed = true →
    let s1 := accessed z (1 + m.ext) m s
    let d := operand z (1 + m.ext) m s
    let n := s1.getR z 0 ++ s1.getR z r
    let f := s.flags
    let stored := fun v : DivOverflow => ((s1.setR z r (v.quot.setWidth z.bits)).setR z 0 (v.rem.setWidth z.bits)).setFlags
      { f with s := v.s, z := v.z, c := false, vp := true }
    (d ≠ 0 → d.toNat ≤ (s1.getR z 0).toNat →
      exec (.divu z r m) s = .next (stored (Config.divOverflow z false n.toNat d.toNat))) ∧
    (d ≠ 0 → (n.toInt.tdiv d.toInt < -(2 ^ (z.bits - 1)) ∨ 2 ^ (z.bits - 1) ≤ n.toInt.tdiv d.toInt) →
      exec (.divs z r m) s = .next (stored (Config.divOverflow z true n.toNat d.toNat)))

/-- A divide by zero takes its exception with the next instruction as return address, and writes no register and no flag; the
auto-modify of its operand stays (42_arithmetic.md R230, 60_exceptions.md R364; the spec's decisions D13 and D14). -/
def Obligations.DivideByZeroTraps : Prop :=
  ∀ (z : Size) (r : RegNum) (m : Rm) (s : State), m.wellFormed = true → operand z (1 + m.ext) m s = 0 →
    ∀ i ∈ [Instr.divu z r m, .divs z r m],
      let s1 := accessed z (1 + m.ext) m s
      exec i s = .next (s1.trap .divideByZero (if s.reprA then s.pgc - 2 else s1.pgc)) ∧
      ∀ t, exec i s = .next t →
        t.flags = s.flags ∧ t.irl = s.irl ∧ (∀ j, j ≠ 7 → t.getP j = s1.getP j) ∧ t.pgc = 0xFFCFD0

/-- A multiply and then a divide by the same number, which is not 0, gives the register back and leaves R0 at 0 (42_arithmetic.md
R237 law 6, an inference of the spec). `q` names a register that neither of the two names a part of. -/
def Obligations.MulThenDivRestores : Prop :=
  ∀ (z : Size) (r q : RegNum) (s t : State), r ≠ 0 → q ≠ 0 → q ≠ r → s.getR z q ≠ 0 →
    exec (.mulu z r (.reg q)) s = .next t →
    ∃ u, exec (.divu z r (.reg q)) t = .next u ∧ u.getR z r = s.getR z r ∧ u.getR z 0 = 0 ∧ u.flags.vp = false

/-- ADD on the low halves and then ADX on the high halves adds two double-width numbers, and C and X are the carry out of the
whole (42_arithmetic.md R237 law 4, an inference of the spec). -/
def Obligations.AddAdxChain : Prop :=
  ∀ (z : Size) (lo hi lo' hi' : RegNum) (s t u : State), (z = .b → s.flags.d = false) →
    hi ≠ lo → hi' ≠ lo →
    exec (.addRRm z lo (.reg lo')) s = .next t → exec (.adxRRm z hi (.reg hi')) t = .next u →
    (u.getR z hi ++ u.getR z lo) = (s.getR z hi ++ s.getR z lo) + (s.getR z hi' ++ s.getR z lo') ∧
    u.flags.x = u.flags.c ∧
    (u.flags.c = true ↔
      2 ^ (2 * z.bits) ≤ (s.getR z hi ++ s.getR z lo).toNat + (s.getR z hi' ++ s.getR z lo').toNat)

/-! ### Logic, shifts, bits -/

/-- AND, XOR, OR, CPL and TST complete with the bitwise result, S and Z of it, C cleared and VP its parity
(43_logic.md R241 to R249, R253, R254). -/
def Obligations.LogicResults : Prop :=
  ∀ (z : Size) (r : RegNum) (m : Rm) (imm : Ptr) (s : State), m.wellFormed = true →
    (∀ j ∈ [(Instr.andRRm z r m, fun a b : BitVec z.bits => a &&& b), (.xorRRm z r m, fun a b => a ^^^ b),
        (.orRRm z r m, fun a b => a ||| b)],
      exec j.1 s = .next (registerNext z r m s fun a b s1 => logicNext (j.2 a b) s1)) ∧
    (∀ j ∈ [(Instr.andRmR z m r, fun a b : BitVec z.bits => a &&& b), (.xorRmR z m r, fun a b => a ^^^ b),
        (.orRmR z m r, fun a b => a ||| b)],
      exec j.1 s = .next (operandNext z (1 + m.ext) m s fun a s1 => logicNext (j.2 a (s1.getR z r)) s1)) ∧
    (∀ j ∈ [(Instr.andRmImm z m imm, fun a b : BitVec z.bits => a &&& b), (.xorRmImm z m imm, fun a b => a ^^^ b),
        (.orRmImm z m imm, fun a b => a ||| b)],
      exec j.1 s = .next (operandNext z (1 + z.immWords + m.ext) m s fun a s1 =>
        logicNext (j.2 a (imm.setWidth z.bits)) s1)) ∧
    exec (.cpl z m) s = .next (operandNext z (1 + m.ext) m s fun a s1 => logicNext (~~~a) s1) ∧
    (let s1 := accessed z (1 + m.ext) m s
     exec (.tst z m) s = .next (logicNext (operand z (1 + m.ext) m s &&& s1.getR z 0) s1).2)

/-- R178, R250 to R252 and R344 to R348, the whole rules: the words of the four operations on F and of the five macros, which
are the words of the operations they stand for; that each completes with F as a whole the result, and IRL not changed. -/
def Obligations.FlagByteWrites : Prop :=
  ∀ (n : Byte) (s : State),
    let f := s.flags
    let t := s.advance 1
    exec (.andF n) s = .next (t.setFlags ⟨f.s && n.getLsbD 7, f.z && n.getLsbD 6, f.c && n.getLsbD 3, f.vp && n.getLsbD 2,
      f.d && n.getLsbD 1, f.x && n.getLsbD 0⟩) ∧
    exec (.xorF n) s = .next (t.setFlags ⟨f.s != n.getLsbD 7, f.z != n.getLsbD 6, f.c != n.getLsbD 3, f.vp != n.getLsbD 2,
      f.d != n.getLsbD 1, f.x != n.getLsbD 0⟩) ∧
    exec (.orF n) s = .next (t.setFlags ⟨f.s || n.getLsbD 7, f.z || n.getLsbD 6, f.c || n.getLsbD 3, f.vp || n.getLsbD 2,
      f.d || n.getLsbD 1, f.x || n.getLsbD 0⟩) ∧
    exec (.ldFImm n) s = .next (t.setFlags (flagsIn n)) ∧
    exec .rxf s = .next (t.setFlags { f with x := false }) ∧
    exec .sxf s = .next (t.setFlags { f with x := true }) ∧
    exec .cxf s = .next (t.setFlags { f with x := !f.x }) ∧
    exec .ddm s = .next (t.setFlags { f with d := false }) ∧
    exec .edm s = .next (t.setFlags { f with d := true }) ∧
    decodeWords [0xDC00 ||| n.setWidth 16] = .ok (.andF n) ∧ decodeWords [0xDD00 ||| n.setWidth 16] = .ok (.xorF n) ∧
    decodeWords [0xDE00 ||| n.setWidth 16] = .ok (.orF n) ∧ decodeWords [0xDF00 ||| n.setWidth 16] = .ok (.ldFImm n) ∧
    encode .rxf = [0xDCFE] ∧ encode (.andF 0xFE) = [0xDCFE] ∧ encode .sxf = [0xDE01] ∧ encode (.orF 0x01) = [0xDE01] ∧
    encode .cxf = [0xDD01] ∧ encode (.xorF 0x01) = [0xDD01] ∧ encode .ddm = [0xDCFD] ∧ encode (.andF 0xFD) = [0xDCFD] ∧
    encode .edm = [0xDE02] ∧ encode (.orF 0x02) = [0xDE02]

/-- The seven shifts and rotates complete with the operand moved by one bit position, the bit shifted out in C and X, and VP set
when the top bit changed; SRA clears VP (44_shift.md R261 to R267). -/
def Obligations.ShiftResults : Prop :=
  ∀ (z : Size) (m : Rm) (s : State), m.wellFormed = true →
    let x := s.flags.x
    exec (.sla z m) s = .next (operandNext z (1 + m.ext) m s fun a s1 =>
      shiftNext (BitVec.ofNat z.bits (2 * a.toNat)) a.msb (topBitsDiffer a) s1) ∧
    exec (.sra z m) s = .next (operandNext z (1 + m.ext) m s fun a s1 =>
      shiftNext (a.sshiftRight 1) (a.getLsbD 0) false s1) ∧
    exec (.srl z m) s = .next (operandNext z (1 + m.ext) m s fun a s1 =>
      shiftNext (a >>> 1) (a.getLsbD 0) a.msb s1) ∧
    exec (.rl z m) s = .next (operandNext z (1 + m.ext) m s fun a s1 =>
      shiftNext (BitVec.ofNat z.bits (2 * a.toNat + x.toNat)) a.msb (topBitsDiffer a) s1) ∧
    exec (.rr z m) s = .next (operandNext z (1 + m.ext) m s fun a s1 =>
      shiftNext (BitVec.ofNat z.bits (x.toNat * 2 ^ (z.bits - 1) + a.toNat / 2)) (a.getLsbD 0) (x != a.msb) s1) ∧
    exec (.rlc z m) s = .next (operandNext z (1 + m.ext) m s fun a s1 =>
      shiftNext (a.rotateLeft 1) a.msb (topBitsDiffer a) s1) ∧
    exec (.rrc z m) s = .next (operandNext z (1 + m.ext) m s fun a s1 =>
      shiftNext (a.rotateRight 1) (a.getLsbD 0) (a.getLsbD 0 != a.msb) s1)

/-- The bit instructions complete with Z the inverse of the bit as it was, no other flag written, and that one bit changed; the
bit number is in the instruction or in the low three bits of M0 (45_bit.md R281 to R288). -/
def Obligations.BitResults : Prop :=
  ∀ (k : BitVec 3) (m : Rm) (s : State), m.wellFormed = true →
    let s1 := accessed .b (1 + m.ext) m s
    let a := operand .b (1 + m.ext) m s
    let l := place .b (1 + m.ext) m s
    let done := fun (i : Instr) (k : BitVec 3) (b : Bool) =>
      ∃ v : Byte, bitReplaced a v k b ∧ exec i s = .next (writeOp (z := .b) l v (bitTested a k s1))
    (exec (.bitImm k m) s = .next (bitTested a k s1) ∧
      done (.chgImm k m) k (!a.getLsbD k.toNat) ∧ done (.resImm k m) k false ∧ done (.setImm k m) k true) ∧
    (let k0 := (s1.getR .b 4).extractLsb' 0 3
     exec (.bitM0 m) s = .next (bitTested a k0 s1) ∧
      done (.chgM0 m) k0 (!a.getLsbD k0.toNat) ∧ done (.resM0 m) k0 false ∧ done (.setM0 m) k0 true)

/-! ### Control flow -/

/-- The jumps complete with the target in PGC and, but for an operand's auto-modify, nothing else changed; a conditional jump
falls through when its condition is false (46_control_flow.md R290 to R294, R301, 48_macros.md R349, R350; the offset of JR.L is
the spec's decision D11, log entry 17). RETI is stated as its two instructions without the boundary between them (log entry 12). -/
def Obligations.JumpResults : Prop :=
  (∀ (cc : Cond) (o : BitVec 8) (s : State),
    let n := s.advance 1
    exec (.jrCond cc o) s =
      .next (if condHolds cc s.flags then n.setPgc (n.pgc + BitVec.ofInt 24 (2 * o.toInt)) else n) ∧
    exec (.jrS o) s = .next (n.setPgc (n.pgc + BitVec.ofInt 24 (2 * o.toInt)))) ∧
  (∀ (v : Ptr) (s : State),
    exec (.jrL v) s = .next ((s.advance 2).setPgc ((s.advance 2).pgc + (v - 1))) ∧
    exec (.jpHml v) s = .next ((s.advance 2).setPgc v)) ∧
  (∀ (m : Rm) (s : State), m.wellFormed = true →
    exec (.jpRm m) s = .next ((accessed .p (1 + m.ext) m s).setPgc (operand .p (1 + m.ext) m s))) ∧
  (∀ s : State,
    let n := s.advance 1
    exec .ret s =
      .next (((n.setP 7 (s.getP 7 + 4)).didRead .p (s.getP 7)).setPgc (n.memRead .p (s.getP 7))) ∧
    ∃ t, exec .reti s = .next t ∧ t.wf = n.memRead .w (s.getP 7) &&& 0x07CF ∧
      t.pgc = (secondPop s).memRead .p (s.getP 7 + 2) &&& 0xFFFFFE ∧ t.getP 7 = s.getP 7 + 6 ∧
      (∀ j, j ≠ 7 → t.getP j = s.getP j) ∧ t.mem = s.mem ∧ t.bus = ((secondPop s).didRead .p (s.getP 7 + 2)).bus)

/-- The calls complete with `Next` pushed and the target in PGC; an operand is evaluated before the push (46_control_flow.md R296
to R299, R302, R308; the spec's decisions D11, log entry 17, and D26). -/
def Obligations.CallResults : Prop :=
  (∀ (o : BitVec 8) (s : State),
    exec (.crS o) s = .next (callNext ((s.advance 1).pgc + BitVec.ofInt 24 (2 * o.toInt)) (s.advance 1))) ∧
  (∀ (v : Ptr) (s : State),
    exec (.crL v) s = .next (callNext ((s.advance 2).pgc + (v - 1)) (s.advance 2)) ∧
    exec (.callHml v) s = .next (callNext v (s.advance 2))) ∧
  (∀ (m : Rm) (s : State), m.wellFormed = true →
    exec (.callRm m) s = .next (callNext (operand .p (1 + m.ext) m s) (accessed .p (1 + m.ext) m s))) ∧
  (∀ (n : Byte) (s : State), exec (.rst n) s = .next (callNext (0xFFD000 + 16 * n.setWidth 24) (s.advance 1)))

/-- RET after any call comes back to the instruction after the call, with SP, every other register, the flags and IRL as they
were when the call pushed (46_control_flow.md R303), if the stack cell it pushes to is RAM: of memory only the three pushed bytes
differ. What the platform has seen may differ too, when code is not in memory. -/
def Obligations.CallThenReturn : Prop :=
  ∀ (i : Instr) (s b t : State), s.mem.wf = true → (∀ m ∈ operandsOf i, m.wellFormed = true) → callBase i s = some b →
    (∀ a ∈ touched .p (b.getP 7 - 4), s.isRam a = true) → exec i s = .next t →
    ∃ u, exec .ret t = .next u ∧ u = { b with mem := u.mem, freeCount := u.freeCount, bus := u.bus } ∧
      ∀ a, s.isMemory a = true → a ∉ touched .p (b.getP 7 - 4) → u.byteAt a = s.byteAt a

/-- DJNZ completes with the register one lower, and jumps back unless that is 0; no flag is written (46_control_flow.md R309). -/
def Obligations.DjnzResult : Prop :=
  ∀ (r : RegNum) (o : BitVec 7) (s : State),
    exec (.djnz r o) s = .next (
      let t := (s.advance 1).setP r (s.getP r - 1)
      if s.getP r = 1 then t else t.setPgc (t.pgc + BitVec.ofInt 24 (2 * ((o.toNat : Int) - 128))))

/-! ### Miscellaneous instructions and repeats -/

/-- NOP, HALT, REPI and REPR complete with what their rules say and nothing else, and ILG takes the Illegal Instruction exception,
which is its own effect (47_misc.md R320 to R324; the repeat bits are the spec's decision D4). -/
def Obligations.MiscResults : Prop :=
  ∀ s : State,
    let n := s.advance 1
    let f := s.flags
    exec .nop s = .next n ∧
    exec .halt s = .next { n with halted := true } ∧
    (∀ k : BitVec 5, exec (.repi k) s = .next { n with repiA := true, repiN := k }) ∧
    (∀ r : RegNum, exec (.repr r) s = .next { n with flags := { f with z := false }, reprA := true, reprR := r }) ∧
    exec .ilg s = .next (n.trap .illegalInstruction (if s.reprA then s.pgc - 2 else n.pgc))

/-- After an instruction that is no repeat prefix the step applies the repeat rule to the state the instruction leaves: REPI
counts executions, REPR counts its register down and ends on 0 or on Z (47_misc.md R325; the spec's decisions D4 and D18). -/
def Obligations.RepeatRuleSteps : Prop :=
  ∀ (i : Instr) (s u : State), fetchesNext s → s.pgc.getLsbD 0 = false → decode s.fetchBytes = .ok i →
    notRepeatable i = false → exec i s.pastBoundary = .next u →
    (u.repiA = true → u.repiN ≠ 0 → step s = .next { u with repiN := u.repiN - 1, pgc := s.pgc }) ∧
    (u.repiA = true → u.repiN = 0 → step s = .next { u with repiA := false }) ∧
    (u.repiA = false → u.reprA = true → u.getP u.reprR ≠ 1 → u.flags.z = false →
      step s = .next { u.setP u.reprR (u.getP u.reprR - 1) with pgc := s.pgc }) ∧
    (u.repiA = false → u.reprA = true → u.getP u.reprR = 1 ∨ u.flags.z = true →
      step s = .next { u.setP u.reprR (u.getP u.reprR - 1) with reprA := false }) ∧
    (u.repiA = false → u.reprA = false → step s = .next u)

/-- A step ends in no fault, and it is refused exactly when a repeat in progress meets another REPI or REPR, an instruction that
writes PGC, or HALT, which 47_misc.md R326 has the model refuse (log entry 11). -/
def Obligations.StepStopsOnlyOnMisuse : Prop :=
  (∀ (s : State) (e : Fault), step s ≠ .fault e) ∧
  (∀ (s : State) (e : Refusal), step s = .refused e ↔
    e = .repeatMisuse ∧ fetchesNext s ∧ (s.repiA = true ∨ s.reprA = true) ∧
      ∃ i, decode s.fetchBytes = .ok i ∧ notRepeatable i = true) ∧
  (∀ i : Instr, notRepeatable i = true ↔
    i = .halt ∨ (∃ n, i = .repi n) ∨ (∃ r, i = .repr r) ∨ (∃ cc o, i = .jrCond cc o) ∨ (∃ o, i = .jrS o) ∨ (∃ v, i = .jrL v) ∨
    (∃ v, i = .jpHml v) ∨ (∃ m, i = .jpRm m) ∨ (∃ m, i = .jea m) ∨ (∃ o, i = .crS o) ∨ (∃ v, i = .crL v) ∨
    (∃ v, i = .callHml v) ∨ (∃ m, i = .callRm m) ∨ (∃ m, i = .cea m) ∨ (∃ n, i = .rst n) ∨ (∃ r o, i = .djnz r o) ∨
    i = .ret ∨ i = .reti)

/-! ### Traps, interrupts and reset -/

/-- Taking a trap: the six-byte frame with the old WF below the return address, SP six lower, IRL by the cause, the repeat and
halt bits cleared, PGC at the vector; every other byte of memory, register and flag unchanged (60_exceptions.md R372, R373; the
cleared bits are the spec's decision D19, log entry 16). An odd SP drops bit 0 of each access address (20_memory.md R75). The
frame is written by the two accesses that `MemoryAccess` describes, first the return address; where it lies in RAM its bytes are
given one by one. -/
def Obligations.TrapEntry : Prop :=
  ∀ (c : TrapCause) (ret : Ptr) (s : State), s.mem.wf = true →
    let t := s.trap c ret
    let a := evenAddr (s.getP 7 - 6)
    let framed := (s.memWrite .p (s.getP 7 - 4) ret).memWrite .w (s.getP 7 - 6) s.wf
    t.getP 7 = s.getP 7 - 6 ∧ t.mem = framed.mem ∧ t.bus = framed.bus ∧
    (s.isRam a = true → t.byteAt a = s.wf.extractLsb' 0 8) ∧
    (s.isRam (a + 1) = true → t.byteAt (a + 1) = s.wf.extractLsb' 8 8) ∧
    (s.isRam (a + 2) = true → t.byteAt (a + 2) = ret.extractLsb' 0 8) ∧
    (s.isRam (a + 3) = true → t.byteAt (a + 3) = ret.extractLsb' 8 8) ∧
    (s.isRam (a + 4) = true → t.byteAt (a + 4) = ret.extractLsb' 16 8) ∧
    (∀ b, s.isMemory b = true → b ∉ [a, a + 1, a + 2, a + 3, a + 4] → t.byteAt b = s.byteAt b) ∧
    (∀ j, j ≠ 7 → t.getP j = s.getP j) ∧ t.flags = s.flags ∧
    t.irl = (match c with
      | .nmi => 0
      | .irq n => BitVec.ofNat 3 (n.num - 1)
      | .divideByZero | .illegalInstruction => s.irl) ∧
    t.repiA = false ∧ t.reprA = false ∧ t.halted = false ∧ t.pgc = c.vector ∧
    t.repiN = s.repiN ∧ t.reprR = s.reprR ∧ t.requests = s.requests ∧ t.freeCount = s.freeCount ∧ t.map = s.map

/-- RETI after a trap restores exactly what entry saved, if the frame lies in RAM: the return address in PGC, the flags and IRL,
and SP; of the rest of the state only the frame in memory, what the platform has seen, and the cleared repeat and halt bits differ
(60_exceptions.md R378, 48_macros.md R350; with no interrupt between RETI's two instructions, log entry 12). -/
def Obligations.TrapThenReti : Prop :=
  ∀ (c : TrapCause) (ret : Ptr) (s : State), s.mem.wf = true → ret.getLsbD 0 = false →
    (∀ a ∈ touched .p (s.getP 7 - 4) ++ touched .w (s.getP 7 - 6), s.isRam a = true) →
    ∃ u, exec .reti (s.trap c ret) = .next u ∧
      u = { s with pgc := ret, mem := u.mem, bus := u.bus, repiA := false, reprA := false, halted := false } ∧
      ∀ a, s.isMemory a = true → a ∉ touched .p (s.getP 7 - 4) ++ touched .w (s.getP 7 - 6) → u.byteAt a = s.byteAt a

/-- R360, the whole rule: the vector of every cause and of Reset, that slot k lies at `$FFCF00 + 16 * k`, and that entry goes
there in every state, so that nothing moves the table; no cause has one of the reserved slots 8 to 12. -/
def Obligations.VectorTable : Prop :=
  TrapCause.vector .nmi = 0xFFCF00 ∧ TrapCause.vector (.irq .irq1) = 0xFFCF10 ∧ TrapCause.vector (.irq .irq2) = 0xFFCF20 ∧
  TrapCause.vector (.irq .irq3) = 0xFFCF30 ∧ TrapCause.vector (.irq .irq4) = 0xFFCF40 ∧
  TrapCause.vector (.irq .irq5) = 0xFFCF50 ∧ TrapCause.vector (.irq .irq6) = 0xFFCF60 ∧
  TrapCause.vector (.irq .irq7) = 0xFFCF70 ∧ TrapCause.vector .divideByZero = 0xFFCFD0 ∧
  TrapCause.vector .illegalInstruction = 0xFFCFE0 ∧
  (∀ s : State, s.resetLine.pgc = 0xFFCFF0) ∧ State.reset.pgc = 0xFFCFF0 ∧
  (∀ c : TrapCause, c.vector = 0xFFCF00 + BitVec.ofNat 24 (16 * c.slot) ∧ c.slot ∉ [8, 9, 10, 11, 12, 15]) ∧
  (∀ n : IrqLevel, (TrapCause.irq n).slot = n.num) ∧
  (∀ (c : TrapCause) (ret : Ptr) (s : State), (s.trap c ret).pgc = c.vector)

/-- The interrupt a boundary takes: NMI, never masked, else the asserted IRQ of the lowest number among those up to IRL
(60_exceptions.md R368, R369). -/
def Obligations.InterruptSelection : Prop :=
  ∀ (s : State) (rq : Requests),
    (s.acceptable rq = some .nmi ↔ rq.nmi = true) ∧
    (∀ n, s.acceptable rq = some (.irq n) ↔
      rq.nmi = false ∧ mayTake s rq n ∧ ∀ k, k.num < n.num → ¬ mayTake s rq k) ∧
    (s.acceptable rq = none ↔ rq.nmi = false ∧ ∀ n, ¬ mayTake s rq n) ∧
    s.acceptable rq ≠ some .divideByZero ∧ s.acceptable rq ≠ some .illegalInstruction

/-- What a step does at a boundary where it runs no instruction: the Reset Routine before all else, a wait while halted, an
interrupt otherwise unless REPI holds it off, with the address of the REPR as return address inside a REPR loop (00_scope.md R12,
47_misc.md R322 and R327, 60_exceptions.md R370, 70_reset_and_hazards.md R410; the spec's decisions D13, D22 and D31). Of the
Reset Routine only what R410 names is stated, and that SP and memory are not touched. -/
def Obligations.BoundarySteps : Prop :=
  ∀ s : State,
    (s.asserted.reset = true → ∃ t, step s = .next t ∧ t.irl = 0 ∧ t.pgc = 0xFFCFF0 ∧ t.repiA = false ∧ t.reprA = false ∧
      t.halted = false ∧ t.getP 7 = s.getP 7 ∧ t.mem = s.mem) ∧
    (s.asserted.reset = false → s.halted = true → s.acceptable s.asserted = none → step s = .next s.pastBoundary) ∧
    (s.asserted.reset = false → s.halted = true → ∀ c, s.acceptable s.asserted = some c →
      step s = .next (s.pastBoundary.trap c s.pgc)) ∧
    (s.asserted.reset = false → s.halted = false → s.repiA = false → ∀ c, s.acceptable s.asserted = some c →
      step s = .next (s.pastBoundary.trap c (if s.reprA then s.pgc - 2 else s.pgc)))

/-- What the spec says of the state after reset (10_state.md R44; the cleared repeat and halt bits are its decision D25): no value
of a register or of memory is stated. -/
def Obligations.ResetValues : Prop :=
  State.reset.pgc = 0xFFCFF0 ∧ State.reset.irl = 0 ∧ State.reset.repiA = false ∧ State.reset.reprA = false ∧
  State.reset.halted = false ∧ State.reset.wf &&& 0xF830 = 0 ∧
  (∀ n, ¬ mayTake State.reset State.reset.asserted n) ∧
  (∀ (s : State) (n : IrqLevel) (rq : Requests), ¬ mayTake s.resetLine rq n)

/-- A step at a boundary where an instruction is fetched runs the decoded instruction in the state past the boundary and then
the repeat rule; a first word of no row takes the Illegal Instruction exception, and a malformed instruction runs up to its
malformed word (00_scope.md R12 clauses 4 to 6; 60_exceptions.md R363, R370, the spec's decision D13, log entry 16). What is
decoded is five words, though the spec fetches those of the instruction only (log entry 15): each is read after those before it,
and of an LD those after the source's when the source has been read (20_memory.md R73, 40_operands.md R160, the spec's decision
D9, log entry 14). In memory they are the ten bytes from PGC onwards. -/
def Obligations.StepRunsDecoded : Prop :=
  ∀ s : State, fetchesNext s →
    let n := s.pastBoundary.advance 1
    (∀ i, decode s.fetchBytes = .ok i → ((s.repiA || s.reprA) && notRepeatable i) = false →
      ∀ t, exec i s.pastBoundary = .next t →
        step s = .next (if isRepeatPrefix i then t else t.repeatRule s.pgc)) ∧
    (∀ v, decode s.fetchBytes = .error (.nonexistent v) →
      step s = .next (n.trap .illegalInstruction (if s.reprA then s.pgc - 2 else n.pgc))) ∧
    (∀ i, decode s.fetchBytes = .error (.malformed i) → step s = exec i s.pastBoundary) ∧
    (∀ z d m, decodeWords s.wordsAhead = .ok (.ldRmRm z d m) ∨
        decodeWords s.wordsAhead = .error (.malformed (.ldRmRm z d m)) →
      wordsOfBytes s.fetchBytes = (s.wordsAhead.take (1 + m.ext) ++ (copyRead z d m s).wordsAhead).take 5) ∧
    ((∀ z d m, decodeWords s.wordsAhead ≠ .ok (.ldRmRm z d m) ∧
        decodeWords s.wordsAhead ≠ .error (.malformed (.ldRmRm z d m))) → wordsOfBytes s.fetchBytes = s.wordsAhead) ∧
    s.wordsAhead = (List.range 5).map (fun k => (s.advance k).memRead .w (s.advance k).pgc) ∧
    s.fetchBytes.take 2 = [(s.memRead .w s.pgc).extractLsb' 0 8, (s.memRead .w s.pgc).extractLsb' 8 8] ∧
    (s.pgc.getLsbD 0 = false → (∀ k < 10, s.isMemory (s.pgc + BitVec.ofNat 24 k) = true) →
      s.fetchBytes = (List.range 10).map fun k => s.byteAt (s.pgc + BitVec.ofNat 24 k))

/-! ### Invariant -/

/-- Every step keeps the invariant: memory in its canonical form (the model's), PGC even (10_state.md R31), at most one repeat in
progress and none while halted (47_misc.md R326). -/
def Obligations.InvariantKept : Prop := ∀ s t : State, s.Inv → step s = .next t → t.Inv

/-- The state after reset meets the invariant. -/
def Obligations.InvariantAtReset : Prop := State.reset.Inv

/-! ### Frames -/

/-- The instructions that store nothing leave every byte of memory (RAM or ROM, by the map of log entry 1) as it was, unless they
raise an exception (whose frame `TrapEntry` gives). -/
def Obligations.MemoryFrameNoStore : Prop :=
  ∀ (i : Instr) (s t : State), storesNothing i → raisesNone i s → exec i s = .next t →
    ∀ a, s.isMemory a = true → t.byteAt a = s.byteAt a

/-- The instructions that store leave every byte of memory (RAM or ROM, by the map of log entry 1) as it was but for the bytes
they store to, whose address is the one their meaning computes: the operand's location, or the pushed cell (20_memory.md R71). -/
def Obligations.MemoryFrameStores : Prop :=
  ∀ (i : Instr) (s t : State), raisesNone i s → exec i s = .next t →
    ∀ a, s.isMemory a = true → a ∉ storedBytes i s → t.byteAt a = s.byteAt a

/-- No P register changes but the destination the instruction names, the registers it writes implicitly (10_state.md R24), and
the base registers of its auto-modify operands, unless it raises an exception. -/
def Obligations.RegisterFrame : Prop :=
  ∀ (i : Instr) (s t : State), raisesNone i s → exec i s = .next t →
    ∀ j, j ∉ writtenRegs i → t.getP j = s.getP j

/-- No flag changes but those that the table of 10_state.md R37 names for the instruction and those that a write of F or WF names
(R29), whether or not it raises an exception. -/
def Obligations.FlagFrame : Prop :=
  ∀ (i : Instr) (s t : State), exec i s = .next t → t.fByte &&& ~~~writtenFlags i = s.fByte &&& ~~~writtenFlags i

/-- IRL, the repeat state and the halted bit change only by the instructions that the spec gives them to (10_state.md R27, R38 to
R41), unless the instruction raises an exception. The other fields are the model's own: no instruction changes the schedule of
inputs (log entry 4) or the memory map (log entry 1), the count of free values changes only by the instructions that may draw one
(log entry 5), and where every address is RAM the platform sees no access (log entry 20). -/
def Obligations.ControlFrame : Prop :=
  ∀ (i : Instr) (s t : State), raisesNone i s → exec i s = .next t →
    t.requests = s.requests ∧ t.map = s.map ∧ ((∀ a, s.isRam a = true) → t.bus = s.bus) ∧
    (writesIrl i = false → t.irl = s.irl) ∧
    ((∀ n, i ≠ .repi n) → t.repiA = s.repiA ∧ t.repiN = s.repiN) ∧
    ((∀ r, i ≠ .repr r) → t.reprA = s.reprA ∧ t.reprR = s.reprR) ∧
    (i ≠ .halt → t.halted = s.halted) ∧ (drawsFree i = false → t.freeCount = s.freeCount)

end
end

