-- ==== Sys2Proof/Laws/State.lean ====
section
/-! SUPPORT. One lemma per field per update of the state, so that no proof unfolds a record update. -/

namespace Sys2Proof.Machine

variable (s : State)

/-! `State.setP` -/

@[simp] theorem State.setP_p (i : RegNum) (v : Ptr) : (s.setP i v).p = s.p.set i.toNat v i.isLt := rfl
@[simp] theorem State.setP_pgc (i : RegNum) (v : Ptr) : (s.setP i v).pgc = s.pgc := rfl
@[simp] theorem State.setP_flags (i : RegNum) (v : Ptr) : (s.setP i v).flags = s.flags := rfl
@[simp] theorem State.setP_irl (i : RegNum) (v : Ptr) : (s.setP i v).irl = s.irl := rfl
@[simp] theorem State.setP_repiA (i : RegNum) (v : Ptr) : (s.setP i v).repiA = s.repiA := rfl
@[simp] theorem State.setP_repiN (i : RegNum) (v : Ptr) : (s.setP i v).repiN = s.repiN := rfl
@[simp] theorem State.setP_reprA (i : RegNum) (v : Ptr) : (s.setP i v).reprA = s.reprA := rfl
@[simp] theorem State.setP_reprR (i : RegNum) (v : Ptr) : (s.setP i v).reprR = s.reprR := rfl
@[simp] theorem State.setP_halted (i : RegNum) (v : Ptr) : (s.setP i v).halted = s.halted := rfl
@[simp] theorem State.setP_mem (i : RegNum) (v : Ptr) : (s.setP i v).mem = s.mem := rfl
@[simp] theorem State.setP_requests (i : RegNum) (v : Ptr) : (s.setP i v).requests = s.requests := rfl
@[simp] theorem State.setP_freeCount (i : RegNum) (v : Ptr) : (s.setP i v).freeCount = s.freeCount := rfl
@[simp] theorem State.setP_map (i : RegNum) (v : Ptr) : (s.setP i v).map = s.map := rfl
@[simp] theorem State.setP_bus (i : RegNum) (v : Ptr) : (s.setP i v).bus = s.bus := rfl

/-! `State.setFlags` -/

@[simp] theorem State.setFlags_p (f : Flags) : (s.setFlags f).p = s.p := rfl
@[simp] theorem State.setFlags_pgc (f : Flags) : (s.setFlags f).pgc = s.pgc := rfl
@[simp] theorem State.setFlags_flags (f : Flags) : (s.setFlags f).flags = f := rfl
@[simp] theorem State.setFlags_irl (f : Flags) : (s.setFlags f).irl = s.irl := rfl
@[simp] theorem State.setFlags_repiA (f : Flags) : (s.setFlags f).repiA = s.repiA := rfl
@[simp] theorem State.setFlags_repiN (f : Flags) : (s.setFlags f).repiN = s.repiN := rfl
@[simp] theorem State.setFlags_reprA (f : Flags) : (s.setFlags f).reprA = s.reprA := rfl
@[simp] theorem State.setFlags_reprR (f : Flags) : (s.setFlags f).reprR = s.reprR := rfl
@[simp] theorem State.setFlags_halted (f : Flags) : (s.setFlags f).halted = s.halted := rfl
@[simp] theorem State.setFlags_mem (f : Flags) : (s.setFlags f).mem = s.mem := rfl
@[simp] theorem State.setFlags_requests (f : Flags) : (s.setFlags f).requests = s.requests := rfl
@[simp] theorem State.setFlags_freeCount (f : Flags) : (s.setFlags f).freeCount = s.freeCount := rfl
@[simp] theorem State.setFlags_map (f : Flags) : (s.setFlags f).map = s.map := rfl
@[simp] theorem State.setFlags_bus (f : Flags) : (s.setFlags f).bus = s.bus := rfl

/-! `State.setF` -/

@[simp] theorem State.setF_p (v : Byte) : (s.setF v).p = s.p := rfl
@[simp] theorem State.setF_pgc (v : Byte) : (s.setF v).pgc = s.pgc := rfl
@[simp] theorem State.setF_flags (v : Byte) : (s.setF v).flags = flagsOfByte v := rfl
@[simp] theorem State.setF_irl (v : Byte) : (s.setF v).irl = s.irl := rfl
@[simp] theorem State.setF_repiA (v : Byte) : (s.setF v).repiA = s.repiA := rfl
@[simp] theorem State.setF_repiN (v : Byte) : (s.setF v).repiN = s.repiN := rfl
@[simp] theorem State.setF_reprA (v : Byte) : (s.setF v).reprA = s.reprA := rfl
@[simp] theorem State.setF_reprR (v : Byte) : (s.setF v).reprR = s.reprR := rfl
@[simp] theorem State.setF_halted (v : Byte) : (s.setF v).halted = s.halted := rfl
@[simp] theorem State.setF_mem (v : Byte) : (s.setF v).mem = s.mem := rfl
@[simp] theorem State.setF_requests (v : Byte) : (s.setF v).requests = s.requests := rfl
@[simp] theorem State.setF_freeCount (v : Byte) : (s.setF v).freeCount = s.freeCount := rfl
@[simp] theorem State.setF_map (v : Byte) : (s.setF v).map = s.map := rfl
@[simp] theorem State.setF_bus (v : Byte) : (s.setF v).bus = s.bus := rfl

/-! `State.setIrl` -/

@[simp] theorem State.setIrl_p (v : BitVec 3) : (s.setIrl v).p = s.p := rfl
@[simp] theorem State.setIrl_pgc (v : BitVec 3) : (s.setIrl v).pgc = s.pgc := rfl
@[simp] theorem State.setIrl_flags (v : BitVec 3) : (s.setIrl v).flags = s.flags := rfl
@[simp] theorem State.setIrl_irl (v : BitVec 3) : (s.setIrl v).irl = v := rfl
@[simp] theorem State.setIrl_repiA (v : BitVec 3) : (s.setIrl v).repiA = s.repiA := rfl
@[simp] theorem State.setIrl_repiN (v : BitVec 3) : (s.setIrl v).repiN = s.repiN := rfl
@[simp] theorem State.setIrl_reprA (v : BitVec 3) : (s.setIrl v).reprA = s.reprA := rfl
@[simp] theorem State.setIrl_reprR (v : BitVec 3) : (s.setIrl v).reprR = s.reprR := rfl
@[simp] theorem State.setIrl_halted (v : BitVec 3) : (s.setIrl v).halted = s.halted := rfl
@[simp] theorem State.setIrl_mem (v : BitVec 3) : (s.setIrl v).mem = s.mem := rfl
@[simp] theorem State.setIrl_requests (v : BitVec 3) : (s.setIrl v).requests = s.requests := rfl
@[simp] theorem State.setIrl_freeCount (v : BitVec 3) : (s.setIrl v).freeCount = s.freeCount := rfl
@[simp] theorem State.setIrl_map (v : BitVec 3) : (s.setIrl v).map = s.map := rfl
@[simp] theorem State.setIrl_bus (v : BitVec 3) : (s.setIrl v).bus = s.bus := rfl

/-! `State.setWf` -/

@[simp] theorem State.setWf_p (v : Word) : (s.setWf v).p = s.p := rfl
@[simp] theorem State.setWf_pgc (v : Word) : (s.setWf v).pgc = s.pgc := rfl
@[simp] theorem State.setWf_flags (v : Word) : (s.setWf v).flags = flagsOfByte (v.extractLsb' 0 8) := rfl
@[simp] theorem State.setWf_irl (v : Word) : (s.setWf v).irl = v.extractLsb' 8 3 := rfl
@[simp] theorem State.setWf_repiA (v : Word) : (s.setWf v).repiA = s.repiA := rfl
@[simp] theorem State.setWf_repiN (v : Word) : (s.setWf v).repiN = s.repiN := rfl
@[simp] theorem State.setWf_reprA (v : Word) : (s.setWf v).reprA = s.reprA := rfl
@[simp] theorem State.setWf_reprR (v : Word) : (s.setWf v).reprR = s.reprR := rfl
@[simp] theorem State.setWf_halted (v : Word) : (s.setWf v).halted = s.halted := rfl
@[simp] theorem State.setWf_mem (v : Word) : (s.setWf v).mem = s.mem := rfl
@[simp] theorem State.setWf_requests (v : Word) : (s.setWf v).requests = s.requests := rfl
@[simp] theorem State.setWf_freeCount (v : Word) : (s.setWf v).freeCount = s.freeCount := rfl
@[simp] theorem State.setWf_map (v : Word) : (s.setWf v).map = s.map := rfl
@[simp] theorem State.setWf_bus (v : Word) : (s.setWf v).bus = s.bus := rfl

/-! `State.setPgc` -/

@[simp] theorem State.setPgc_p (v : Ptr) : (s.setPgc v).p = s.p := rfl
@[simp] theorem State.setPgc_pgc (v : Ptr) : (s.setPgc v).pgc = v &&& 0xFFFFFE := rfl
@[simp] theorem State.setPgc_flags (v : Ptr) : (s.setPgc v).flags = s.flags := rfl
@[simp] theorem State.setPgc_irl (v : Ptr) : (s.setPgc v).irl = s.irl := rfl
@[simp] theorem State.setPgc_repiA (v : Ptr) : (s.setPgc v).repiA = s.repiA := rfl
@[simp] theorem State.setPgc_repiN (v : Ptr) : (s.setPgc v).repiN = s.repiN := rfl
@[simp] theorem State.setPgc_reprA (v : Ptr) : (s.setPgc v).reprA = s.reprA := rfl
@[simp] theorem State.setPgc_reprR (v : Ptr) : (s.setPgc v).reprR = s.reprR := rfl
@[simp] theorem State.setPgc_halted (v : Ptr) : (s.setPgc v).halted = s.halted := rfl
@[simp] theorem State.setPgc_mem (v : Ptr) : (s.setPgc v).mem = s.mem := rfl
@[simp] theorem State.setPgc_requests (v : Ptr) : (s.setPgc v).requests = s.requests := rfl
@[simp] theorem State.setPgc_freeCount (v : Ptr) : (s.setPgc v).freeCount = s.freeCount := rfl
@[simp] theorem State.setPgc_map (v : Ptr) : (s.setPgc v).map = s.map := rfl
@[simp] theorem State.setPgc_bus (v : Ptr) : (s.setPgc v).bus = s.bus := rfl

/-! `State.advance` -/

@[simp] theorem State.advance_p (k : Nat) : (s.advance k).p = s.p := rfl
@[simp] theorem State.advance_pgc (k : Nat) : (s.advance k).pgc = (s.pgc + BitVec.ofNat 24 (2 * k)) &&& 0xFFFFFE := rfl
@[simp] theorem State.advance_flags (k : Nat) : (s.advance k).flags = s.flags := rfl
@[simp] theorem State.advance_irl (k : Nat) : (s.advance k).irl = s.irl := rfl
@[simp] theorem State.advance_repiA (k : Nat) : (s.advance k).repiA = s.repiA := rfl
@[simp] theorem State.advance_repiN (k : Nat) : (s.advance k).repiN = s.repiN := rfl
@[simp] theorem State.advance_reprA (k : Nat) : (s.advance k).reprA = s.reprA := rfl
@[simp] theorem State.advance_reprR (k : Nat) : (s.advance k).reprR = s.reprR := rfl
@[simp] theorem State.advance_halted (k : Nat) : (s.advance k).halted = s.halted := rfl
@[simp] theorem State.advance_mem (k : Nat) : (s.advance k).mem = s.mem := rfl
@[simp] theorem State.advance_requests (k : Nat) : (s.advance k).requests = s.requests := rfl
@[simp] theorem State.advance_freeCount (k : Nat) : (s.advance k).freeCount = s.freeCount := rfl
@[simp] theorem State.advance_map (k : Nat) : (s.advance k).map = s.map := rfl
@[simp] theorem State.advance_bus (k : Nat) : (s.advance k).bus = (s.didFetch k).bus := rfl

/-! `State.setByte` -/

@[simp] theorem State.setByte_p (a : Ptr) (v : Byte) : (s.setByte a v).p = s.p := rfl
@[simp] theorem State.setByte_pgc (a : Ptr) (v : Byte) : (s.setByte a v).pgc = s.pgc := rfl
@[simp] theorem State.setByte_flags (a : Ptr) (v : Byte) : (s.setByte a v).flags = s.flags := rfl
@[simp] theorem State.setByte_irl (a : Ptr) (v : Byte) : (s.setByte a v).irl = s.irl := rfl
@[simp] theorem State.setByte_repiA (a : Ptr) (v : Byte) : (s.setByte a v).repiA = s.repiA := rfl
@[simp] theorem State.setByte_repiN (a : Ptr) (v : Byte) : (s.setByte a v).repiN = s.repiN := rfl
@[simp] theorem State.setByte_reprA (a : Ptr) (v : Byte) : (s.setByte a v).reprA = s.reprA := rfl
@[simp] theorem State.setByte_reprR (a : Ptr) (v : Byte) : (s.setByte a v).reprR = s.reprR := rfl
@[simp] theorem State.setByte_halted (a : Ptr) (v : Byte) : (s.setByte a v).halted = s.halted := rfl
@[simp] theorem State.setByte_mem (a : Ptr) (v : Byte) : (s.setByte a v).mem = if s.isRam a then s.mem.set a.toNat v else s.mem := rfl
@[simp] theorem State.setByte_requests (a : Ptr) (v : Byte) : (s.setByte a v).requests = s.requests := rfl
@[simp] theorem State.setByte_freeCount (a : Ptr) (v : Byte) : (s.setByte a v).freeCount = s.freeCount := rfl
@[simp] theorem State.setByte_map (a : Ptr) (v : Byte) : (s.setByte a v).map = s.map := rfl
@[simp] theorem State.setByte_bus (a : Ptr) (v : Byte) : (s.setByte a v).bus = s.bus := rfl

/-! `State.didRead8` -/

@[simp] theorem State.didRead8_p (a : Ptr) : (s.didRead8 a).p = s.p := rfl
@[simp] theorem State.didRead8_pgc (a : Ptr) : (s.didRead8 a).pgc = s.pgc := rfl
@[simp] theorem State.didRead8_flags (a : Ptr) : (s.didRead8 a).flags = s.flags := rfl
@[simp] theorem State.didRead8_irl (a : Ptr) : (s.didRead8 a).irl = s.irl := rfl
@[simp] theorem State.didRead8_repiA (a : Ptr) : (s.didRead8 a).repiA = s.repiA := rfl
@[simp] theorem State.didRead8_repiN (a : Ptr) : (s.didRead8 a).repiN = s.repiN := rfl
@[simp] theorem State.didRead8_reprA (a : Ptr) : (s.didRead8 a).reprA = s.reprA := rfl
@[simp] theorem State.didRead8_reprR (a : Ptr) : (s.didRead8 a).reprR = s.reprR := rfl
@[simp] theorem State.didRead8_halted (a : Ptr) : (s.didRead8 a).halted = s.halted := rfl
@[simp] theorem State.didRead8_mem (a : Ptr) : (s.didRead8 a).mem = s.mem := rfl
@[simp] theorem State.didRead8_requests (a : Ptr) : (s.didRead8 a).requests = s.requests := rfl
@[simp] theorem State.didRead8_freeCount (a : Ptr) : (s.didRead8 a).freeCount = s.freeCount := rfl
@[simp] theorem State.didRead8_map (a : Ptr) : (s.didRead8 a).map = s.map := rfl

/-! `State.didRead16` -/

@[simp] theorem State.didRead16_p (a : Ptr) : (s.didRead16 a).p = s.p := rfl
@[simp] theorem State.didRead16_pgc (a : Ptr) : (s.didRead16 a).pgc = s.pgc := rfl
@[simp] theorem State.didRead16_flags (a : Ptr) : (s.didRead16 a).flags = s.flags := rfl
@[simp] theorem State.didRead16_irl (a : Ptr) : (s.didRead16 a).irl = s.irl := rfl
@[simp] theorem State.didRead16_repiA (a : Ptr) : (s.didRead16 a).repiA = s.repiA := rfl
@[simp] theorem State.didRead16_repiN (a : Ptr) : (s.didRead16 a).repiN = s.repiN := rfl
@[simp] theorem State.didRead16_reprA (a : Ptr) : (s.didRead16 a).reprA = s.reprA := rfl
@[simp] theorem State.didRead16_reprR (a : Ptr) : (s.didRead16 a).reprR = s.reprR := rfl
@[simp] theorem State.didRead16_halted (a : Ptr) : (s.didRead16 a).halted = s.halted := rfl
@[simp] theorem State.didRead16_mem (a : Ptr) : (s.didRead16 a).mem = s.mem := rfl
@[simp] theorem State.didRead16_requests (a : Ptr) : (s.didRead16 a).requests = s.requests := rfl
@[simp] theorem State.didRead16_freeCount (a : Ptr) : (s.didRead16 a).freeCount = s.freeCount := rfl
@[simp] theorem State.didRead16_map (a : Ptr) : (s.didRead16 a).map = s.map := rfl

/-! `State.didWrite8` -/

@[simp] theorem State.didWrite8_p (a : Ptr) (v : Byte) : (s.didWrite8 a v).p = s.p := rfl
@[simp] theorem State.didWrite8_pgc (a : Ptr) (v : Byte) : (s.didWrite8 a v).pgc = s.pgc := rfl
@[simp] theorem State.didWrite8_flags (a : Ptr) (v : Byte) : (s.didWrite8 a v).flags = s.flags := rfl
@[simp] theorem State.didWrite8_irl (a : Ptr) (v : Byte) : (s.didWrite8 a v).irl = s.irl := rfl
@[simp] theorem State.didWrite8_repiA (a : Ptr) (v : Byte) : (s.didWrite8 a v).repiA = s.repiA := rfl
@[simp] theorem State.didWrite8_repiN (a : Ptr) (v : Byte) : (s.didWrite8 a v).repiN = s.repiN := rfl
@[simp] theorem State.didWrite8_reprA (a : Ptr) (v : Byte) : (s.didWrite8 a v).reprA = s.reprA := rfl
@[simp] theorem State.didWrite8_reprR (a : Ptr) (v : Byte) : (s.didWrite8 a v).reprR = s.reprR := rfl
@[simp] theorem State.didWrite8_halted (a : Ptr) (v : Byte) : (s.didWrite8 a v).halted = s.halted := rfl
@[simp] theorem State.didWrite8_mem (a : Ptr) (v : Byte) : (s.didWrite8 a v).mem = s.mem := rfl
@[simp] theorem State.didWrite8_requests (a : Ptr) (v : Byte) : (s.didWrite8 a v).requests = s.requests := rfl
@[simp] theorem State.didWrite8_freeCount (a : Ptr) (v : Byte) : (s.didWrite8 a v).freeCount = s.freeCount := rfl
@[simp] theorem State.didWrite8_map (a : Ptr) (v : Byte) : (s.didWrite8 a v).map = s.map := rfl

/-! `State.didWrite16` -/

@[simp] theorem State.didWrite16_p (a : Ptr) (v : Word) : (s.didWrite16 a v).p = s.p := rfl
@[simp] theorem State.didWrite16_pgc (a : Ptr) (v : Word) : (s.didWrite16 a v).pgc = s.pgc := rfl
@[simp] theorem State.didWrite16_flags (a : Ptr) (v : Word) : (s.didWrite16 a v).flags = s.flags := rfl
@[simp] theorem State.didWrite16_irl (a : Ptr) (v : Word) : (s.didWrite16 a v).irl = s.irl := rfl
@[simp] theorem State.didWrite16_repiA (a : Ptr) (v : Word) : (s.didWrite16 a v).repiA = s.repiA := rfl
@[simp] theorem State.didWrite16_repiN (a : Ptr) (v : Word) : (s.didWrite16 a v).repiN = s.repiN := rfl
@[simp] theorem State.didWrite16_reprA (a : Ptr) (v : Word) : (s.didWrite16 a v).reprA = s.reprA := rfl
@[simp] theorem State.didWrite16_reprR (a : Ptr) (v : Word) : (s.didWrite16 a v).reprR = s.reprR := rfl
@[simp] theorem State.didWrite16_halted (a : Ptr) (v : Word) : (s.didWrite16 a v).halted = s.halted := rfl
@[simp] theorem State.didWrite16_mem (a : Ptr) (v : Word) : (s.didWrite16 a v).mem = s.mem := rfl
@[simp] theorem State.didWrite16_requests (a : Ptr) (v : Word) : (s.didWrite16 a v).requests = s.requests := rfl
@[simp] theorem State.didWrite16_freeCount (a : Ptr) (v : Word) : (s.didWrite16 a v).freeCount = s.freeCount := rfl
@[simp] theorem State.didWrite16_map (a : Ptr) (v : Word) : (s.didWrite16 a v).map = s.map := rfl

/-! `State.didRead` -/

@[simp] theorem State.didRead_p (z : Size) (a : Ptr) : (s.didRead z a).p = s.p := rfl
@[simp] theorem State.didRead_pgc (z : Size) (a : Ptr) : (s.didRead z a).pgc = s.pgc := rfl
@[simp] theorem State.didRead_flags (z : Size) (a : Ptr) : (s.didRead z a).flags = s.flags := rfl
@[simp] theorem State.didRead_irl (z : Size) (a : Ptr) : (s.didRead z a).irl = s.irl := rfl
@[simp] theorem State.didRead_repiA (z : Size) (a : Ptr) : (s.didRead z a).repiA = s.repiA := rfl
@[simp] theorem State.didRead_repiN (z : Size) (a : Ptr) : (s.didRead z a).repiN = s.repiN := rfl
@[simp] theorem State.didRead_reprA (z : Size) (a : Ptr) : (s.didRead z a).reprA = s.reprA := rfl
@[simp] theorem State.didRead_reprR (z : Size) (a : Ptr) : (s.didRead z a).reprR = s.reprR := rfl
@[simp] theorem State.didRead_halted (z : Size) (a : Ptr) : (s.didRead z a).halted = s.halted := rfl
@[simp] theorem State.didRead_mem (z : Size) (a : Ptr) : (s.didRead z a).mem = s.mem := rfl
@[simp] theorem State.didRead_requests (z : Size) (a : Ptr) : (s.didRead z a).requests = s.requests := rfl
@[simp] theorem State.didRead_freeCount (z : Size) (a : Ptr) : (s.didRead z a).freeCount = s.freeCount := rfl
@[simp] theorem State.didRead_map (z : Size) (a : Ptr) : (s.didRead z a).map = s.map := rfl

/-! `State.drawn` -/

@[simp] theorem State.drawn_p : (s.drawn).p = s.p := rfl
@[simp] theorem State.drawn_pgc : (s.drawn).pgc = s.pgc := rfl
@[simp] theorem State.drawn_flags : (s.drawn).flags = s.flags := rfl
@[simp] theorem State.drawn_irl : (s.drawn).irl = s.irl := rfl
@[simp] theorem State.drawn_repiA : (s.drawn).repiA = s.repiA := rfl
@[simp] theorem State.drawn_repiN : (s.drawn).repiN = s.repiN := rfl
@[simp] theorem State.drawn_reprA : (s.drawn).reprA = s.reprA := rfl
@[simp] theorem State.drawn_reprR : (s.drawn).reprR = s.reprR := rfl
@[simp] theorem State.drawn_halted : (s.drawn).halted = s.halted := rfl
@[simp] theorem State.drawn_mem : (s.drawn).mem = s.mem := rfl
@[simp] theorem State.drawn_requests : (s.drawn).requests = s.requests := rfl
@[simp] theorem State.drawn_freeCount : (s.drawn).freeCount = s.freeCount + 1 := rfl
@[simp] theorem State.drawn_map : (s.drawn).map = s.map := rfl
@[simp] theorem State.drawn_bus : (s.drawn).bus = s.bus := rfl

/-! `State.didFetch` -/

@[simp] theorem State.didFetch_p (k : Nat) : (s.didFetch k).p = s.p := by cases k <;> rfl
@[simp] theorem State.didFetch_pgc (k : Nat) : (s.didFetch k).pgc = s.pgc := by cases k <;> rfl
@[simp] theorem State.didFetch_flags (k : Nat) : (s.didFetch k).flags = s.flags := by cases k <;> rfl
@[simp] theorem State.didFetch_irl (k : Nat) : (s.didFetch k).irl = s.irl := by cases k <;> rfl
@[simp] theorem State.didFetch_repiA (k : Nat) : (s.didFetch k).repiA = s.repiA := by cases k <;> rfl
@[simp] theorem State.didFetch_repiN (k : Nat) : (s.didFetch k).repiN = s.repiN := by cases k <;> rfl
@[simp] theorem State.didFetch_reprA (k : Nat) : (s.didFetch k).reprA = s.reprA := by cases k <;> rfl
@[simp] theorem State.didFetch_reprR (k : Nat) : (s.didFetch k).reprR = s.reprR := by cases k <;> rfl
@[simp] theorem State.didFetch_halted (k : Nat) : (s.didFetch k).halted = s.halted := by cases k <;> rfl
@[simp] theorem State.didFetch_mem (k : Nat) : (s.didFetch k).mem = s.mem := by cases k <;> rfl
@[simp] theorem State.didFetch_requests (k : Nat) : (s.didFetch k).requests = s.requests := by cases k <;> rfl
@[simp] theorem State.didFetch_freeCount (k : Nat) : (s.didFetch k).freeCount = s.freeCount := by cases k <;> rfl
@[simp] theorem State.didFetch_map (k : Nat) : (s.didFetch k).map = s.map := by cases k <;> rfl

/-! `State.clearProgress` -/

@[simp] theorem State.clearProgress_p : (s.clearProgress).p = s.p := rfl
@[simp] theorem State.clearProgress_pgc : (s.clearProgress).pgc = s.pgc := rfl
@[simp] theorem State.clearProgress_flags : (s.clearProgress).flags = s.flags := rfl
@[simp] theorem State.clearProgress_irl : (s.clearProgress).irl = s.irl := rfl
@[simp] theorem State.clearProgress_repiA : (s.clearProgress).repiA = false := rfl
@[simp] theorem State.clearProgress_repiN : (s.clearProgress).repiN = s.repiN := rfl
@[simp] theorem State.clearProgress_reprA : (s.clearProgress).reprA = false := rfl
@[simp] theorem State.clearProgress_reprR : (s.clearProgress).reprR = s.reprR := rfl
@[simp] theorem State.clearProgress_halted : (s.clearProgress).halted = false := rfl
@[simp] theorem State.clearProgress_mem : (s.clearProgress).mem = s.mem := rfl
@[simp] theorem State.clearProgress_requests : (s.clearProgress).requests = s.requests := rfl
@[simp] theorem State.clearProgress_freeCount : (s.clearProgress).freeCount = s.freeCount := rfl
@[simp] theorem State.clearProgress_map : (s.clearProgress).map = s.map := rfl
@[simp] theorem State.clearProgress_bus : (s.clearProgress).bus = s.bus := rfl

/-! `State.pastBoundary` -/

@[simp] theorem State.pastBoundary_p : (s.pastBoundary).p = s.p := rfl
@[simp] theorem State.pastBoundary_pgc : (s.pastBoundary).pgc = s.pgc := rfl
@[simp] theorem State.pastBoundary_flags : (s.pastBoundary).flags = s.flags := rfl
@[simp] theorem State.pastBoundary_irl : (s.pastBoundary).irl = s.irl := rfl
@[simp] theorem State.pastBoundary_repiA : (s.pastBoundary).repiA = s.repiA := rfl
@[simp] theorem State.pastBoundary_repiN : (s.pastBoundary).repiN = s.repiN := rfl
@[simp] theorem State.pastBoundary_reprA : (s.pastBoundary).reprA = s.reprA := rfl
@[simp] theorem State.pastBoundary_reprR : (s.pastBoundary).reprR = s.reprR := rfl
@[simp] theorem State.pastBoundary_halted : (s.pastBoundary).halted = s.halted := rfl
@[simp] theorem State.pastBoundary_mem : (s.pastBoundary).mem = s.mem := rfl
@[simp] theorem State.pastBoundary_requests : (s.pastBoundary).requests = s.requests.tail := rfl
@[simp] theorem State.pastBoundary_freeCount : (s.pastBoundary).freeCount = s.freeCount := rfl
@[simp] theorem State.pastBoundary_map : (s.pastBoundary).map = s.map := rfl
@[simp] theorem State.pastBoundary_bus : (s.pastBoundary).bus = s.bus := rfl

/-! `State.memWrite` -/

@[simp] theorem State.memWrite_p (z : Size) (a : Ptr) (v : BitVec z.bits) : (s.memWrite z a v).p = s.p := by cases z <;> rfl
@[simp] theorem State.memWrite_pgc (z : Size) (a : Ptr) (v : BitVec z.bits) : (s.memWrite z a v).pgc = s.pgc := by cases z <;> rfl
@[simp] theorem State.memWrite_flags (z : Size) (a : Ptr) (v : BitVec z.bits) : (s.memWrite z a v).flags = s.flags := by cases z <;> rfl
@[simp] theorem State.memWrite_irl (z : Size) (a : Ptr) (v : BitVec z.bits) : (s.memWrite z a v).irl = s.irl := by cases z <;> rfl
@[simp] theorem State.memWrite_repiA (z : Size) (a : Ptr) (v : BitVec z.bits) : (s.memWrite z a v).repiA = s.repiA := by cases z <;> rfl
@[simp] theorem State.memWrite_repiN (z : Size) (a : Ptr) (v : BitVec z.bits) : (s.memWrite z a v).repiN = s.repiN := by cases z <;> rfl
@[simp] theorem State.memWrite_reprA (z : Size) (a : Ptr) (v : BitVec z.bits) : (s.memWrite z a v).reprA = s.reprA := by cases z <;> rfl
@[simp] theorem State.memWrite_reprR (z : Size) (a : Ptr) (v : BitVec z.bits) : (s.memWrite z a v).reprR = s.reprR := by cases z <;> rfl
@[simp] theorem State.memWrite_halted (z : Size) (a : Ptr) (v : BitVec z.bits) : (s.memWrite z a v).halted = s.halted := by cases z <;> rfl
@[simp] theorem State.memWrite_requests (z : Size) (a : Ptr) (v : BitVec z.bits) : (s.memWrite z a v).requests = s.requests := by cases z <;> rfl
@[simp] theorem State.memWrite_freeCount (z : Size) (a : Ptr) (v : BitVec z.bits) : (s.memWrite z a v).freeCount = s.freeCount := by cases z <;> rfl
@[simp] theorem State.memWrite_map (z : Size) (a : Ptr) (v : BitVec z.bits) : (s.memWrite z a v).map = s.map := by cases z <;> rfl

/-! `State.setR` -/

@[simp] theorem State.setR_pgc (z : Size) (i : RegNum) (v : BitVec z.bits) : (s.setR z i v).pgc = s.pgc := by cases z <;> simp only [State.setR] <;> (try split) <;> rfl
@[simp] theorem State.setR_flags (z : Size) (i : RegNum) (v : BitVec z.bits) : (s.setR z i v).flags = s.flags := by cases z <;> simp only [State.setR] <;> (try split) <;> rfl
@[simp] theorem State.setR_irl (z : Size) (i : RegNum) (v : BitVec z.bits) : (s.setR z i v).irl = s.irl := by cases z <;> simp only [State.setR] <;> (try split) <;> rfl
@[simp] theorem State.setR_repiA (z : Size) (i : RegNum) (v : BitVec z.bits) : (s.setR z i v).repiA = s.repiA := by cases z <;> simp only [State.setR] <;> (try split) <;> rfl
@[simp] theorem State.setR_repiN (z : Size) (i : RegNum) (v : BitVec z.bits) : (s.setR z i v).repiN = s.repiN := by cases z <;> simp only [State.setR] <;> (try split) <;> rfl
@[simp] theorem State.setR_reprA (z : Size) (i : RegNum) (v : BitVec z.bits) : (s.setR z i v).reprA = s.reprA := by cases z <;> simp only [State.setR] <;> (try split) <;> rfl
@[simp] theorem State.setR_reprR (z : Size) (i : RegNum) (v : BitVec z.bits) : (s.setR z i v).reprR = s.reprR := by cases z <;> simp only [State.setR] <;> (try split) <;> rfl
@[simp] theorem State.setR_halted (z : Size) (i : RegNum) (v : BitVec z.bits) : (s.setR z i v).halted = s.halted := by cases z <;> simp only [State.setR] <;> (try split) <;> rfl
@[simp] theorem State.setR_mem (z : Size) (i : RegNum) (v : BitVec z.bits) : (s.setR z i v).mem = s.mem := by cases z <;> simp only [State.setR] <;> (try split) <;> rfl
@[simp] theorem State.setR_requests (z : Size) (i : RegNum) (v : BitVec z.bits) : (s.setR z i v).requests = s.requests := by cases z <;> simp only [State.setR] <;> (try split) <;> rfl
@[simp] theorem State.setR_freeCount (z : Size) (i : RegNum) (v : BitVec z.bits) : (s.setR z i v).freeCount = s.freeCount := by cases z <;> simp only [State.setR] <;> (try split) <;> rfl
@[simp] theorem State.setR_map (z : Size) (i : RegNum) (v : BitVec z.bits) : (s.setR z i v).map = s.map := by cases z <;> simp only [State.setR] <;> (try split) <;> rfl
@[simp] theorem State.setR_bus (z : Size) (i : RegNum) (v : BitVec z.bits) : (s.setR z i v).bus = s.bus := by cases z <;> simp only [State.setR] <;> (try split) <;> rfl

/-! `State.push24` -/

@[simp] theorem State.push24_pgc (v : Ptr) : (s.push24 v).pgc = s.pgc := rfl
@[simp] theorem State.push24_flags (v : Ptr) : (s.push24 v).flags = s.flags := rfl
@[simp] theorem State.push24_irl (v : Ptr) : (s.push24 v).irl = s.irl := rfl
@[simp] theorem State.push24_repiA (v : Ptr) : (s.push24 v).repiA = s.repiA := rfl
@[simp] theorem State.push24_repiN (v : Ptr) : (s.push24 v).repiN = s.repiN := rfl
@[simp] theorem State.push24_reprA (v : Ptr) : (s.push24 v).reprA = s.reprA := rfl
@[simp] theorem State.push24_reprR (v : Ptr) : (s.push24 v).reprR = s.reprR := rfl
@[simp] theorem State.push24_halted (v : Ptr) : (s.push24 v).halted = s.halted := rfl
@[simp] theorem State.push24_requests (v : Ptr) : (s.push24 v).requests = s.requests := rfl
@[simp] theorem State.push24_freeCount (v : Ptr) : (s.push24 v).freeCount = s.freeCount := rfl
@[simp] theorem State.push24_map (v : Ptr) : (s.push24 v).map = s.map := rfl

/-! `State.push16` -/

@[simp] theorem State.push16_pgc (v : Word) : (s.push16 v).pgc = s.pgc := rfl
@[simp] theorem State.push16_flags (v : Word) : (s.push16 v).flags = s.flags := rfl
@[simp] theorem State.push16_irl (v : Word) : (s.push16 v).irl = s.irl := rfl
@[simp] theorem State.push16_repiA (v : Word) : (s.push16 v).repiA = s.repiA := rfl
@[simp] theorem State.push16_repiN (v : Word) : (s.push16 v).repiN = s.repiN := rfl
@[simp] theorem State.push16_reprA (v : Word) : (s.push16 v).reprA = s.reprA := rfl
@[simp] theorem State.push16_reprR (v : Word) : (s.push16 v).reprR = s.reprR := rfl
@[simp] theorem State.push16_halted (v : Word) : (s.push16 v).halted = s.halted := rfl
@[simp] theorem State.push16_requests (v : Word) : (s.push16 v).requests = s.requests := rfl
@[simp] theorem State.push16_freeCount (v : Word) : (s.push16 v).freeCount = s.freeCount := rfl
@[simp] theorem State.push16_map (v : Word) : (s.push16 v).map = s.map := rfl

/-! `State.trap` -/

@[simp] theorem State.trap_pgc (c : TrapCause) (ret : Ptr) : (s.trap c ret).pgc = c.vector &&& 0xFFFFFE := rfl
@[simp] theorem State.trap_flags (c : TrapCause) (ret : Ptr) : (s.trap c ret).flags = s.flags := rfl
@[simp] theorem State.trap_irl (c : TrapCause) (ret : Ptr) : (s.trap c ret).irl = c.irlOnEntry s.irl := rfl
@[simp] theorem State.trap_repiA (c : TrapCause) (ret : Ptr) : (s.trap c ret).repiA = false := rfl
@[simp] theorem State.trap_repiN (c : TrapCause) (ret : Ptr) : (s.trap c ret).repiN = s.repiN := rfl
@[simp] theorem State.trap_reprA (c : TrapCause) (ret : Ptr) : (s.trap c ret).reprA = false := rfl
@[simp] theorem State.trap_reprR (c : TrapCause) (ret : Ptr) : (s.trap c ret).reprR = s.reprR := rfl
@[simp] theorem State.trap_halted (c : TrapCause) (ret : Ptr) : (s.trap c ret).halted = false := rfl
@[simp] theorem State.trap_requests (c : TrapCause) (ret : Ptr) : (s.trap c ret).requests = s.requests := rfl
@[simp] theorem State.trap_freeCount (c : TrapCause) (ret : Ptr) : (s.trap c ret).freeCount = s.freeCount := rfl
@[simp] theorem State.trap_map (c : TrapCause) (ret : Ptr) : (s.trap c ret).map = s.map := rfl
@[simp] theorem State.raise_flags (c : TrapCause) (a ret : Ptr) : (s.raise c a ret).flags = s.flags := rfl
@[simp] theorem State.raise_irl (c : TrapCause) (a ret : Ptr) : (s.raise c a ret).irl = c.irlOnEntry s.irl := rfl
@[simp] theorem State.raise_repiA (c : TrapCause) (a ret : Ptr) : (s.raise c a ret).repiA = false := rfl
@[simp] theorem State.raise_repiN (c : TrapCause) (a ret : Ptr) : (s.raise c a ret).repiN = s.repiN := rfl
@[simp] theorem State.raise_reprA (c : TrapCause) (a ret : Ptr) : (s.raise c a ret).reprA = false := rfl
@[simp] theorem State.raise_reprR (c : TrapCause) (a ret : Ptr) : (s.raise c a ret).reprR = s.reprR := rfl
@[simp] theorem State.raise_halted (c : TrapCause) (a ret : Ptr) : (s.raise c a ret).halted = false := rfl
@[simp] theorem State.raise_requests (c : TrapCause) (a ret : Ptr) : (s.raise c a ret).requests = s.requests := rfl
@[simp] theorem State.raise_freeCount (c : TrapCause) (a ret : Ptr) : (s.raise c a ret).freeCount = s.freeCount := rfl
@[simp] theorem State.raise_map (c : TrapCause) (a ret : Ptr) : (s.raise c a ret).map = s.map := rfl
@[simp] theorem State.raise_pgc (c : TrapCause) (a ret : Ptr) : (s.raise c a ret).pgc = c.vector &&& 0xFFFFFE := rfl

end Sys2Proof.Machine
end

