-- ==== Sys2Proof/Laws/Memory.lean ====
section
/-! SUPPORT. Memory: a read after a write, and that every memory operation keeps the canonical form. -/

namespace Sys2Proof.Machine

/-! ### The list of cells -/

/-- A write leaves every other address alone, in any list. -/
theorem Memory.get_set_of_ne (mem : Memory) {a b : Nat} (v : Byte) (h : b ≠ a) : (mem.set a v).get b = mem.get b := by
  induction mem with
  | nil => by_cases hv : v = Memory.unlisted <;> simp [Memory.set, Memory.get, hv, h.symm]
  | cons e rest ih =>
    obtain ⟨k, x⟩ := e
    simp only [Memory.set]
    split
    · simp only [Memory.get, ih]
    · split
      · subst k
        split <;> simp [Memory.get, h.symm]
      · split <;> simp [Memory.get, h.symm]

/-- An address below the bound of a canonical list is unlisted. -/
theorem Memory.get_of_lt {mem : Memory} {lo a : Nat} (hm : Memory.wfFrom lo mem = true) (h : a < lo) :
    mem.get a = Memory.unlisted := by
  induction mem generalizing lo with
  | nil => rfl
  | cons e rest ih =>
    obtain ⟨k, x⟩ := e
    simp only [Memory.wfFrom, Bool.and_eq_true, decide_eq_true_eq] at hm
    obtain ⟨⟨⟨h1, -⟩, -⟩, h4⟩ := hm
    rw [Memory.get, if_neg (by omega)]
    exact ih h4 (by omega)

/-- A lower bound may be lowered. -/
theorem Memory.wfFrom_mono {mem : Memory} {lo lo' : Nat} (hm : Memory.wfFrom lo mem = true) (h : lo' ≤ lo) :
    Memory.wfFrom lo' mem = true := by
  cases mem with
  | nil => rfl
  | cons e rest =>
    obtain ⟨k, x⟩ := e
    simp only [Memory.wfFrom, Bool.and_eq_true, decide_eq_true_eq] at hm ⊢
    exact ⟨⟨⟨by omega, hm.1.1.2⟩, hm.1.2⟩, hm.2⟩

/-- A read of the address just written, in a canonical list. -/
theorem Memory.get_set_self {mem : Memory} {lo : Nat} (hm : Memory.wfFrom lo mem = true) (a : Nat) (v : Byte) :
    (mem.set a v).get a = v := by
  induction mem generalizing lo with
  | nil =>
    simp only [Memory.set]
    split <;> simp_all [Memory.get]
  | cons e rest ih =>
    obtain ⟨k, x⟩ := e
    simp only [Memory.wfFrom, Bool.and_eq_true, decide_eq_true_eq] at hm
    obtain ⟨-, h4⟩ := hm
    simp only [Memory.set]
    split
    · rw [Memory.get, if_neg (by omega)]
      exact ih h4
    · split
      · subst k
        split
        · rw [Memory.get_of_lt h4 (by omega)]
          simp_all
        · simp [Memory.get]
      · split
        · rw [Memory.get, if_neg (by omega), Memory.get_of_lt h4 (by omega)]
          simp_all
        · simp [Memory.get]

/-- A write inside the address space keeps the canonical form. -/
theorem Memory.wfFrom_set {mem : Memory} {lo a : Nat} (hm : Memory.wfFrom lo mem = true) (v : Byte) (ha : lo ≤ a)
    (hb : a < 2 ^ 24) : Memory.wfFrom lo (mem.set a v) = true := by
  induction mem generalizing lo with
  | nil =>
    simp only [Memory.set]
    split <;> simp_all [Memory.wfFrom]
  | cons e rest ih =>
    obtain ⟨k, x⟩ := e
    simp only [Memory.wfFrom, Bool.and_eq_true, decide_eq_true_eq, bne_iff_ne, ne_eq] at hm
    obtain ⟨⟨⟨h1, h2⟩, h3⟩, h4⟩ := hm
    simp only [Memory.set]
    split
    · simp only [Memory.wfFrom, Bool.and_eq_true, decide_eq_true_eq, bne_iff_ne, ne_eq]
      exact ⟨⟨⟨h1, h2⟩, h3⟩, ih h4 (by omega)⟩
    · split
      · subst k
        split
        · exact Memory.wfFrom_mono h4 (by omega)
        · simp_all [Memory.wfFrom]
      · split
        · simp_all [Memory.wfFrom]
        · have : a + 1 ≤ k := by omega
          simp_all [Memory.wfFrom]

theorem Memory.wf_set {mem : Memory} (hm : mem.wf = true) {a : Nat} (v : Byte) (ha : a < 2 ^ 24) :
    (mem.set a v).wf = true := Memory.wfFrom_set hm v (Nat.zero_le a) ha

/-! ### Kinds of address: they depend on the map alone -/

theorem State.isRam_congr {s t : State} (h : t.map = s.map) (a : Ptr) : t.isRam a = s.isRam a := by
  simp only [State.isRam, State.kindAt, h]

theorem State.isMemory_congr {s t : State} (h : t.map = s.map) (a : Ptr) : t.isMemory a = s.isMemory a := by
  simp only [State.isMemory, State.kindAt, h]

/-- RAM is memory. -/
theorem State.isMemory_of_isRam {s : State} {a : Ptr} (h : s.isRam a = true) : s.isMemory a = true := by
  simp only [State.isRam, State.isMemory] at *
  simp [h]

/-! ### The bus: an access to memory alone leaves it as it was -/

theorem State.didRead8_of_isMemory {s : State} {a : Ptr} (h : s.isMemory a = true) : s.didRead8 a = s := by
  simp [State.didRead8, h]

theorem State.didRead16_of_isMemory {s : State} {a : Ptr} (h : s.isMemory a = true) (h' : s.isMemory (a + 1) = true) :
    s.didRead16 a = s := by
  simp only [State.didRead16, h, h', Bool.and_self, if_true]

theorem State.didWrite8_of_isRam {s : State} {a : Ptr} (h : s.isRam a = true) (v : Byte) : s.didWrite8 a v = s := by
  simp [State.didWrite8, h]

theorem State.didWrite16_of_isRam {s : State} {a : Ptr} (h : s.isRam a = true) (h' : s.isRam (a + 1) = true) (v : Word) :
    s.didWrite16 a v = s := by
  simp only [State.didWrite16, h, h', Bool.and_self, if_true]

/-- A read whose bytes are all memory leaves the state as it was. -/
theorem State.didRead_of_isMemory {s : State} {z : Size} {a : Ptr} (h : ∀ b ∈ touched z a, s.isMemory b = true) :
    s.didRead z a = s := by
  cases z <;> simp only [touched, List.mem_cons, List.not_mem_nil, or_false, forall_eq_or_imp, forall_eq] at h <;>
    simp only [State.didRead]
  · rw [State.didRead8_of_isMemory h]
  · rw [State.didRead16_of_isMemory h.1 h.2]
  · rw [State.didRead16_of_isMemory h.1 h.2.1, State.didRead8_of_isMemory h.2.2]

/-! ### Bytes of a state -/

/-- At an address of memory a read finds the byte in `mem`, whatever the bus has seen. -/
theorem State.found_of_isMemory {s : State} {a : Ptr} (h : s.isMemory a = true) : s.found a = s.mem.get a.toNat := by
  simp only [State.found, h, if_true]

theorem State.byteAt_of_isMemory {s : State} {a : Ptr} (h : s.isMemory a = true) : s.byteAt a = s.mem.get a.toNat := by
  rw [State.byteAt, State.didRead8_of_isMemory h, State.found_of_isMemory h]

/-- A 16-bit read of memory is made of the two bytes, the lower one at the even address (20_memory.md R63, R67). -/
theorem State.wordAt_of_isMemory {s : State} {a : Ptr} (h : s.isMemory (evenAddr a) = true)
    (h' : s.isMemory (evenAddr a + 1) = true) : s.wordAt a = s.byteAt (evenAddr a + 1) ++ s.byteAt (evenAddr a) := by
  rw [State.byteAt_of_isMemory h, State.byteAt_of_isMemory h', State.wordAt]
  simp only [State.didRead16_of_isMemory h h', State.found_of_isMemory h, State.found_of_isMemory h']

/-- A 24-bit read of memory is made of the three bytes (R68). -/
theorem State.memRead_p_of_isMemory {s : State} {a : Ptr} (h : ∀ b ∈ touched .p a, s.isMemory b = true) :
    s.memRead .p a = s.byteAt (evenAddr a + 2) ++ s.byteAt (evenAddr a + 1) ++ s.byteAt (evenAddr a) := by
  simp only [touched, List.mem_cons, List.not_mem_nil, or_false, forall_eq_or_imp, forall_eq] at h
  simp only [State.memRead, State.didRead16_of_isMemory h.1 h.2.1, State.wordAt_of_isMemory h.1 h.2.1, BitVec.append_assoc]
  rfl

/-- Two states with the same map and memory read alike at an address of memory. -/
theorem State.byteAt_congr {s t : State} (h : t.mem = s.mem) (hm : t.map = s.map) {a : Ptr} (ha : s.isMemory a = true) :
    t.byteAt a = s.byteAt a := by
  rw [State.byteAt_of_isMemory ha, State.byteAt_of_isMemory (State.isMemory_congr hm a ▸ ha), h]

theorem State.byteAt_setByte_of_ne {s : State} {a b : Ptr} (v : Byte) (hb : s.isMemory b = true) (h : b ≠ a) :
    (s.setByte a v).byteAt b = s.byteAt b := by
  rw [State.byteAt_of_isMemory hb, State.byteAt_of_isMemory (s := s.setByte a v) hb, State.setByte_mem]
  split
  · exact Memory.get_set_of_ne s.mem v fun e => h (BitVec.eq_of_toNat_eq e)
  · rfl

theorem State.byteAt_setByte_self {s : State} (hs : s.mem.wf = true) {a : Ptr} (ha : s.isRam a = true) (v : Byte) :
    (s.setByte a v).byteAt a = v := by
  rw [State.byteAt_of_isMemory (s := s.setByte a v) (State.isMemory_of_isRam ha), State.setByte_mem, if_pos ha]
  exact Memory.get_set_self hs a.toNat v

theorem State.wf_setByte {s : State} (hs : s.mem.wf = true) (a : Ptr) (v : Byte) : (s.setByte a v).mem.wf = true := by
  rw [State.setByte_mem]
  split
  · exact Memory.wf_set hs v a.isLt
  · exact hs

/-- A store to an address that is not RAM leaves memory as it was. -/
theorem State.setByte_of_not_isRam {s : State} {a : Ptr} (h : s.isRam a = false) (v : Byte) : s.setByte a v = s := by
  simp [State.setByte, h]

theorem State.byteAt_didWrite8 {s : State} (a : Ptr) (v : Byte) {b : Ptr} (hb : s.isMemory b = true) :
    (s.didWrite8 a v).byteAt b = s.byteAt b :=
  State.byteAt_congr (s := s) (t := s.didWrite8 a v) rfl rfl hb

theorem State.byteAt_didWrite16 {s : State} (a : Ptr) (v : Word) {b : Ptr} (hb : s.isMemory b = true) :
    (s.didWrite16 a v).byteAt b = s.byteAt b :=
  State.byteAt_congr (s := s) (t := s.didWrite16 a v) rfl rfl hb

/-- An 8-bit write changes no other byte of memory. -/
theorem State.byteAt_write8_of_ne {s : State} {a b : Ptr} (v : Byte) (hb : s.isMemory b = true) (h : b ≠ a) :
    (s.write8 a v).byteAt b = s.byteAt b := by
  rw [State.write8, State.byteAt_didWrite8 (s := s.setByte a v) _ _ hb, State.byteAt_setByte_of_ne v hb h]

/-- A 16-bit write changes no other byte of memory. -/
theorem State.byteAt_write16_of_ne {s : State} {a b : Ptr} (v : Word) (hb : s.isMemory b = true) (h : b ≠ evenAddr a)
    (h' : b ≠ evenAddr a + 1) : (s.write16 a v).byteAt b = s.byteAt b := by
  rw [State.write16, State.byteAt_didWrite16 (s := (s.setByte _ _).setByte _ _) _ _ hb,
    State.byteAt_setByte_of_ne (s := s.setByte _ _) _ hb h', State.byteAt_setByte_of_ne _ hb h]

/-- An access changes the bytes it touches and no other byte of memory. -/
theorem State.byteAt_memWrite_of_not_mem {s : State} (z : Size) (a : Ptr) (v : BitVec z.bits) {b : Ptr}
    (hb : s.isMemory b = true) (h : b ∉ touched z a) : (s.memWrite z a v).byteAt b = s.byteAt b := by
  cases z <;> simp only [touched, List.mem_cons, List.not_mem_nil, or_false, not_or] at h <;> simp only [State.memWrite]
  · exact State.byteAt_write8_of_ne _ hb h
  · exact State.byteAt_write16_of_ne _ hb h.1 h.2
  · rw [State.byteAt_write8_of_ne (s := s.write16 _ _) _ hb h.2.2, State.byteAt_write16_of_ne _ hb h.1 h.2.1]

/-! ### The canonical form is kept by every operation that writes memory -/

theorem State.wf_write8 {s : State} (hs : s.mem.wf = true) (a : Ptr) (v : Byte) : (s.write8 a v).mem.wf = true :=
  State.wf_setByte hs a v

theorem State.wf_write16 {s : State} (hs : s.mem.wf = true) (a : Ptr) (v : Word) : (s.write16 a v).mem.wf = true :=
  State.wf_setByte (State.wf_setByte hs _ _) _ _

theorem State.wf_memWrite {s : State} (hs : s.mem.wf = true) (z : Size) (a : Ptr) (v : BitVec z.bits) :
    (s.memWrite z a v).mem.wf = true := by
  cases z
  · exact State.wf_write8 hs _ _
  · exact State.wf_write16 hs _ _
  · exact State.wf_write8 (State.wf_write16 hs _ _) _ _

theorem State.wf_push24 {s : State} (hs : s.mem.wf = true) (v : Ptr) : (s.push24 v).mem.wf = true :=
  State.wf_memWrite (s := s.setP 7 (s.sp - 4)) hs .p _ v

theorem State.wf_push16 {s : State} (hs : s.mem.wf = true) (v : Word) : (s.push16 v).mem.wf = true :=
  State.wf_memWrite (s := s.setP 7 (s.sp - 2)) hs .w _ v

theorem State.wf_trap {s : State} (hs : s.mem.wf = true) (c : TrapCause) (ret : Ptr) : (s.trap c ret).mem.wf = true :=
  State.wf_push16 (State.wf_push24 hs ret) s.wf

theorem State.wf_raise {s : State} (hs : s.mem.wf = true) (c : TrapCause) (a ret : Ptr) :
    (s.raise c a ret).mem.wf = true := State.wf_trap hs c _

theorem State.wf_loadByte {s : State} (hs : s.mem.wf = true) (a : Ptr) (v : Byte) : (s.loadByte a v).mem.wf = true :=
  Memory.wf_set hs v a.isLt

theorem State.wf_storeBytes {s : State} (hs : s.mem.wf = true) (a : Ptr) (bs : List Byte) :
    (s.storeBytes a bs).mem.wf = true := by
  induction bs generalizing s a with
  | nil => exact hs
  | cons v bs ih => exact ih (State.wf_loadByte hs a v) (a + 1)

/-- Reset's memory lists nothing and so is canonical. -/
theorem State.wf_reset : State.reset.mem.wf = true := rfl

/-- After reset every address is RAM (log entry 1). -/
theorem State.isRam_reset (a : Ptr) : State.reset.isRam a = true := by
  have h := a.isLt
  have : a.toNat < 16777216 := h
  simp [State.isRam, State.kindAt, State.reset, MemoryMap.kindAt, this]

/-! ### Even addresses -/

theorem evenAddr_toNat (a : Ptr) : (evenAddr a).toNat = a.toNat / 2 * 2 := by
  have h : evenAddr a = a >>> 1 <<< 1 := by
    apply BitVec.eq_of_getLsbD_eq
    intro i hi
    simp only [evenAddr, BitVec.getLsbD_and, BitVec.getLsbD_shiftLeft, BitVec.getLsbD_ushiftRight, hi, decide_true,
      Bool.true_and]
    interval_cases i <;> simp [BitVec.getLsbD, Nat.testBit]
  rw [h, BitVec.toNat_shiftLeft, BitVec.toNat_ushiftRight, Nat.shiftLeft_eq, Nat.shiftRight_eq_div_pow]
  omega

/-- An even distance does not meet bit 0: so PGC, whose bit 0 is cleared at each write, steps as the address does. -/
theorem evenAddr_add (a : Ptr) (k : Nat) : evenAddr (a + BitVec.ofNat 24 (2 * k)) = evenAddr a + BitVec.ofNat 24 (2 * k) := by
  apply BitVec.eq_of_toNat_eq
  rw [evenAddr_toNat, BitVec.toNat_add, BitVec.toNat_add, evenAddr_toNat, BitVec.toNat_ofNat]
  omega

theorem evenAddr_evenAddr (a : Ptr) : evenAddr (evenAddr a) = evenAddr a := by
  apply BitVec.eq_of_toNat_eq
  rw [evenAddr_toNat, evenAddr_toNat]
  omega

/-! ### A read after a write of the same size at the same address of RAM -/

/-- An even address and the two above it are three addresses. -/
theorem evenAddr_ne (a : Ptr) : evenAddr a + 1 ≠ evenAddr a ∧ evenAddr a + 2 ≠ evenAddr a ∧ evenAddr a + 2 ≠ evenAddr a + 1 := by
  refine ⟨?_, ?_, ?_⟩ <;> (generalize evenAddr a = e; bv_omega)

theorem State.byteAt_write8_self {s : State} (hs : s.mem.wf = true) {a : Ptr} (ha : s.isRam a = true) (v : Byte) :
    (s.write8 a v).byteAt a = v := by
  rw [State.write8, State.byteAt_didWrite8 (s := s.setByte a v) _ _ (State.isMemory_of_isRam ha),
    State.byteAt_setByte_self hs ha]

/-- The two bytes of RAM that a 16-bit write leaves. -/
theorem State.byteAt_write16_self {s : State} (hs : s.mem.wf = true) {a : Ptr} (ha : s.isRam (evenAddr a) = true)
    (ha' : s.isRam (evenAddr a + 1) = true) (v : Word) :
    (s.write16 a v).byteAt (evenAddr a) = v.extractLsb' 0 8 ∧
      (s.write16 a v).byteAt (evenAddr a + 1) = v.extractLsb' 8 8 := by
  constructor
  · rw [State.write16, State.byteAt_didWrite16 (s := (s.setByte _ _).setByte _ _) _ _ (State.isMemory_of_isRam ha),
      State.byteAt_setByte_of_ne (s := s.setByte _ _) _ (State.isMemory_of_isRam ha) (evenAddr_ne a).1.symm,
      State.byteAt_setByte_self hs ha]
  · rw [State.write16, State.byteAt_didWrite16 (s := (s.setByte _ _).setByte _ _) _ _ (State.isMemory_of_isRam ha'),
      State.byteAt_setByte_self (s := s.setByte _ _) (State.wf_setByte hs _ _) ha']

theorem State.memRead_memWrite_self {s : State} (hs : s.mem.wf = true) {z : Size} {a : Ptr}
    (ha : ∀ b ∈ touched z a, s.isRam b = true) (v : BitVec z.bits) : (s.memWrite z a v).memRead z a = v := by
  obtain ⟨h1, h2, h3⟩ := evenAddr_ne a
  cases z with
  | b => exact State.byteAt_write8_self hs (ha a (by simp [touched])) v
  | w =>
    have r0 : s.isRam (evenAddr a) = true := ha _ (by simp [touched])
    have r1 : s.isRam (evenAddr a + 1) = true := ha _ (by simp [touched])
    have hw : (s.write16 a v).wordAt a = _ := State.wordAt_of_isMemory (s := s.write16 a v) (State.isMemory_of_isRam r0)
      (State.isMemory_of_isRam r1)
    simp only [State.memWrite, State.memRead]
    rw [hw, (State.byteAt_write16_self hs r0 r1 v).1, (State.byteAt_write16_self hs r0 r1 v).2]
    exact BitVec.extractLsb'_append_extractLsb'_eq_extractLsb' (w := 16) (by rfl) |>.trans (by simp)
  | p =>
    have r0 : s.isRam (evenAddr a) = true := ha _ (by simp [touched])
    have r1 : s.isRam (evenAddr a + 1) = true := ha _ (by simp [touched])
    have r2 : s.isRam (evenAddr a + 2) = true := ha _ (by simp [touched])
    have hb := State.byteAt_write16_self hs r0 r1 (v.extractLsb' 0 16)
    rw [State.memRead_p_of_isMemory]
    · simp only [State.memWrite]
      rw [State.byteAt_write8_self (State.wf_write16 hs _ _) r2,
        State.byteAt_write8_of_ne (s := s.write16 _ _) _ (State.isMemory_of_isRam r1) h3.symm,
        State.byteAt_write8_of_ne (s := s.write16 _ _) _ (State.isMemory_of_isRam r0) h2.symm, hb.1, hb.2]
      apply BitVec.eq_of_getLsbD_eq
      intro i hi
      simp only [BitVec.getLsbD_append, BitVec.getLsbD_extractLsb']
      interval_cases i <;> simp <;> rfl
    · intro b hb'
      exact (State.isMemory_congr (State.memWrite_map s .p a v) b).trans (State.isMemory_of_isRam (ha b hb'))

end Sys2Proof.Machine
end

