-- ==== Sys2Proof/Laws/Encoding.lean ====
section
/-! SUPPORT. The encoder's pieces are what the decoder's pieces read: bytes and words, the fields of a first word, extension
words. A proof about one instruction cites these and opens only its own arm of the opcode map. -/

namespace Sys2Proof

theorem append_toNat {a b : Nat} (x : BitVec a) (y : BitVec b) : (x ++ y).toNat = x.toNat * 2 ^ b + y.toNat := by
  have := y.isLt
  simp only [BitVec.toNat_append, Nat.shiftLeft_eq]
  rw [Nat.mul_comm, ← Nat.two_pow_add_eq_or_of_lt this]

/-! ### Bytes and words -/

theorem wordsOfBytes_bytesOfWords (ws : List Word) : wordsOfBytes (bytesOfWords ws) = ws := by
  induction ws with
  | nil => rfl
  | cons w ws ih =>
    simp only [bytesOfWords, wordsOfBytes, ih, List.cons.injEq, and_true]
    apply BitVec.eq_of_toNat_eq
    have h : BitVec.toNat (w := 16) (w.extractLsb' 8 8 ++ w.extractLsb' 0 8) = _ := append_toNat _ _
    have := w.isLt
    rw [h]
    simp only [BitVec.extractLsb'_toNat, Nat.shiftRight_eq_div_pow]
    omega

/-- The decoder on bytes is the decoder on words. -/
theorem decode_bytesOfWords (ws : List Word) : decode (bytesOfWords ws) = decodeWords ws := by
  rw [decode, wordsOfBytes_bytesOfWords]

/-! ### The first word -/

theorem FirstWord.join_toNat (f : FirstWord) : f.join.toNat =
    f.zz.toNat * 16384 + f.c.toNat * 4096 + f.b.toNat * 2048 + f.r.toNat * 256 + f.f.toNat * 64 + f.m.toNat := by
  have h : f.join.toNat = _ := append_toNat (f.zz ++ f.c ++ f.b ++ f.r ++ f.f) f.m
  rw [h, append_toNat, append_toNat, append_toNat, append_toNat]
  omega

/-- The six fields are read where they were written. -/
theorem FirstWord.split_join (f : FirstWord) : FirstWord.split f.join = f := by
  have h := f.join_toNat
  obtain ⟨zz, c, b, r, f, m⟩ := f
  simp only at h
  have := zz.isLt; have := c.isLt; have := b.isLt; have := r.isLt; have := f.isLt; have := m.isLt
  simp only [FirstWord.split, FirstWord.mk.injEq]
  refine ⟨?_, ?_, ?_, ?_, ?_, ?_⟩ <;> apply BitVec.eq_of_toNat_eq <;>
    simp only [BitVec.extractLsb'_toNat, h, Nat.shiftRight_eq_div_pow] <;> omega

/-- The six fields are all of the first word. -/
theorem FirstWord.join_split (w : Word) : (FirstWord.split w).join = w := by
  apply BitVec.eq_of_toNat_eq
  rw [FirstWord.join_toNat]
  have := w.isLt
  simp only [FirstWord.split, BitVec.extractLsb'_toNat, Nat.shiftRight_eq_div_pow]
  omega

@[simp] theorem Size.ofBits_toBits (z : Size) : Size.ofBits z.toBits = some z := by cases z <;> rfl

theorem split_sizedWord (z : Size) (c : BitVec 2) (b : BitVec 1) (r : RegNum) (f : BitVec 2) (m : Rm) :
    FirstWord.split (sizedWord z c b r f m) = ⟨z.toBits, c, b, r, f, m.field⟩ := FirstWord.split_join _

theorem split_plainWord (c : BitVec 2) (b : BitVec 1) (r : RegNum) (f : BitVec 2) (m : Rm) :
    FirstWord.split (plainWord c b r f m) = ⟨3, c, b, r, f, m.field⟩ := FirstWord.split_join _

theorem split_lowWord (c : BitVec 2) (b : BitVec 1) (r : RegNum) (n : Byte) :
    FirstWord.split (lowWord c b r n) = ⟨3, c, b, r, n.extractLsb' 6 2, n.extractLsb' 0 6⟩ := FirstWord.split_join _

/-- The 8-bit field of a first word in two parts is the field. -/
theorem low_parts : ∀ n : Byte, n.extractLsb' 6 2 ++ n.extractLsb' 0 6 = n := by decide

/-- The LD destination field in three parts is the field. -/
theorem dst_parts : ∀ d : BitVec 6, d.extractLsb' 5 1 ++ d.extractLsb' 2 3 ++ d.extractLsb' 0 2 = d := by decide

theorem cond_parts (cc : Cond) :
    Cond.ofCode (cc.code.extractLsb' 3 1 ++ cc.code.extractLsb' 0 3) = some cc := by cases cc <;> rfl

/-! ### Extension words -/

@[simp] theorem Index.ofByte_toByte (ix : Index) : Index.ofByte ix.toByte = some ix := by
  cases ix with
  | byte isSigned r => revert isSigned r; decide
  | word isSigned r => revert isSigned r; decide
  | ptr r => revert r; decide

/-- The number of a Register Index Word. -/
theorem regIndexWord_toNat (ix : Byte) (base : RegNum) :
    BitVec.toNat (w := 16) (ix ++ 0#3 ++ base ++ 0#2) = ix.toNat * 256 + base.toNat * 4 := by
  have h : BitVec.toNat (w := 16) (ix ++ 0#3 ++ base ++ 0#2) = _ := append_toNat (ix ++ 0#3 ++ base) 0#2
  rw [h, append_toNat, append_toNat]
  simp
  omega

theorem Rm.ofRegIndexWord_words (base : RegNum) (ix : Index) :
    Rm.ofRegIndexWord (ix.toByte ++ 0#3 ++ base ++ 0#2) = .regIdx base ix := by
  have hn := regIndexWord_toNat ix.toByte base
  have := base.isLt
  have := ix.toByte.isLt
  have h8 : BitVec.extractLsb' (n := 16) 8 8 (ix.toByte ++ 0#3 ++ base ++ 0#2) = ix.toByte := by
    apply BitVec.eq_of_toNat_eq; rw [BitVec.extractLsb'_toNat, hn, Nat.shiftRight_eq_div_pow]; omega
  have h5 : BitVec.extractLsb' (n := 16) 5 3 (ix.toByte ++ 0#3 ++ base ++ 0#2) = 0 := by
    apply BitVec.eq_of_toNat_eq; rw [BitVec.extractLsb'_toNat, hn, Nat.shiftRight_eq_div_pow]; simp; omega
  have h0 : BitVec.extractLsb' (n := 16) 0 2 (ix.toByte ++ 0#3 ++ base ++ 0#2) = 0 := by
    apply BitVec.eq_of_toNat_eq; rw [BitVec.extractLsb'_toNat, hn, Nat.shiftRight_eq_div_pow]; simp; omega
  have h2 : BitVec.extractLsb' (n := 16) 2 3 (ix.toByte ++ 0#3 ++ base ++ 0#2) = base := by
    apply BitVec.eq_of_toNat_eq; rw [BitVec.extractLsb'_toNat, hn, Nat.shiftRight_eq_div_pow]; omega
  simp [Rm.ofRegIndexWord, h8, h5, h0, h2]

theorem Rm.ofAbsIndexWords_words (base : Ptr) (ix : Index) :
    Rm.ofAbsIndexWords (base.extractLsb' 0 16) (ix.toByte ++ base.extractLsb' 16 8) = .absIdx base ix := by
  have := base.isLt
  have := ix.toByte.isLt
  have hn : BitVec.toNat (w := 16) (ix.toByte ++ base.extractLsb' 16 8) =
      ix.toByte.toNat * 256 + base.toNat / 65536 := by
    have h : BitVec.toNat (w := 16) (ix.toByte ++ base.extractLsb' 16 8) = _ := append_toNat _ _
    rw [h, BitVec.extractLsb'_toNat, Nat.shiftRight_eq_div_pow]
    omega
  have h8 : BitVec.extractLsb' (n := 16) 8 8 (ix.toByte ++ base.extractLsb' 16 8) = ix.toByte := by
    apply BitVec.eq_of_toNat_eq; rw [BitVec.extractLsb'_toNat, hn, Nat.shiftRight_eq_div_pow]; omega
  simp only [Rm.ofAbsIndexWords, h8, Index.ofByte_toByte, Rm.absIdx.injEq, and_true]
  apply BitVec.eq_of_toNat_eq
  have h : BitVec.toNat (w := 24)
      (BitVec.setWidth (w := 16) 8 (ix.toByte ++ base.extractLsb' 16 8) ++ base.extractLsb' 0 16) = _ := append_toNat _ _
  rw [h, BitVec.toNat_setWidth, hn, BitVec.extractLsb'_toNat]
  omega

theorem takeImm24_imm24Words (v : Ptr) (ws : List Word) : takeImm24 (imm24Words v ++ ws) = some (v, ws) := by
  simp only [imm24Words, List.cons_append, List.nil_append, takeImm24, Option.some.injEq, Prod.mk.injEq, and_true]
  apply BitVec.eq_of_toNat_eq
  have h : BitVec.toNat (w := 24)
      (((v.extractLsb' 16 8).setWidth 16).setWidth 8 ++ v.extractLsb' 0 16) = _ := append_toNat _ _
  have := v.isLt
  rw [h]
  simp only [BitVec.toNat_setWidth, BitVec.extractLsb'_toNat, Nat.shiftRight_eq_div_pow]
  omega

/-- `imm*` is read back when it fits the size (R101). -/
theorem takeImm_immWordList (z : Size) (imm : Ptr) (h : z.fits imm = true) (ws : List Word) :
    takeImm z (z.immWordList imm ++ ws) = some (imm, ws) := by
  have := imm.isLt
  cases z with
  | b =>
    have hn := congrArg BitVec.toNat (eq_of_beq h)
    simp only [Size.bits, BitVec.toNat_setWidth] at hn
    simp only [Size.immWordList, List.cons_append, List.nil_append, takeImm, takeWord, Option.map_some, Option.some.injEq,
      Prod.mk.injEq, and_true]
    apply BitVec.eq_of_toNat_eq
    simp only [BitVec.toNat_setWidth, BitVec.extractLsb'_toNat, Nat.shiftRight_eq_div_pow]
    omega
  | w =>
    have hn := congrArg BitVec.toNat (eq_of_beq h)
    simp only [Size.bits, BitVec.toNat_setWidth] at hn
    simp only [Size.immWordList, List.cons_append, List.nil_append, takeImm, takeWord, Option.map_some, Option.some.injEq,
      Prod.mk.injEq, and_true]
    apply BitVec.eq_of_toNat_eq
    simp only [BitVec.toNat_setWidth, BitVec.extractLsb'_toNat, Nat.shiftRight_eq_div_pow]
    omega
  | p => exact takeImm24_imm24Words imm ws

/-! ### RM operands -/

theorem Rm.field_of_reg : ∀ (high : Bool) (r : RegNum) (k : BitVec 2),
    (BitVec.ofBool high ++ r ++ k).extractLsb' 2 3 = r ∧ (BitVec.ofBool high ++ r ++ k).getLsbD 5 = high ∧
      (BitVec.ofBool high ++ r ++ k).extractLsb' 0 2 = k := by decide

theorem Rm.field_of_short : ∀ n : BitVec 4,
    (n ++ 3#2).extractLsb' 2 4 = n ∧ (n ++ 3#2).extractLsb' 0 2 = 3#2 := by decide

/-- The operand of a field and its words, whatever words follow. -/
theorem Rm.decode_words (m : Rm) (hm : m.wellFormed = true) (ws : List Word) :
    Rm.decode m.field (m.words ++ ws) = some (m, ws) := by
  have hreg := Rm.field_of_reg
  cases m with
  | reg r => obtain ⟨h1, h2, h3⟩ := hreg false r 0; simp_all [Rm.decode, Rm.words, Rm.field]
  | rel r d => obtain ⟨h1, h2, h3⟩ := hreg false r 1; simp_all [Rm.decode, Rm.words, Rm.field, takeWord]
  | ind r => obtain ⟨h1, h2, h3⟩ := hreg false r 2; simp_all [Rm.decode, Rm.words, Rm.field]
  | postInc r => obtain ⟨h1, h2, h3⟩ := hreg true r 0; simp_all [Rm.decode, Rm.words, Rm.field]
  | preDec r => obtain ⟨h1, h2, h3⟩ := hreg true r 2; simp_all [Rm.decode, Rm.words, Rm.field]
  | short n => obtain ⟨h1, h2⟩ := Rm.field_of_short n; simp_all [Rm.decode, Rm.words, Rm.field]
  | imm16 d | abs16 d | pcRel16 d => simp [Rm.decode, Rm.field, Rm.words, takeWord]
  | imm24 v | abs24 v | pcRel24 v => simp [Rm.decode, Rm.field, Rm.words, takeImm24_imm24Words]
  | regIdx b ix =>
    simp only [Rm.decode, Rm.field, Rm.words, takeWord]
    simpa using Rm.ofRegIndexWord_words b ix
  | absIdx b ix =>
    simp only [Rm.decode, Rm.field, Rm.words]
    simpa using Rm.ofAbsIndexWords_words b ix
  | badRegIdx _ | badAbsIdx _ _ => simp [Rm.wellFormed] at hm

theorem decodeRm_words (k : Rm → Instr) (m : Rm) (hm : m.wellFormed = true) (ws : List Word) :
    decodeRm k m.field (m.words ++ ws) = .ok (k m) := by
  rw [decodeRm, Rm.decode_words m hm]

theorem decodeRmImm_words (k : Rm → Ptr → Instr) (z : Size) (m : Rm) (imm : Ptr) (hm : m.wellFormed = true)
    (hi : z.fits imm = true) (ws : List Word) :
    decodeRmImm k z m.field (z.immWordList imm ++ m.words ++ ws) = .ok (k m imm) := by
  rw [decodeRmImm, List.append_assoc, takeImm_immWordList z imm hi]
  exact decodeRm_words _ m hm ws

theorem decodeDstSrc_words (k : Rm → Rm → Instr) (d m : Rm) (hd : d.wellFormed = true) (hm : m.wellFormed = true)
    (ws : List Word) : decodeDstSrc k d.field m.field (m.words ++ d.words ++ ws) = .ok (k d m) := by
  rw [decodeDstSrc, List.append_assoc, Rm.decode_words m hm]
  exact decodeRm_words _ d hd ws

theorem decodeHml_words (k : Ptr → Instr) (v : Ptr) (ws : List Word) :
    decodeHml k (v.extractLsb' 16 8) (v.extractLsb' 0 16 :: ws) = .ok (k v) := by
  have h : (v.extractLsb' 16 8 ++ v.extractLsb' 0 16 : BitVec 24) = v := by
    apply BitVec.eq_of_toNat_eq
    have h : BitVec.toNat (w := 24) (v.extractLsb' 16 8 ++ v.extractLsb' 0 16) = _ := append_toNat _ _
    have := v.isLt
    rw [h]
    simp only [BitVec.extractLsb'_toNat, Nat.shiftRight_eq_div_pow]
    omega
  simp only [decodeHml, takeWord]
  rw [h]

/-- What the opcode map answers is the decoder's answer when it is well formed. -/
theorem decodeWords_cons (w : Word) (ws : List Word) (i : Instr) (h : decodeFields (FirstWord.split w) ws = .ok i)
    (hi : i.wellFormed = true) : decodeWords (w :: ws) = .ok i := by
  simp only [decodeWords, h, hi, if_true]

theorem Rm.length_words (m : Rm) : m.words.length = m.ext := by cases m <;> rfl

theorem Size.length_immWordList (z : Size) (imm : Ptr) : (z.immWordList imm).length = z.immWords := by cases z <;> rfl

end Sys2Proof
end

