-- ==== Sys2Proof/Laws/Registers.lean ====
section
/-! SUPPORT. The general registers and the status register: a read after a write. -/

namespace Sys2Proof.Machine

/-! ### P0 to P7 -/

@[simp] theorem State.getP_setP_self (s : State) (i : RegNum) (v : Ptr) : (s.setP i v).getP i = v := by
  simp [State.getP, State.setP]

theorem State.getP_setP_of_ne (s : State) {i j : RegNum} (v : Ptr) (h : j ≠ i) : (s.setP i v).getP j = s.getP j := by
  have : i.toNat ≠ j.toNat := fun e => h (BitVec.eq_of_toNat_eq e.symm)
  simp [State.getP, State.setP, Vector.getElem_set_ne _ _ this]

theorem State.getP_congr {s t : State} (h : t.p = s.p) (i : RegNum) : t.getP i = s.getP i := by
  simp only [State.getP, h]

theorem State.getR_congr {s t : State} (h : t.p = s.p) (z : Size) (i : RegNum) : t.getR z i = s.getR z i := by
  cases z <;> simp only [State.getR, State.getP_congr h]

@[simp] theorem State.setP_getP (s : State) (i : RegNum) : s.setP i (s.getP i) = s := by
  simp [State.getP, State.setP]

/-! ### The P register behind a name -/

/-- The P register that the name of number `i` at size `z` lies in (10_state.md R22). -/
def home (z : Size) (i : RegNum) : RegNum :=
  match z with
  | .b => byteHome i
  | .w | .p => i

/-- A write through a name leaves the other P registers alone. -/
theorem State.getP_setR_of_ne (s : State) (z : Size) {i j : RegNum} (v : BitVec z.bits) (h : j ≠ home z i) :
    (s.setR z i v).getP j = s.getP j := by
  cases z with
  | b => simp only [State.setR]; split <;> exact State.getP_setP_of_ne s _ h
  | w | p => exact State.getP_setP_of_ne s _ h

theorem ptr_parts (a : Byte) (b : Byte) (c : Byte) :
    BitVec.toNat (w := 24) (a ++ b ++ c) = a.toNat * 65536 + b.toNat * 256 + c.toNat := by
  have h : BitVec.toNat (w := 24) (a ++ b ++ c) = _ := append_toNat (a ++ b) c
  rw [h, append_toNat]
  omega

theorem ptr_high_low (a : Byte) (b : Word) : BitVec.toNat (w := 24) (a ++ b) = a.toNat * 65536 + b.toNat := by
  have h : BitVec.toNat (w := 24) (a ++ b) = _ := append_toNat a b
  omega

theorem ptr_low (a : Word) (b : Byte) : BitVec.toNat (w := 24) (a ++ b) = a.toNat * 256 + b.toNat := by
  have h : BitVec.toNat (w := 24) (a ++ b) = _ := append_toNat a b
  omega

/-- A read through the name just written. -/
@[simp] theorem State.getR_setR_self (s : State) (z : Size) (i : RegNum) (v : BitVec z.bits) :
    (s.setR z i v).getR z i = v := by
  cases z with
  | b =>
    have := v.isLt
    by_cases h : i.getLsbD 2 = true
    · simp only [State.setR, State.getR, h, if_true, State.getP_setP_self]
      apply BitVec.eq_of_toNat_eq
      rw [BitVec.extractLsb'_toNat, ptr_parts, Nat.shiftRight_eq_div_pow]
      have := ((s.getP (byteHome i)).extractLsb' 0 8).isLt
      simp only [Size.bits] at *
      omega
    · simp only [State.setR, State.getR, h, Bool.false_eq_true, if_false, State.getP_setP_self]
      apply BitVec.eq_of_toNat_eq
      rw [BitVec.extractLsb'_toNat, ptr_low, Nat.shiftRight_eq_div_pow]
      simp only [Size.bits] at *
      omega
  | w =>
    have := v.isLt
    simp only [State.setR, State.getR, State.getP_setP_self]
    apply BitVec.eq_of_toNat_eq
    rw [BitVec.extractLsb'_toNat, ptr_high_low, Nat.shiftRight_eq_div_pow]
    simp only [Size.bits] at *
    omega
  | p => exact State.getP_setP_self s i v

/-! ### The status register -/

/-- F holds what was written, but for its two fixed zeros (10_state.md R28). -/
theorem State.fByte_setF (s : State) (v : Byte) : (s.setF v).fByte = v &&& 0xCF := by
  have : ∀ v : Byte, (State.reset.setF v).fByte = v &&& 0xCF := by decide
  exact this v

/-- Writing back the WF that was read changes neither the flags nor IRL. -/
theorem State.setWf_wf (s : State) : s.setWf s.wf = s := by
  have hf : ∀ f : Flags, flagsOfByte (State.fByte { State.reset with flags := f }) = f := by
    rintro ⟨_ | _, _ | _, _ | _, _ | _, _ | _, _ | _⟩ <;> rfl
  have h0 : s.wf.extractLsb' 0 8 = s.fByte := by
    apply BitVec.eq_of_toNat_eq
    have h : BitVec.toNat (w := 16) s.wf = _ := append_toNat (0#5 ++ s.irl) s.fByte
    rw [BitVec.extractLsb'_toNat, h, Nat.shiftRight_eq_div_pow]
    have := s.fByte.isLt
    omega
  have h8 : s.wf.extractLsb' 8 3 = s.irl := by
    apply BitVec.eq_of_toNat_eq
    have h : BitVec.toNat (w := 16) s.wf = _ := append_toNat (0#5 ++ s.irl) s.fByte
    rw [BitVec.extractLsb'_toNat, h, append_toNat, Nat.shiftRight_eq_div_pow]
    have := s.fByte.isLt
    have := s.irl.isLt
    simp
    omega
  have hflags : flagsOfByte s.fByte = s.flags := hf s.flags
  simp only [State.setWf, State.setF, State.setIrl, h0, h8, hflags]

/-! ### The program counter -/

/-- Bit 0 of PGC is 0 after every write (10_state.md R31). -/
theorem State.setPgc_even (s : State) (v : Ptr) : (s.setPgc v).pgc.getLsbD 0 = false := by
  simp [State.setPgc]

theorem and_fixedZero_of_even {v : Ptr} (h : v.getLsbD 0 = false) : v &&& 0xFFFFFE = v := by
  apply BitVec.eq_of_getLsbD_eq
  intro i hi
  rw [BitVec.getLsbD_and]
  interval_cases i <;> simp_all

end Sys2Proof.Machine
end

