-- ==== Sys2Proof/Laws/Operands.lean ====
section
/-! SUPPORT. The operand operations: what each can do, said once. A proof about an instruction cites `withOperand_wellFormed`,
`modify_wellFormed` and the like and does not unfold them. -/

namespace Sys2Proof.Machine

/-! ### Resolution -/

/-- A well-formed operand resolves to its location and the state after its auto-modify. -/
theorem resolve_wellFormed {m : Rm} (h : m.wellFormed = true) (z : Size) (s : State) :
    resolve z m s = some (locate z m s, autoModify z m s) := by simp only [resolve, h, if_true]

/-- A malformed operand does not resolve. -/
theorem resolve_malformed {m : Rm} (h : m.wellFormed = false) (z : Size) (s : State) : resolve z m s = none := by
  simp only [resolve, h, Bool.false_eq_true, if_false]

section
variable (z : Size) (m : Rm) (s : State)

@[simp] theorem autoModify_pgc : (autoModify z m s).pgc = s.pgc := by cases m <;> rfl
@[simp] theorem autoModify_flags : (autoModify z m s).flags = s.flags := by cases m <;> rfl
@[simp] theorem autoModify_irl : (autoModify z m s).irl = s.irl := by cases m <;> rfl
@[simp] theorem autoModify_repiA : (autoModify z m s).repiA = s.repiA := by cases m <;> rfl
@[simp] theorem autoModify_repiN : (autoModify z m s).repiN = s.repiN := by cases m <;> rfl
@[simp] theorem autoModify_reprA : (autoModify z m s).reprA = s.reprA := by cases m <;> rfl
@[simp] theorem autoModify_reprR : (autoModify z m s).reprR = s.reprR := by cases m <;> rfl
@[simp] theorem autoModify_halted : (autoModify z m s).halted = s.halted := by cases m <;> rfl
@[simp] theorem autoModify_mem : (autoModify z m s).mem = s.mem := by cases m <;> rfl
@[simp] theorem autoModify_requests : (autoModify z m s).requests = s.requests := by cases m <;> rfl
@[simp] theorem autoModify_freeCount : (autoModify z m s).freeCount = s.freeCount := by cases m <;> rfl
@[simp] theorem autoModify_map : (autoModify z m s).map = s.map := by cases m <;> rfl
@[simp] theorem autoModify_bus : (autoModify z m s).bus = s.bus := by cases m <;> rfl

/-- Only the base register of an auto-modify form changes. -/
theorem getP_autoModify_of_ne {j : RegNum} (h : m ≠ .postInc j) (h' : m ≠ .preDec j) :
    (autoModify z m s).getP j = s.getP j := by
  cases m <;> try rfl
  · exact State.getP_setP_of_ne s _ fun e => h (e ▸ rfl)
  · exact State.getP_setP_of_ne s _ fun e => h' (e ▸ rfl)

end

/-! ### Reading and writing -/

section
variable {z : Size} (l : Loc z) (v : BitVec z.bits) (s : State)

@[simp] theorem afterRead_p : (afterRead l s).p = s.p := by cases l <;> rfl
@[simp] theorem afterRead_pgc : (afterRead l s).pgc = s.pgc := by cases l <;> rfl
@[simp] theorem afterRead_flags : (afterRead l s).flags = s.flags := by cases l <;> rfl
@[simp] theorem afterRead_irl : (afterRead l s).irl = s.irl := by cases l <;> rfl
@[simp] theorem afterRead_repiA : (afterRead l s).repiA = s.repiA := by cases l <;> rfl
@[simp] theorem afterRead_repiN : (afterRead l s).repiN = s.repiN := by cases l <;> rfl
@[simp] theorem afterRead_reprA : (afterRead l s).reprA = s.reprA := by cases l <;> rfl
@[simp] theorem afterRead_reprR : (afterRead l s).reprR = s.reprR := by cases l <;> rfl
@[simp] theorem afterRead_halted : (afterRead l s).halted = s.halted := by cases l <;> rfl
@[simp] theorem afterRead_mem : (afterRead l s).mem = s.mem := by cases l <;> rfl
@[simp] theorem afterRead_requests : (afterRead l s).requests = s.requests := by cases l <;> rfl
@[simp] theorem afterRead_freeCount : (afterRead l s).freeCount = s.freeCount := by cases l <;> rfl
@[simp] theorem afterRead_map : (afterRead l s).map = s.map := by cases l <;> rfl

/-- A read of anything but a device or an empty address leaves the whole state as it was. -/
theorem afterRead_of_isMemory (h : ∀ ea, l = .mem ea → ∀ b ∈ touched z ea, s.isMemory b = true) : afterRead l s = s := by
  cases l with
  | reg i => rfl
  | mem ea => exact State.didRead_of_isMemory (h ea rfl)
  | imm _ => rfl

@[simp] theorem writeOp_pgc : (writeOp l v s).pgc = s.pgc := by cases l <;> simp [writeOp]
@[simp] theorem writeOp_flags : (writeOp l v s).flags = s.flags := by cases l <;> simp [writeOp]
@[simp] theorem writeOp_irl : (writeOp l v s).irl = s.irl := by cases l <;> simp [writeOp]
@[simp] theorem writeOp_repiA : (writeOp l v s).repiA = s.repiA := by cases l <;> simp [writeOp]
@[simp] theorem writeOp_repiN : (writeOp l v s).repiN = s.repiN := by cases l <;> simp [writeOp]
@[simp] theorem writeOp_reprA : (writeOp l v s).reprA = s.reprA := by cases l <;> simp [writeOp]
@[simp] theorem writeOp_reprR : (writeOp l v s).reprR = s.reprR := by cases l <;> simp [writeOp]
@[simp] theorem writeOp_halted : (writeOp l v s).halted = s.halted := by cases l <;> simp [writeOp]
@[simp] theorem writeOp_requests : (writeOp l v s).requests = s.requests := by cases l <;> simp [writeOp]
@[simp] theorem writeOp_freeCount : (writeOp l v s).freeCount = s.freeCount := by cases l <;> simp [writeOp]
@[simp] theorem writeOp_map : (writeOp l v s).map = s.map := by cases l <;> simp [writeOp]

/-- A write to an operand changes no byte of memory but those its location touches. -/
theorem byteAt_writeOp {b : Ptr} (hb : s.isMemory b = true) (h : ∀ ea, l = .mem ea → b ∉ touched z ea) :
    (writeOp l v s).byteAt b = s.byteAt b := by
  cases l with
  | reg i => exact State.byteAt_congr (State.setR_mem s z i v) (State.setR_map s z i v) hb
  | mem ea => exact State.byteAt_memWrite_of_not_mem z ea v hb (h ea rfl)
  | imm _ => rfl

/-- A write to an operand keeps memory canonical. -/
theorem wf_writeOp (hs : s.mem.wf = true) : (writeOp l v s).mem.wf = true := by
  cases l with
  | reg i => simpa [writeOp] using hs
  | mem ea => exact State.wf_memWrite hs z ea v
  | imm _ => exact hs

/-- A write to an operand changes no P register but the one its location lies in. -/
theorem getP_writeOp (j : RegNum) (h : ∀ i, l = .reg i → j ≠ home z i) : (writeOp l v s).getP j = s.getP j := by
  cases l with
  | reg i => exact State.getP_setR_of_ne s z v (h i rfl)
  | mem ea => exact State.getP_congr (State.memWrite_p s z ea v) j
  | imm _ => rfl

end

/-! ### The shapes -/

/-- Everything `withOperand` can do: take the illegal-instruction trap, or go on with the operand. -/
theorem withOperand_cases (z : Size) (k : Nat) (m : Rm) (s : State) (body : Loc z → State → State) :
    (m.wellFormed = false ∧
      withOperand z k m s body = (s.advance k).raise .illegalInstruction s.pgc (s.advance k).pgc) ∨
    (m.wellFormed = true ∧
      withOperand z k m s body = body (locate z m (s.advance k)) (autoModify z m (s.advance k))) := by
  cases h : m.wellFormed
  · exact .inl ⟨rfl, by simp only [withOperand, resolve_malformed h]⟩
  · exact .inr ⟨rfl, by simp only [withOperand, resolve_wellFormed h]⟩

variable {m : Rm} (h : m.wellFormed = true)
include h

theorem withOperand_wellFormed (z : Size) (k : Nat) (s : State) (body : Loc z → State → State) :
    withOperand z k m s body = body (locate z m (s.advance k)) (autoModify z m (s.advance k)) := by
  simp only [withOperand, resolve_wellFormed h]

theorem withSource_wellFormed (z : Size) (k : Nat) (s : State) (body : BitVec z.bits → State → State) :
    withSource z k m s body =
      let s' := autoModify z m (s.advance k)
      let l := locate z m (s.advance k)
      body (readOp l s') (afterRead l s') :=
  withOperand_wellFormed h z k s _

theorem modify_wellFormed (z : Size) (k : Nat) (s : State) (f : BitVec z.bits → State → BitVec z.bits × State) :
    modify z k m s f =
      let s' := autoModify z m (s.advance k)
      let l := locate z m (s.advance k)
      writeOp l (f (readOp l s') (afterRead l s')).1 (f (readOp l s') (afterRead l s')).2 :=
  withOperand_wellFormed h z k s _

omit h

/-! ### Copies -/

section
variable (z : Size) (d m : Rm) (s : State)

@[simp] theorem copySource_p : (copySource z d m s).2.p = (autoModify z m (s.advance (1 + m.ext))).p := by simp [copySource]
@[simp] theorem copySource_pgc : (copySource z d m s).2.pgc = (s.advance (1 + m.ext)).pgc := by simp [copySource]
@[simp] theorem copySource_flags : (copySource z d m s).2.flags = s.flags := by simp [copySource]
@[simp] theorem copySource_irl : (copySource z d m s).2.irl = s.irl := by simp [copySource]
@[simp] theorem copySource_repiA : (copySource z d m s).2.repiA = s.repiA := by simp [copySource]
@[simp] theorem copySource_repiN : (copySource z d m s).2.repiN = s.repiN := by simp [copySource]
@[simp] theorem copySource_reprA : (copySource z d m s).2.reprA = s.reprA := by simp [copySource]
@[simp] theorem copySource_reprR : (copySource z d m s).2.reprR = s.reprR := by simp [copySource]
@[simp] theorem copySource_halted : (copySource z d m s).2.halted = s.halted := by simp [copySource]
@[simp] theorem copySource_mem : (copySource z d m s).2.mem = s.mem := by simp [copySource]
@[simp] theorem copySource_requests : (copySource z d m s).2.requests = s.requests := by simp [copySource]
@[simp] theorem copySource_freeCount : (copySource z d m s).2.freeCount = s.freeCount := by simp [copySource]
@[simp] theorem copySource_map : (copySource z d m s).2.map = s.map := by simp [copySource]

/-- The source's location is the one that a single operand of an instruction of as many words has: only the order of the fetches
differs. -/
theorem locate_advance {a b : Nat} (h : (s.advance a).pgc = (s.advance b).pgc) :
    locate z m (s.advance a) = locate z m (s.advance b) := by
  cases m <;> simp only [locate, h] <;> rfl

/-- Everything a copy can do: take the illegal-instruction trap at the source or at the destination, or copy. -/
theorem copyOperand_cases :
    (m.wellFormed = false ∧ copyOperand z d m s =
      (s.advance (1 + m.ext)).raise .illegalInstruction s.pgc (s.advance (1 + m.ext)).pgc) ∨
    (m.wellFormed = true ∧
      let t := (copySource z d m s).2.advance d.ext
      (d.wellFormed = false ∧ copyOperand z d m s = t.raise .illegalInstruction s.pgc t.pgc ∨
        d.wellFormed = true ∧
          copyOperand z d m s = writeOp (locate z d t) (copySource z d m s).1 (autoModify z d t))) := by
  cases hm : m.wellFormed
  · exact .inl ⟨rfl, by simp only [copyOperand, hm, Bool.false_eq_true, if_false]⟩
  · cases hd : d.wellFormed
    · exact .inr ⟨rfl, .inl ⟨rfl, by simp only [copyOperand, hm, if_true, resolve_malformed hd]⟩⟩
    · exact .inr ⟨rfl, .inr ⟨rfl, by simp only [copyOperand, hm, if_true, resolve_wellFormed hd]⟩⟩

end

/-! ### Flags -/

/-- What an addition or subtraction that reads D leaves alone: only flags, and the count of free values, change. -/
theorem arith_frame (op : AddSub) (z : Size) (a b : BitVec z.bits) (cx : Bool) (s : State) :
    (arith op z a b cx s).2 =
      { s with flags := (arith op z a b cx s).2.flags, freeCount := (arith op z a b cx s).2.freeCount } := by
  cases z
  · simp only [arith, decimalArith]
    split
    · split <;> rfl
    · rfl
  · rfl
  · rfl

/-- D itself is not changed. -/
theorem arith_d (op : AddSub) (z : Size) (a b : BitVec z.bits) (cx : Bool) (s : State) :
    (arith op z a b cx s).2.flags.d = s.flags.d := by
  cases z
  · simp only [arith, decimalArith]
    split
    · split <;> rfl
    · rfl
  · rfl
  · rfl

/-- Outside Decimal Mode, and at `.W` and `.P` always, the calculation is the binary one. -/
theorem arith_binary (op : AddSub) (z : Size) (a b : BitVec z.bits) (cx : Bool) (s : State)
    (h : z = .b → s.flags.d = false) : arith op z a b cx s = binaryArith op a b cx s := by
  cases z
  · simp only [arith, h rfl, Bool.false_eq_true, if_false]
  · rfl
  · rfl

end Sys2Proof.Machine
end

