-- ==== Sys2Proof/Laws/Cycle.lean ====
section
/-! SUPPORT. The step said once: what a next state can be, and that a meaning always gives one. -/

namespace Sys2Proof.Machine

/-- Every meaning answers a next state; a step is refused by the repeat rule alone. -/
theorem exec_goesOn (i : Instr) (s : State) : GoesOn (exec i s) := by cases i <;> exact ⟨_, rfl⟩

/-! ### Fetch -/

/-- The fetched bytes are those of the fetched words. -/
theorem wordsOfBytes_fetchBytes (s : State) : wordsOfBytes s.fetchBytes = s.fetchWords :=
  wordsOfBytes_bytesOfWords s.fetchWords

theorem decode_fetchBytes (s : State) : decode s.fetchBytes = decodeWords s.fetchWords :=
  decode_bytesOfWords s.fetchWords

/-- Fetching words one after another or in two parts is the same. -/
theorem State.didFetch_add (s : State) (j k : Nat) : ((s.advance j).didFetch k).bus = (s.didFetch (j + k)).bus := by
  induction k with
  | zero => rfl
  | succ k ih =>
    have hp : (s.advance j).pgc = evenAddr (s.pgc + BitVec.ofNat 24 (2 * j)) := rfl
    have ha : evenAddr ((s.advance j).pgc + BitVec.ofNat 24 (2 * k)) =
        evenAddr (s.pgc + BitVec.ofNat 24 (2 * (j + k))) := by
      rw [evenAddr_add, hp, evenAddr_evenAddr, ← evenAddr_add, BitVec.add_assoc, ← BitVec.ofNat_add, ← Nat.mul_add]
    show _ = (s.didFetch (j + k + 1)).bus
    simp only [State.didFetch, ha, State.didRead16, ih]
    simp only [State.isMemory, State.kindAt, State.didFetch_map, State.advance_map]

/-- So PGC and the accesses seen are the same. -/
theorem State.advance_add (s : State) (j k : Nat) : (s.advance j).advance k = s.advance (j + k) := by
  have hp : ((s.advance j).pgc + BitVec.ofNat 24 (2 * k)) &&& 0xFFFFFE =
      (s.pgc + BitVec.ofNat 24 (2 * (j + k))) &&& 0xFFFFFE := by
    show evenAddr (evenAddr (s.pgc + BitVec.ofNat 24 (2 * j)) + BitVec.ofNat 24 (2 * k)) = evenAddr _
    rw [evenAddr_add, evenAddr_evenAddr, ← evenAddr_add, BitVec.add_assoc, ← BitVec.ofNat_add, ← Nat.mul_add]
  have hb := State.didFetch_add s j k
  simp only [State.advance] at hp hb ⊢
  rw [hp, hb]

/-- Five words are always decoded. -/
theorem State.length_fetchWords (s : State) : s.fetchWords.length = 5 := by
  simp only [State.fetchWords]
  split <;> simp [State.wordsAhead]

/-- The words of an instruction that is no copy are those from PGC onwards. -/
theorem State.fetchWords_of_copyOf_none {s : State} (h : copyOf (decodeWords s.wordsAhead) = none) :
    s.fetchWords = s.wordsAhead := by simp only [State.fetchWords, h]

/-- Those of a copy, after its source, are fetched when the source has been read. -/
theorem State.fetchWords_of_copyOf_some {s : State} {z : Size} {d m : Rm}
    (h : copyOf (decodeWords s.wordsAhead) = some (z, d, m)) :
    s.fetchWords = (s.wordsAhead.take (1 + m.ext) ++ (copySource z d m s).2.wordsAhead).take 5 := by
  simp only [State.fetchWords, h]

/-- A fetched word depends on PGC, memory, the memory map and what the platform has seen. -/
theorem State.fetchWord_congr {s t : State} (hp : t.pgc = s.pgc) (hm : t.mem = s.mem) (hk : t.map = s.map)
    (hb : t.bus = s.bus) (k : Nat) : t.fetchWord k = s.fetchWord k := by
  have hd : ∀ k, (t.didFetch k).bus = (s.didFetch k).bus := by
    intro k
    induction k with
    | zero => exact hb
    | succ k ih => simp only [State.didFetch, State.didRead16, ih, hp, State.isMemory, State.kindAt, State.didFetch_map, hk]
  simp only [State.fetchWord, State.wordAt, State.found, State.didRead16, State.isMemory, State.kindAt, State.didFetch_map,
    State.didFetch_mem, hd, hp, hm, hk]

/-- Passing a boundary changes nothing of what is fetched. -/
theorem State.fetchWords_pastBoundary (s : State) : s.pastBoundary.fetchWords = s.fetchWords := by
  have h0 : s.pastBoundary.wordsAhead = s.wordsAhead :=
    List.map_congr_left fun k _ => State.fetchWord_congr (s := s) (t := s.pastBoundary) rfl rfl rfl rfl k
  have h1 : ∀ z d m, (copySource z d m s.pastBoundary).2.wordsAhead = (copySource z d m s).2.wordsAhead := by
    intro z d m
    refine List.map_congr_left fun k _ => State.fetchWord_congr ?_ ?_ ?_ ?_ k
    · simp
    · simp
    · simp
    · cases m <;> rfl
  simp only [State.fetchWords, h0, h1]

theorem State.fetchBytes_pastBoundary (s : State) : s.pastBoundary.fetchBytes = s.fetchBytes :=
  congrArg bytesOfWords s.fetchWords_pastBoundary

/-- Fetching words that lie in memory leaves the bus as it was. -/
theorem State.didFetch_of_isMemory {s : State} {k : Nat}
    (h : ∀ j < k, ∀ b ∈ touched .w (s.pgc + BitVec.ofNat 24 (2 * j)), s.isMemory b = true) : s.didFetch k = s := by
  induction k with
  | zero => rfl
  | succ k ih =>
    have hk := h k (by omega)
    simp only [touched, List.mem_cons, List.not_mem_nil, or_false, forall_eq_or_imp, forall_eq] at hk
    rw [State.didFetch, ih fun j hj => h j (by omega), State.didRead16_of_isMemory hk.1 hk.2]

/-- A fetched word of memory is made of its two bytes. -/
theorem State.fetchWord_of_isMemory {s : State} {k : Nat}
    (h : ∀ j ≤ k, ∀ b ∈ touched .w (s.pgc + BitVec.ofNat 24 (2 * j)), s.isMemory b = true) :
    s.fetchWord k = s.byteAt (evenAddr (s.pgc + BitVec.ofNat 24 (2 * k)) + 1) ++
      s.byteAt (evenAddr (s.pgc + BitVec.ofNat 24 (2 * k))) := by
  have hk := h k (by omega)
  simp only [touched, List.mem_cons, List.not_mem_nil, or_false, forall_eq_or_imp, forall_eq] at hk
  rw [State.fetchWord, State.didFetch_of_isMemory fun j hj => h j (by omega), State.wordAt_of_isMemory hk.1 hk.2]

/-- A word of the destination that lies in memory is the same whenever it is fetched. -/
theorem State.fetchWord_copySource {s : State} (z : Size) (d m : Rm) {k : Nat}
    (h : ∀ j ≤ 1 + m.ext + k, ∀ b ∈ touched .w (s.pgc + BitVec.ofNat 24 (2 * j)), s.isMemory b = true) :
    (copySource z d m s).2.fetchWord k = s.fetchWord (1 + m.ext + k) := by
  have ha : ∀ i, evenAddr ((copySource z d m s).2.pgc + BitVec.ofNat 24 (2 * i)) =
      evenAddr (s.pgc + BitVec.ofNat 24 (2 * (1 + m.ext + i))) := by
    intro i
    rw [copySource_pgc]
    show evenAddr (evenAddr (s.pgc + BitVec.ofNat 24 (2 * (1 + m.ext))) + BitVec.ofNat 24 (2 * i)) = _
    rw [evenAddr_add, evenAddr_evenAddr, ← evenAddr_add, BitVec.add_assoc, ← BitVec.ofNat_add, ← Nat.mul_add]
  have hm : ∀ i ≤ k, ∀ b ∈ touched .w ((copySource z d m s).2.pgc + BitVec.ofNat 24 (2 * i)),
      (copySource z d m s).2.isMemory b = true := by
    intro i hi b hb
    rw [State.isMemory_congr (copySource_map z d m s)]
    refine h (1 + m.ext + i) (by omega) b ?_
    simpa only [touched, ha] using hb
  have he := h (1 + m.ext + k) (Nat.le_refl _)
  simp only [touched, List.mem_cons, List.not_mem_nil, or_false, forall_eq_or_imp, forall_eq] at he
  rw [State.fetchWord_of_isMemory hm, State.fetchWord_of_isMemory h, ha,
    State.byteAt_congr (copySource_mem z d m s) (copySource_map z d m s) he.1,
    State.byteAt_congr (copySource_mem z d m s) (copySource_map z d m s) he.2]

/-- Code in memory is decoded from the five words at PGC. -/
theorem State.fetchWords_of_isMemory {s : State}
    (h : ∀ j < 5, ∀ b ∈ touched .w (s.pgc + BitVec.ofNat 24 (2 * j)), s.isMemory b = true) :
    s.fetchWords = s.wordsAhead := by
  cases hc : copyOf (decodeWords s.wordsAhead) with
  | none => exact State.fetchWords_of_copyOf_none hc
  | some r =>
    obtain ⟨z, d, m⟩ := r
    have hk : ∀ k, 1 + m.ext + k < 5 → (copySource z d m s).2.fetchWord k = s.fetchWord (1 + m.ext + k) := fun k hlt =>
      State.fetchWord_copySource z d m fun j hj => h j (by omega)
    have he : m.ext = 0 ∨ m.ext = 1 ∨ m.ext = 2 := by cases m <;> simp [Rm.ext]
    rw [State.fetchWords_of_copyOf_some hc]
    obtain he | he | he := he <;> simp only [he] at hk <;>
      simp [State.wordsAhead, he, hk]

/-! ### Inversion -/

theorem afterInstr_next {i : Instr} {a : Ptr} {o : Host.Outcome State Fault Refusal} {t : State}
    (h : afterInstr i a o = .next t) :
    ∃ u, o = .next u ∧ t = if isRepeatPrefix i then u else u.repeatRule a := by
  cases o with
  | next u => exact ⟨u, rfl, (Host.Outcome.next.inj h).symm⟩
  | fault f => nomatch h
  | refused r => nomatch h

theorem runInstr_next {i : Instr} {s t : State} (h : runInstr i s = .next t) :
    ((s.repiA || s.reprA) && notRepeatable i) = false ∧
      ∃ u, exec i s = .next u ∧ t = if isRepeatPrefix i then u else u.repeatRule s.pgc := by
  simp only [runInstr] at h
  split at h
  · nomatch h
  · exact ⟨(Bool.not_eq_true _).mp ‹¬ _›, afterInstr_next h⟩

/-- A fetch and run that goes on runs a decoded instruction, or takes an illegal-instruction trap. -/
theorem fetchAndRun_next {s t : State} (h : fetchAndRun s = .next t) :
    (∃ i, decode s.fetchBytes = .ok i ∧ runInstr i s = .next t) ∨
    (∃ i, decode s.fetchBytes = .error (.malformed i) ∧ exec i s = .next t) ∨
    t = (s.advance 1).raise .illegalInstruction s.pgc (s.advance 1).pgc := by
  simp only [fetchAndRun] at h
  split at h
  · exact .inl ⟨_, ‹_›, h⟩
  · exact .inr (.inl ⟨_, ‹_›, h⟩)
  · exact .inr (.inr (Host.Outcome.next.inj h).symm)
  · exact .inr (.inr (Host.Outcome.next.inj h).symm)

/-- The four things a step that goes on can be: the Reset Routine, a halted wait, an interrupt, an instruction. -/
theorem step_next {s t : State} (h : step s = .next t) :
    (s.asserted.reset = true ∧ t = s.pastBoundary.resetLine) ∨
    (s.asserted.reset = false ∧ s.halted = true ∧ s.pastBoundary.acceptable s.asserted = none ∧ t = s.pastBoundary) ∨
    (s.asserted.reset = false ∧ ∃ c ret, s.pastBoundary.acceptable s.asserted = some c ∧
      (s.halted = true ∨ s.repiA = false) ∧
      ret = (if s.halted then s.pgc else s.interruptReturn) ∧ t = s.pastBoundary.trap c ret) ∨
    (s.asserted.reset = false ∧ s.halted = false ∧
      (s.repiA = true ∨ s.pastBoundary.acceptable s.asserted = none) ∧ fetchAndRun s.pastBoundary = .next t) := by
  simp only [step, cycle, boundary, State.pastBoundary_halted, State.pastBoundary_repiA] at h
  cases hr : s.asserted.reset <;> cases hh : s.halted <;> cases hi : s.repiA <;>
    cases ha : s.pastBoundary.acceptable s.asserted <;>
    simp only [hr, hh, hi, ha, Bool.false_eq_true, if_true, if_false, Host.Outcome.next.injEq] at h <;>
    simp_all [State.interruptReturn]
  exact h.symm

end Sys2Proof.Machine
end

