-- ==== Sys2Proof/Laws/PerInstr.lean ====
section
/-! SUPPORT. Statements about every instruction as syntax, one lemma per constructor. -/

namespace Sys2Proof.Laws.Length

/-- An instruction's words are as many as its `Len` (30_encoding.md R92). -/
def Statement (i : Instr) : Prop := (encode i).length = i.len

/-- One operand. -/
theorem one_operand (w : Word) (m : Rm) : (w :: m.words).length = 1 + m.ext := by
  simp only [List.length_cons, Rm.length_words]
  omega

/-- An operand and an immediate. -/
theorem operand_immediate (w : Word) (z : Size) (m : Rm) (imm : Ptr) :
    (w :: (z.immWordList imm ++ m.words)).length = 1 + z.immWords + m.ext := by
  simp only [List.length_cons, List.length_append, Rm.length_words, Size.length_immWordList]
  omega

/-- Two operands. -/
theorem two_operands (z : Size) (d m : Rm) : (ldWords z d m).length = 1 + m.ext + d.ext := by
  simp only [ldWords, List.length_cons, List.length_append, Rm.length_words]
  omega

theorem nop : Statement (.nop) := rfl
theorem halt : Statement (.halt) := rfl
theorem ilg : Statement (.ilg) := rfl
theorem ldFRm (m : Rm) : Statement (.ldFRm m) := one_operand _ m
theorem ldWfRm (m : Rm) : Statement (.ldWfRm m) := one_operand _ m
theorem ldRmF (m : Rm) : Statement (.ldRmF m) := one_operand _ m
theorem ldRmWf (m : Rm) : Statement (.ldRmWf m) := one_operand _ m
theorem adq (z : Size) (n : BitVec 3) (m : Rm) : Statement (.adq z n m) := one_operand _ m
theorem rlc (z : Size) (m : Rm) : Statement (.rlc z m) := one_operand _ m
theorem rrc (z : Size) (m : Rm) : Statement (.rrc z m) := one_operand _ m
theorem rl (z : Size) (m : Rm) : Statement (.rl z m) := one_operand _ m
theorem rr (z : Size) (m : Rm) : Statement (.rr z m) := one_operand _ m
theorem sla (z : Size) (m : Rm) : Statement (.sla z m) := one_operand _ m
theorem sra (z : Size) (m : Rm) : Statement (.sra z m) := one_operand _ m
theorem swapB (m : Rm) : Statement (.swapB m) := one_operand _ m
theorem swapW (m : Rm) : Statement (.swapW m) := one_operand _ m
theorem swapP (m : Rm) : Statement (.swapP m) := one_operand _ m
theorem srl (z : Size) (m : Rm) : Statement (.srl z m) := one_operand _ m
theorem sbq (z : Size) (n : BitVec 3) (m : Rm) : Statement (.sbq z n m) := one_operand _ m
theorem tst (z : Size) (m : Rm) : Statement (.tst z m) := one_operand _ m
theorem mulu (z : Size) (r : RegNum) (m : Rm) : Statement (.mulu z r m) := one_operand _ m
theorem cpl (z : Size) (m : Rm) : Statement (.cpl z m) := one_operand _ m
theorem muls (z : Size) (r : RegNum) (m : Rm) : Statement (.muls z r m) := one_operand _ m
theorem neg (z : Size) (m : Rm) : Statement (.neg z m) := one_operand _ m
theorem divu (z : Size) (r : RegNum) (m : Rm) : Statement (.divu z r m) := one_operand _ m
theorem ngx (z : Size) (m : Rm) : Statement (.ngx z m) := one_operand _ m
theorem divs (z : Size) (r : RegNum) (m : Rm) : Statement (.divs z r m) := one_operand _ m
theorem ldRmRm (z : Size) (d m : Rm) : Statement (.ldRmRm z d m) := two_operands z d m
theorem ldzx (z : Size) (r : RegNum) (m : Rm) : Statement (.ldzx z r m) := one_operand _ m
theorem ldsx (z : Size) (r : RegNum) (m : Rm) : Statement (.ldsx z r m) := one_operand _ m
theorem lea (r : RegNum) (m : Rm) : Statement (.lea r m) := one_operand _ m
theorem leaPre (r : RegNum) (m : Rm) : Statement (.leaPre r m) := one_operand _ m
theorem addRRm (z : Size) (r : RegNum) (m : Rm) : Statement (.addRRm z r m) := one_operand _ m
theorem adxRRm (z : Size) (r : RegNum) (m : Rm) : Statement (.adxRRm z r m) := one_operand _ m
theorem subRRm (z : Size) (r : RegNum) (m : Rm) : Statement (.subRRm z r m) := one_operand _ m
theorem sbxRRm (z : Size) (r : RegNum) (m : Rm) : Statement (.sbxRRm z r m) := one_operand _ m
theorem andRRm (z : Size) (r : RegNum) (m : Rm) : Statement (.andRRm z r m) := one_operand _ m
theorem xorRRm (z : Size) (r : RegNum) (m : Rm) : Statement (.xorRRm z r m) := one_operand _ m
theorem orRRm (z : Size) (r : RegNum) (m : Rm) : Statement (.orRRm z r m) := one_operand _ m
theorem cpRRm (z : Size) (r : RegNum) (m : Rm) : Statement (.cpRRm z r m) := one_operand _ m
theorem addRmR (z : Size) (m : Rm) (r : RegNum) : Statement (.addRmR z m r) := one_operand _ m
theorem adxRmR (z : Size) (m : Rm) (r : RegNum) : Statement (.adxRmR z m r) := one_operand _ m
theorem subRmR (z : Size) (m : Rm) (r : RegNum) : Statement (.subRmR z m r) := one_operand _ m
theorem sbxRmR (z : Size) (m : Rm) (r : RegNum) : Statement (.sbxRmR z m r) := one_operand _ m
theorem andRmR (z : Size) (m : Rm) (r : RegNum) : Statement (.andRmR z m r) := one_operand _ m
theorem xorRmR (z : Size) (m : Rm) (r : RegNum) : Statement (.xorRmR z m r) := one_operand _ m
theorem orRmR (z : Size) (m : Rm) (r : RegNum) : Statement (.orRmR z m r) := one_operand _ m
theorem addRmImm (z : Size) (m : Rm) (imm : Ptr) : Statement (.addRmImm z m imm) := operand_immediate _ z m imm
theorem adxRmImm (z : Size) (m : Rm) (imm : Ptr) : Statement (.adxRmImm z m imm) := operand_immediate _ z m imm
theorem subRmImm (z : Size) (m : Rm) (imm : Ptr) : Statement (.subRmImm z m imm) := operand_immediate _ z m imm
theorem sbxRmImm (z : Size) (m : Rm) (imm : Ptr) : Statement (.sbxRmImm z m imm) := operand_immediate _ z m imm
theorem andRmImm (z : Size) (m : Rm) (imm : Ptr) : Statement (.andRmImm z m imm) := operand_immediate _ z m imm
theorem xorRmImm (z : Size) (m : Rm) (imm : Ptr) : Statement (.xorRmImm z m imm) := operand_immediate _ z m imm
theorem orRmImm (z : Size) (m : Rm) (imm : Ptr) : Statement (.orRmImm z m imm) := operand_immediate _ z m imm
theorem cpRmImm (z : Size) (m : Rm) (imm : Ptr) : Statement (.cpRmImm z m imm) := operand_immediate _ z m imm
theorem ldPHml (r : RegNum) (v : Ptr) : Statement (.ldPHml r v) := rfl
theorem ldq (r : RegNum) (n : BitVec 8) : Statement (.ldq r n) := rfl
theorem bitImm (k : BitVec 3) (m : Rm) : Statement (.bitImm k m) := one_operand _ m
theorem chgImm (k : BitVec 3) (m : Rm) : Statement (.chgImm k m) := one_operand _ m
theorem resImm (k : BitVec 3) (m : Rm) : Statement (.resImm k m) := one_operand _ m
theorem setImm (k : BitVec 3) (m : Rm) : Statement (.setImm k m) := one_operand _ m
theorem bitM0 (m : Rm) : Statement (.bitM0 m) := one_operand _ m
theorem chgM0 (m : Rm) : Statement (.chgM0 m) := one_operand _ m
theorem resM0 (m : Rm) : Statement (.resM0 m) := one_operand _ m
theorem setM0 (m : Rm) : Statement (.setM0 m) := one_operand _ m
theorem ldIrl (n : BitVec 3) : Statement (.ldIrl n) := rfl
theorem andF (n : Byte) : Statement (.andF n) := rfl
theorem xorF (n : Byte) : Statement (.xorF n) := rfl
theorem orF (n : Byte) : Statement (.orF n) := rfl
theorem ldFImm (n : Byte) : Statement (.ldFImm n) := rfl
theorem jrCond (cc : Cond) (o : BitVec 8) : Statement (.jrCond cc o) := rfl
theorem jrS (o : BitVec 8) : Statement (.jrS o) := rfl
theorem crS (o : BitVec 8) : Statement (.crS o) := rfl
theorem repr (r : RegNum) : Statement (.repr r) := rfl
theorem djnz (r : RegNum) (o : BitVec 7) : Statement (.djnz r o) := rfl
theorem jpHml (v : Ptr) : Statement (.jpHml v) := rfl
theorem jrL (v : Ptr) : Statement (.jrL v) := rfl
theorem callHml (v : Ptr) : Statement (.callHml v) := rfl
theorem crL (v : Ptr) : Statement (.crL v) := rfl
theorem jpRm (m : Rm) : Statement (.jpRm m) := one_operand _ m
theorem jea (m : Rm) : Statement (.jea m) := one_operand _ m
theorem callRm (m : Rm) : Statement (.callRm m) := one_operand _ m
theorem cea (m : Rm) : Statement (.cea m) := one_operand _ m
theorem repi (n : BitVec 5) : Statement (.repi n) := rfl
theorem rst (n : Byte) : Statement (.rst n) := rfl
theorem push (z : Size) (m : Rm) : Statement (.push z m) := two_operands z (.preDec 7) m
theorem pea (m : Rm) : Statement (.pea m) := one_operand _ m
theorem pop (z : Size) (d : Rm) : Statement (.pop z d) := (two_operands z d (.postInc 7)).trans rfl
theorem rxf : Statement (.rxf) := rfl
theorem sxf : Statement (.sxf) := rfl
theorem cxf : Statement (.cxf) := rfl
theorem ddm : Statement (.ddm) := rfl
theorem edm : Statement (.edm) := rfl
theorem ret : Statement (.ret) := rfl
theorem reti : Statement (.reti) := rfl

end Sys2Proof.Laws.Length
end

