-- ==== Sys2Proof/Tests/Slice0.lean ====
section
/-! SUPPORT. The model's own tests: the checks of WellFormed, a decoded word for every row of the opcode table, one step of every
instruction, and a witness for the hypotheses of every statement. No test rests on a free value. -/

namespace Sys2Proof.Tests

open Sys2Proof.Machine Sys2Proof.Claims

/-! ### Helpers -/

/-- The registers of `rs` set. -/
def withRegs (rs : List (RegNum × Ptr)) (s : State) : State := rs.foldl (fun t r => t.setP r.1 r.2) s

/-- The bytes of each pair of `cells` stored from its address onwards. -/
def withBytes (cells : List (Ptr × List Byte)) (s : State) : State := cells.foldl (fun t c => t.storeBytes c.1 c.2) s

/-- The state of the vectors: the words of one instruction at `a`, where PGC is, some registers, WF, some bytes of memory, and
all else as State.reset has it. -/
def start (a : Ptr) (ws : List Word) (rs : List (RegNum × Ptr)) (wf : Word) (cells : List (Ptr × List Byte)) : State :=
  withRegs rs (withBytes ((a, bytesOfWords ws) :: cells) ((State.reset.setPgc a).setWf wf))

/-- Whether an outcome is a next state that passes a check. -/
def after (o : Host.Outcome State Fault Refusal) (check : State → Bool) : Bool :=
  match o with
  | .next t => check t
  | .fault _ | .refused _ => false

/-- Whether memory holds the bytes `bs` from `a` onwards. -/
def reads (t : State) : Ptr → List Byte → Bool
  | _, [] => true
  | a, b :: bs => t.byteAt a == b && reads t (a + 1) bs

/-- WF with IRL 0, from the flags in the order of the vectors: S Z C VP D X. -/
def flagBits (s z c vp d x : Nat) : Word := BitVec.ofNat 16 (128 * s + 64 * z + 8 * c + 4 * vp + 2 * d + x)

/-! ### WellFormed: for each check a term it refuses (30_encoding.md) -/

/-- R116. -/
theorem test_refuses_malformed_register_index : (Instr.tst .b (.badRegIdx 0x0205)).wellFormed = false := by decide

/-- R116. -/
theorem test_refuses_malformed_absolute_index : (Instr.jea (.badAbsIdx 0x2000 0xC001)).wellFormed = false := by decide

/-- R116, at each place of a copy. -/
theorem test_refuses_malformed_copy :
    (Instr.ldRmRm .w (.badRegIdx 1) (.reg 0)).wellFormed = false ∧
      (Instr.ldRmRm .w (.reg 0) (.badRegIdx 1)).wellFormed = false := by decide

/-- R113. -/
theorem test_refuses_short_destination :
    (Instr.ldRmRm .b (.short 3) (.reg 0)).wellFormed = false ∧ (Instr.pop .b (.short 3)).wellFormed = false := by decide

/-- R94. -/
theorem test_refuses_extend_of_P :
    (Instr.ldzx .p 1 (.reg 0)).wellFormed = false ∧ (Instr.ldsx .p 1 (.reg 0)).wellFormed = false := by decide

/-- R112. -/
theorem test_refuses_multiply_into_R0 :
    (Instr.mulu .b 0 (.reg 1)).wellFormed = false ∧ (Instr.muls .b 0 (.reg 1)).wellFormed = false ∧
      (Instr.divu .b 0 (.reg 1)).wellFormed = false ∧ (Instr.divs .b 0 (.reg 1)).wellFormed = false := by decide

/-- R101. -/
theorem test_refuses_wide_immediate :
    (Instr.addRmImm .b (.reg 0) 0x100).wellFormed = false ∧ (Instr.cpRmImm .w (.reg 0) 0x010000).wellFormed = false := by
  decide

/-- R114. -/
theorem test_refuses_odd_absolute_target :
    (Instr.jpHml 0x123457).wellFormed = false ∧ (Instr.callHml 1).wellFormed = false := by decide

/-- R114. -/
theorem test_refuses_even_relative_field :
    (Instr.jrL 0x001000).wellFormed = false ∧ (Instr.crL 0).wellFormed = false := by decide

/-- Terms at the edges of the same checks. -/
theorem test_accepts_edges :
    (Instr.ldRmRm .p (.regIdx 7 (.byte true 7)) (.short 15)).wellFormed = true ∧
      (Instr.addRmImm .b (.short 0) 0xFF).wellFormed = true ∧ (Instr.ldzx .w 7 (.reg 7)).wellFormed = true ∧
      (Instr.jrL 0xFFFFFF).wellFormed = true ∧ (Instr.callHml 0xFFFFFE).wellFormed = true ∧
      (Instr.divs .p 7 (.absIdx 0xFFFFFF (.ptr 7))).wellFormed = true := by decide

/-! ### Decoding: a word of each row, bit by bit from its encoding (30_encoding.md R110); the fields are set apart -/

theorem test_decode_nop :
    decodeWords [0b0000_0000_0000_0000] = .ok (.nop) := by
  decide

theorem test_decode_halt :
    decodeWords [0b0000_0000_0000_0001] = .ok (.halt) := by
  decide

theorem test_decode_ilg :
    decodeWords [0b0000_0000_0000_0010] = .ok (.ilg) := by
  decide

theorem test_decode_ldFRm :
    decodeWords [0b0000_0001_00_000100] = .ok (.ldFRm (.reg 1)) := by
  decide

theorem test_decode_ldWfRm :
    decodeWords [0b0100_0001_00_111100] = .ok (.ldWfRm (.postInc 7)) := by
  decide

theorem test_decode_ldRmF :
    decodeWords [0b0000_0101_00_001010] = .ok (.ldRmF (.ind 2)) := by
  decide

theorem test_decode_ldRmWf :
    decodeWords [0b0100_0101_00_111110] = .ok (.ldRmWf (.preDec 7)) := by
  decide

theorem test_decode_adq :
    decodeWords [0b10_000_101_01_000100] = .ok (.adq .p 5 (.reg 1)) := by
  decide

theorem test_decode_rlc :
    decodeWords [0b01_000_000_10_001110] = .ok (.rlc .w (.ind 3)) := by
  decide

theorem test_decode_rrc :
    decodeWords [0b10_000_001_10_000000] = .ok (.rrc .p (.reg 0)) := by
  decide

theorem test_decode_rl :
    decodeWords [0b00_000_010_10_010100] = .ok (.rl .b (.reg 5)) := by
  decide

theorem test_decode_rr :
    decodeWords [0b01_000_011_10_110110] = .ok (.rr .w (.preDec 5)) := by
  decide

theorem test_decode_sla :
    decodeWords [0b10_000_100_10_000010] = .ok (.sla .p (.ind 0)) := by
  decide

theorem test_decode_sra :
    decodeWords [0b00_000_101_10_001000] = .ok (.sra .b (.reg 2)) := by
  decide

theorem test_decode_swapB :
    decodeWords [0b00_000_110_10_010000] = .ok (.swapB (.reg 4)) := by
  decide

theorem test_decode_swapW :
    decodeWords [0b01_000_110_10_010000] = .ok (.swapW (.reg 4)) := by
  decide

theorem test_decode_swapP :
    decodeWords [0b10_000_110_10_010000] = .ok (.swapP (.reg 4)) := by
  decide

theorem test_decode_srl :
    decodeWords [0b00_000_111_10_011100] = .ok (.srl .b (.reg 7)) := by
  decide

theorem test_decode_sbq :
    decodeWords [0b00_000_011_11_000100] = .ok (.sbq .b 3 (.reg 1)) := by
  decide

theorem test_decode_tst :
    decodeWords [0b01_001_000_00_100100] = .ok (.tst .w (.postInc 1)) := by
  decide

theorem test_decode_mulu :
    decodeWords [0b00_001_011_00_001000] = .ok (.mulu .b 3 (.reg 2)) := by
  decide

theorem test_decode_cpl :
    decodeWords [0b10_001_000_01_000110] = .ok (.cpl .p (.ind 1)) := by
  decide

theorem test_decode_muls :
    decodeWords [0b01_001_001_01_001000] = .ok (.muls .w 1 (.reg 2)) := by
  decide

theorem test_decode_neg :
    decodeWords [0b00_001_000_10_000000] = .ok (.neg .b (.reg 0)) := by
  decide

theorem test_decode_divu :
    decodeWords [0b10_001_111_10_010011] = .ok (.divu .p 7 (.short 4)) := by
  decide

theorem test_decode_ngx :
    decodeWords [0b01_001_000_11_000100] = .ok (.ngx .w (.reg 1)) := by
  decide

theorem test_decode_divs :
    decodeWords [0b00_001_100_11_001010] = .ok (.divs .b 4 (.ind 2)) := by
  decide

theorem test_decode_ldRmRm :
    decodeWords [0b01_01_000101_110001, 0b1111_1111_1111_1110, 0b0000_0000_0000_0100] = .ok (.ldRmRm .w (.rel 1 4) (.pcRel16 0xFFFE)) := by
  decide

theorem test_decode_ldzx :
    decodeWords [0b0_0_01_0_010_11_001000] = .ok (.ldzx .b 2 (.reg 2)) := by
  decide

theorem test_decode_ldsx :
    decodeWords [0b0_1_01_1_011_11_000110] = .ok (.ldsx .w 3 (.ind 1)) := by
  decide

theorem test_decode_lea :
    decodeWords [0b1001_0_001_11_101101, 0b0011_0100_0101_0110, 0b1010_1010_0001_0010] = .ok (.lea 1 (.abs24 0x123456)) := by
  decide

theorem test_decode_leaPre :
    decodeWords [0b1001_1_111_11_000110] = .ok (.leaPre 7 (.ind 1)) := by
  decide

theorem test_decode_addRRm :
    decodeWords [0b00_10_0_011_00_000100] = .ok (.addRRm .b 3 (.reg 1)) := by
  decide

theorem test_decode_adxRRm :
    decodeWords [0b01_10_0_011_01_000100] = .ok (.adxRRm .w 3 (.reg 1)) := by
  decide

theorem test_decode_subRRm :
    decodeWords [0b10_10_0_011_10_000100] = .ok (.subRRm .p 3 (.reg 1)) := by
  decide

theorem test_decode_sbxRRm :
    decodeWords [0b00_10_0_011_11_000100] = .ok (.sbxRRm .b 3 (.reg 1)) := by
  decide

theorem test_decode_andRRm :
    decodeWords [0b01_10_1_101_00_010110] = .ok (.andRRm .w 5 (.ind 5)) := by
  decide

theorem test_decode_xorRRm :
    decodeWords [0b10_10_1_101_01_010110] = .ok (.xorRRm .p 5 (.ind 5)) := by
  decide

theorem test_decode_orRRm :
    decodeWords [0b00_10_1_101_10_010110] = .ok (.orRRm .b 5 (.ind 5)) := by
  decide

theorem test_decode_cpRRm :
    decodeWords [0b01_10_1_101_11_010110] = .ok (.cpRRm .w 5 (.ind 5)) := by
  decide

theorem test_decode_addRmR :
    decodeWords [0b10_11_0_010_00_111101, 0b0010_0000_0000_0000, 0b0000_0100_0000_0001] = .ok (.addRmR .p (.absIdx 0x012000 (.byte false 4)) 2) := by
  decide

theorem test_decode_adxRmR :
    decodeWords [0b00_11_0_010_01_111001, 0b0000_1010_0000_0100] = .ok (.adxRmR .b (.regIdx 1 (.byte true 2)) 2) := by
  decide

theorem test_decode_subRmR :
    decodeWords [0b01_11_0_010_10_111001, 0b0100_0010_0000_1000] = .ok (.subRmR .w (.regIdx 2 (.word false 2)) 2) := by
  decide

theorem test_decode_sbxRmR :
    decodeWords [0b10_11_0_010_11_111001, 0b0100_1110_0001_1100] = .ok (.sbxRmR .p (.regIdx 7 (.word true 6)) 2) := by
  decide

theorem test_decode_andRmR :
    decodeWords [0b00_11_1_110_00_111001, 0b1000_0101_0000_0000] = .ok (.andRmR .b (.regIdx 0 (.ptr 5)) 6) := by
  decide

theorem test_decode_xorRmR :
    decodeWords [0b01_11_1_110_01_101001, 0b1000_0000_0000_0000] = .ok (.xorRmR .w (.abs16 0x8000) 6) := by
  decide

theorem test_decode_orRmR :
    decodeWords [0b10_11_1_110_10_110101, 0b0101_0110_0111_1000, 0b0000_0000_0001_0010] = .ok (.orRmR .p (.pcRel24 0x125678) 6) := by
  decide

theorem test_decode_addRmImm :
    decodeWords [0b01_11_1000_11_000000, 0b0000_0000_0000_0001] = .ok (.addRmImm .w (.reg 0) 1) := by
  decide

theorem test_decode_adxRmImm :
    decodeWords [0b10_11_1001_11_000100, 0b0011_0100_0101_0110, 0b1111_1111_0001_0010] = .ok (.adxRmImm .p (.reg 1) 0x123456) := by
  decide

theorem test_decode_subRmImm :
    decodeWords [0b00_11_1010_11_000000, 0b1010_1010_0000_0001] = .ok (.subRmImm .b (.reg 0) 1) := by
  decide

theorem test_decode_sbxRmImm :
    decodeWords [0b01_11_1011_11_001010, 0b1000_0000_0000_0001] = .ok (.sbxRmImm .w (.ind 2) 0x8001) := by
  decide

theorem test_decode_andRmImm :
    decodeWords [0b10_11_1100_11_001010, 0b0000_0000_0000_0001, 0b0000_0000_1000_0000] = .ok (.andRmImm .p (.ind 2) 0x800001) := by
  decide

theorem test_decode_xorRmImm :
    decodeWords [0b00_11_1101_11_011000, 0b0000_0000_1111_1111] = .ok (.xorRmImm .b (.reg 6) 0xFF) := by
  decide

theorem test_decode_orRmImm :
    decodeWords [0b01_11_1110_11_101100, 0b0001_0010_0011_0100] = .ok (.orRmImm .w (.postInc 3) 0x1234) := by
  decide

theorem test_decode_cpRmImm :
    decodeWords [0b01_11_1111_11_100101, 0b1111_0000_0000_1111, 0b0000_0000_0000_0111, 0b1111_1111_0000_0001] = .ok (.cpRmImm .w (.imm24 0x010007) 0xF00F) := by
  decide

theorem test_decode_ldPHml :
    decodeWords [0b1100_0_101_00010010, 0b0011_0100_0101_0110] = .ok (.ldPHml 5 0x123456) := by
  decide

theorem test_decode_ldq :
    decodeWords [0b1100_1_010_11111111] = .ok (.ldq 2 0xFF) := by
  decide

theorem test_decode_bitImm :
    decodeWords [0b1101_0_111_00_000000] = .ok (.bitImm 7 (.reg 0)) := by
  decide

theorem test_decode_chgImm :
    decodeWords [0b1101_0_001_01_000110] = .ok (.chgImm 1 (.ind 1)) := by
  decide

theorem test_decode_resImm :
    decodeWords [0b1101_0_011_10_000100] = .ok (.resImm 3 (.reg 1)) := by
  decide

theorem test_decode_setImm :
    decodeWords [0b1101_0_110_11_010100] = .ok (.setImm 6 (.reg 5)) := by
  decide

theorem test_decode_bitM0 :
    decodeWords [0b1101_1000_00_000100] = .ok (.bitM0 (.reg 1)) := by
  decide

theorem test_decode_chgM0 :
    decodeWords [0b1101_1000_01_000100] = .ok (.chgM0 (.reg 1)) := by
  decide

theorem test_decode_resM0 :
    decodeWords [0b1101_1000_10_000110] = .ok (.resM0 (.ind 1)) := by
  decide

theorem test_decode_setM0 :
    decodeWords [0b1101_1000_11_001000] = .ok (.setM0 (.reg 2)) := by
  decide

theorem test_decode_ldIrl :
    decodeWords [0b1101_1011_0000_0_110] = .ok (.ldIrl 6) := by
  decide

theorem test_decode_andF :
    decodeWords [0b1101_1100_11111110] = .ok (.andF 0xFE) := by
  decide

theorem test_decode_xorF :
    decodeWords [0b1101_1101_00001001] = .ok (.xorF 0x09) := by
  decide

theorem test_decode_orF :
    decodeWords [0b1101_1110_00000010] = .ok (.orF 0x02) := by
  decide

theorem test_decode_ldFImm :
    decodeWords [0b1101_1111_01000011] = .ok (.ldFImm 0x43) := by
  decide

theorem test_decode_jrCond :
    decodeWords [0b1110_1101_10000001] = .ok (.jrCond .nz 0x81) := by
  decide

theorem test_decode_jrS :
    decodeWords [0b1110_1110_01111111] = .ok (.jrS 0x7F) := by
  decide

theorem test_decode_crS :
    decodeWords [0b1110_1111_00010000] = .ok (.crS 0x10) := by
  decide

theorem test_decode_repr :
    decodeWords [0b1111_0_110_00000000] = .ok (.repr 6) := by
  decide

theorem test_decode_djnz :
    decodeWords [0b1111_0_001_1_1111110] = .ok (.djnz 1 0x7E) := by
  decide

theorem test_decode_jpHml :
    decodeWords [0b1111_1000_00010010, 0b0011_0100_0101_0110] = .ok (.jpHml 0x123456) := by
  decide

theorem test_decode_jrL :
    decodeWords [0b1111_1000_11111111, 0b1111_1111_1111_1011] = .ok (.jrL 0xFFFFFB) := by
  decide

theorem test_decode_callHml :
    decodeWords [0b1111_1001_11111111, 0b1101_0000_0001_0000] = .ok (.callHml 0xFFD010) := by
  decide

theorem test_decode_crL :
    decodeWords [0b1111_1001_00000000, 0b0000_0001_0000_0001] = .ok (.crL 0x000101) := by
  decide

theorem test_decode_jpRm :
    decodeWords [0b1111_1010_00_111100] = .ok (.jpRm (.postInc 7)) := by
  decide

theorem test_decode_jea :
    decodeWords [0b1111_1010_01_110001, 0b0000_0000_0001_0000] = .ok (.jea (.pcRel16 0x10)) := by
  decide

theorem test_decode_callRm :
    decodeWords [0b1111_1011_00_001000] = .ok (.callRm (.reg 2)) := by
  decide

theorem test_decode_cea :
    decodeWords [0b1111_1011_01_000101, 0b0000_0000_0001_0000] = .ok (.cea (.rel 1 0x10)) := by
  decide

theorem test_decode_repi :
    decodeWords [0b1111_1110_000_11111] = .ok (.repi 31) := by
  decide

theorem test_decode_rst :
    decodeWords [0b1111_1111_10000001] = .ok (.rst 0x81) := by
  decide

/-! The assembler rows: their words, and what the decoder reads from them (48_macros.md R341 to R350). -/

theorem test_decode_push :
    encode (.push .w (.reg 1)) = [0b01_01_111110_000100] ∧
      decodeWords [0b01_01_111110_000100] = .ok (.ldRmRm .w (.preDec 7) (.reg 1)) := by
  decide

theorem test_decode_pea :
    encode (.pea (.ind 1)) = [0b1001_1_111_11_000110] ∧
      decodeWords [0b1001_1_111_11_000110] = .ok (.leaPre 7 (.ind 1)) := by
  decide

theorem test_decode_pop :
    encode (.pop .p (.reg 2)) = [0b10_01_001000_111100] ∧
      decodeWords [0b10_01_001000_111100] = .ok (.ldRmRm .p (.reg 2) (.postInc 7)) := by
  decide

theorem test_decode_rxf :
    encode (.rxf) = [0b1101_1100_11111110] ∧
      decodeWords [0b1101_1100_11111110] = .ok (.andF 0xFE) := by
  decide

theorem test_decode_sxf :
    encode (.sxf) = [0b1101_1110_00000001] ∧
      decodeWords [0b1101_1110_00000001] = .ok (.orF 0x01) := by
  decide

theorem test_decode_cxf :
    encode (.cxf) = [0b1101_1101_00000001] ∧
      decodeWords [0b1101_1101_00000001] = .ok (.xorF 0x01) := by
  decide

theorem test_decode_ddm :
    encode (.ddm) = [0b1101_1100_11111101] ∧
      decodeWords [0b1101_1100_11111101] = .ok (.andF 0xFD) := by
  decide

theorem test_decode_edm :
    encode (.edm) = [0b1101_1110_00000010] ∧
      decodeWords [0b1101_1110_00000010] = .ok (.orF 0x02) := by
  decide

theorem test_decode_ret :
    encode (.ret) = [0b1111_1010_00_111100] ∧
      decodeWords [0b1111_1010_00_111100] = .ok (.jpRm (.postInc 7)) := by
  decide

theorem test_decode_reti :
    encode (.reti) = [0b0100_0001_00_111100, 0b1111_1010_00_111100] ∧
      decodeWords [0b0100_0001_00_111100, 0b1111_1010_00_111100] = .ok (.ldWfRm (.postInc 7)) := by
  decide

/-! ### One step of each instruction: the rows of 95_test_vectors.md, sections 2.1 to 2.9, named in the comments -/

/-- M1. -/
theorem test_step_nop :
    after (step (start 0x001000 [0x0000] [] 0x0000 []))
      (fun t => t.pgc == 0x001002 && t.wf == 0) = true := by
  decide

/-- M2, its first step. -/
theorem test_step_halt :
    after (step (start 0x001000 [0x0001] [(7, 0x002000)] 0x0300 []))
      (fun t => t.halted && t.pgc == 0x001002 && t.wf == 0x0300) = true := by
  decide

/-- M4. -/
theorem test_step_ilg :
    after (step (start 0x001000 [0x0002] [(7, 0x002000)] 0x0040 []))
      (fun t => t.getP 7 == 0x001FFA && t.pgc == 0xFFCFE0 && reads t 0x001FFA [0x40, 0x00, 0x02, 0x10, 0x00]) = true := by
  decide

/-- O29. -/
theorem test_step_ilg_odd_sp :
    after (step (start 0x001000 [0x0002] [(7, 0x002001)] 0x0040 []))
      (fun t => t.getP 7 == 0x001FFB && reads t 0x001FFA [0x40, 0x00, 0x02, 0x10, 0x00]) = true := by
  decide

/-- T2. -/
theorem test_step_ldFRm :
    after (step (start 0x004000 [0x0104] [(1, 0x0000FF)] 0x0300 []))
      (fun t => t.wf == 0x03CF) = true := by
  decide

/-- T3. -/
theorem test_step_ldWfRm :
    after (step (start 0x004000 [0x413C] [(7, 0x001000)] 0x0000 [(0x001000, [0x41, 0x07])]))
      (fun t => t.wf == 0x0741 && t.getP 7 == 0x001002) = true := by
  decide

/-- T5. -/
theorem test_step_ldRmF :
    after (step (start 0x004000 [0x0500] [(0, 0x123456)] 0x0048 []))
      (fun t => t.getP 0 == 0x123448) = true := by
  decide

/-- T6. -/
theorem test_step_ldRmWf :
    after (step (start 0x004000 [0x453E] [(7, 0x001000)] 0x0302 []))
      (fun t => t.getP 7 == 0x000FFE && reads t 0x000FFE [0x02, 0x03]) = true := by
  decide

/-- A18. -/
theorem test_step_adq :
    after (step (start 0x004000 [0x8344] [(1, 0xFFFFFE)] 0x0001 []))
      (fun t => t.getP 1 == 0x000002 && t.wf == flagBits 0 0 1 0 0 1) = true := by
  decide

/-- A20. -/
theorem test_step_adq_ignores_decimal :
    after (step (start 0x004000 [0x0040] [(0, 0x000009)] 0x0002 []))
      (fun t => t.getP 0 == 0x00000A && t.wf == flagBits 0 0 0 0 1 0) = true := by
  decide

/-- S14. -/
theorem test_step_rlc :
    after (step (start 0x004000 [0x0080] [(0, 0x000081)] 0x0000 []))
      (fun t => t.getP 0 == 0x000003 && t.wf == flagBits 0 0 1 1 0 1) = true := by
  decide

/-- S16. -/
theorem test_step_rrc :
    after (step (start 0x004000 [0x4184] [(1, 0x000001)] 0x0000 []))
      (fun t => t.getP 1 == 0x008000 && t.wf == flagBits 1 0 1 1 0 1) = true := by
  decide

/-- S9. -/
theorem test_step_rl :
    after (step (start 0x004000 [0x0280] [(0, 0x000080)] 0x0001 []))
      (fun t => t.getP 0 == 0x000001 && t.wf == flagBits 0 0 1 1 0 1) = true := by
  decide

/-- S12. -/
theorem test_step_rr :
    after (step (start 0x004000 [0x0380] [(0, 0x000001)] 0x0001 []))
      (fun t => t.getP 0 == 0x000080 && t.wf == flagBits 1 0 1 1 0 1) = true := by
  decide

/-- S2. -/
theorem test_step_sla :
    after (step (start 0x004000 [0x0480] [(0, 0x0000C0)] 0x0000 []))
      (fun t => t.getP 0 == 0x000080 && t.wf == flagBits 1 0 1 0 0 1) = true := by
  decide

/-- S4. -/
theorem test_step_sla_word :
    after (step (start 0x004000 [0x4486] [(1, 0x002000)] 0x0000 [(0x002000, [0x01, 0x40])]))
      (fun t => reads t 0x002000 [0x02, 0x80] && t.wf == flagBits 1 0 0 1 0 0) = true := by
  decide

/-- S5. -/
theorem test_step_sra :
    after (step (start 0x004000 [0x0580] [(0, 0x000081)] 0x0000 []))
      (fun t => t.getP 0 == 0x0000C0 && t.wf == flagBits 1 0 1 0 0 1) = true := by
  decide

/-- S7. -/
theorem test_step_srl :
    after (step (start 0x004000 [0x4784] [(1, 0x008001)] 0x0000 []))
      (fun t => t.getP 1 == 0x004000 && t.wf == flagBits 0 0 1 1 0 1) = true := by
  decide

/-- T16. -/
theorem test_step_swapB :
    after (step (start 0x004000 [0x0680] [(0, 0x0000A5)] 0x00CF []))
      (fun t => t.getP 0 == 0x00005A && t.wf == 0x00CF) = true := by
  decide

/-- T17. -/
theorem test_step_swapW :
    after (step (start 0x004000 [0x4684] [(1, 0xAB1234)] 0x0000 []))
      (fun t => t.getP 1 == 0xAB3412) = true := by
  decide

/-- T18. -/
theorem test_step_swapP :
    after (step (start 0x004000 [0x8688] [(2, 0x123456)] 0x0000 []))
      (fun t => t.getP 2 == 0x563412) = true := by
  decide

/-- A29. -/
theorem test_step_sbq :
    after (step (start 0x004000 [0x00C0] [(0, 0x000080)] 0x0001 []))
      (fun t => t.getP 0 == 0x00007F && t.wf == flagBits 0 0 0 1 0 1) = true := by
  decide

/-- L19. -/
theorem test_step_tst :
    after (step (start 0x004000 [0x4824] [(0, 0x00FFFF), (1, 0x002000)] 0x0000 [(0x002000, [0x00, 0x80])]))
      (fun t => t.getP 1 == 0x002002 && t.wf == flagBits 1 0 0 0 0 0) = true := by
  decide

/-- A37. -/
theorem test_step_mulu :
    after (step (start 0x004000 [0x0908] [(1, 0x0000FF), (2, 0x0000FF)] 0x0000 []))
      (fun t => t.getP 0 == 0x0000FE && t.getP 1 == 0x000001 && t.wf == flagBits 1 0 0 0 0 0) = true := by
  decide

/-- A41. -/
theorem test_step_mulu_reads_R0_first :
    after (step (start 0x004000 [0x0900] [(0, 0x000003), (1, 0x000005)] 0x0000 []))
      (fun t => t.getP 0 == 0 && t.getP 1 == 0x00000F) = true := by
  decide

/-- L17. -/
theorem test_step_cpl :
    after (step (start 0x004000 [0x8844] [(1, 0x00FF00)] 0x0000 []))
      (fun t => t.getP 1 == 0xFF00FF && t.wf == flagBits 1 0 0 1 0 0) = true := by
  decide

/-- A43. -/
theorem test_step_muls :
    after (step (start 0x004000 [0x4948] [(1, 0x00FFFF), (2, 0x000002)] 0x0000 []))
      (fun t => t.getP 0 == 0x00FFFF && t.getP 1 == 0x00FFFE && t.wf == flagBits 1 0 0 0 0 0) = true := by
  decide

/-- A32. -/
theorem test_step_neg :
    after (step (start 0x004000 [0x0880] [(0, 0x000080)] 0x0000 []))
      (fun t => t.getP 0 == 0x000080 && t.wf == flagBits 1 0 1 1 0 1) = true := by
  decide

/-- A46. -/
theorem test_step_divu :
    after (step (start 0x004000 [0x0988] [(0, 0x000002), (1, 0x0000FF), (2, 0x000003)] 0x0000 []))
      (fun t => t.getP 0 == 0x000002 && t.getP 1 == 0x0000FF && t.wf == flagBits 1 0 0 0 0 0) = true := by
  decide

/-- A58. -/
theorem test_step_divu_by_zero :
    after (step (start 0x004000 [0x0988] [(0, 0x000001), (1, 0x000002), (7, 0x003000)] 0x00CF []))
      (fun t => t.pgc == 0xFFCFD0 && t.getP 1 == 2 && reads t 0x002FFA [0xCF, 0x00, 0x02, 0x40, 0x00]) = true := by
  decide

/-- A35. -/
theorem test_step_ngx :
    after (step (start 0x004000 [0x48C4] [] 0x0001 []))
      (fun t => t.getP 1 == 0x00FFFF && t.wf == flagBits 1 0 1 0 0 1) = true := by
  decide

/-- A52. -/
theorem test_step_divs :
    after (step (start 0x004000 [0x09C8] [(0, 0x0000FF), (1, 0x0000F9), (2, 0x000002)] 0x0000 []))
      (fun t => t.getP 0 == 0x0000FF && t.getP 1 == 0x0000FD && t.wf == flagBits 1 0 0 0 0 0) = true := by
  decide

/-- A56. -/
theorem test_step_divs_overflow :
    after (step (start 0x004000 [0x09C8] [(1, 0x000080), (2, 0x000001)] 0x0008 []))
      (fun t => t.flags.vp && !t.flags.c && t.pgc == 0x004002) = true := by
  decide

/-- O28. -/
theorem test_step_ldRmRm :
    after (step (start 0x004000 [0x1924] [(1, 0x002000)] 0x0000 [(0x002000, [0x12, 0x34])]))
      (fun t => t.getP 1 == 0x002002 && reads t 0x002001 [0x12]) = true := by
  decide

/-- O3. -/
theorem test_step_ldRmRm_aligned :
    after (step (start 0x004000 [0x9006] [(1, 0x002001)] 0x0000 [(0x002000, [0x11, 0x22, 0x33, 0x44])]))
      (fun t => t.getP 0 == 0x332211) = true := by
  decide

/-- T12. -/
theorem test_step_ldzx :
    after (step (start 0x004000 [0x11C8] [(1, 0xFFFFFF), (2, 0x1234F0)] 0x0000 []))
      (fun t => t.getP 1 == 0x0000F0) = true := by
  decide

/-- T13. -/
theorem test_step_ldsx :
    after (step (start 0x004000 [0x5BC6] [(1, 0x002000)] 0x0000 [(0x002000, [0x01, 0x80])]))
      (fun t => t.getP 3 == 0xFF8001) = true := by
  decide

/-- T14. -/
theorem test_step_lea :
    after (step (start 0x004000 [0x91C9, 0x0010] [(2, 0x001000)] 0x0000 []))
      (fun t => t.getP 1 == 0x001010) = true := by
  decide

/-- T15. -/
theorem test_step_leaPre :
    after (step (start 0x004000 [0x9FC6] [(1, 0x123456), (7, 0x001000)] 0x0000 []))
      (fun t => t.getP 7 == 0x000FFC && reads t 0x000FFC [0x56, 0x34, 0x12]) = true := by
  decide

/-- A3. -/
theorem test_step_addRRm :
    after (step (start 0x004000 [0x2004] [(0, 0x000080), (1, 0x000080)] 0x0000 []))
      (fun t => t.getP 0 == 0 && t.wf == flagBits 0 1 1 1 0 1) = true := by
  decide

/-- A9, VP open. -/
theorem test_step_addRRm_decimal :
    after (step (start 0x004000 [0x2004] [(0, 0x000019), (1, 0x000028)] 0x0002 []))
      (fun t => t.getP 0 == 0x000047 && !t.flags.c && !t.flags.x && t.flags.d) = true := by
  decide

/-- A14. -/
theorem test_step_adxRRm :
    after (step (start 0x004000 [0x6044] [(0, 0x00FFFF)] 0x0041 []))
      (fun t => t.getP 0 == 0 && t.wf == flagBits 0 1 1 0 0 1) = true := by
  decide

/-- A21. -/
theorem test_step_subRRm :
    after (step (start 0x004000 [0x2084] [(1, 0x000001)] 0x0000 []))
      (fun t => t.getP 0 == 0x0000FF && t.wf == flagBits 1 0 1 0 0 1) = true := by
  decide

/-- A24, VP open. -/
theorem test_step_subRRm_decimal :
    after (step (start 0x004000 [0x2084] [(1, 0x000001)] 0x0002 []))
      (fun t => t.getP 0 == 0x000099 && t.flags.s && t.flags.c && t.flags.x) = true := by
  decide

/-- A25. -/
theorem test_step_sbxRRm :
    after (step (start 0x004000 [0x61CC] [] 0x0001 []))
      (fun t => t.getP 1 == 0x00FFFF && t.wf == flagBits 1 0 1 0 0 1) = true := by
  decide

/-- L2. -/
theorem test_step_andRRm :
    after (step (start 0x004000 [0x2804] [(0, 0x0000F0), (1, 0x00000F)] 0x0009 []))
      (fun t => t.getP 0 == 0 && t.wf == flagBits 0 1 0 1 0 1) = true := by
  decide

/-- L5. -/
theorem test_step_xorRRm :
    after (step (start 0x004000 [0xA944] [(1, 0x123456)] 0x0000 []))
      (fun t => t.getP 1 == 0 && t.wf == flagBits 0 1 0 1 0 0) = true := by
  decide

/-- L8. -/
theorem test_step_orRRm :
    after (step (start 0x004000 [0x6988] [(1, 0x000F00), (2, 0x0000F1)] 0x0000 []))
      (fun t => t.getP 1 == 0x000FF1 && t.wf == 0) = true := by
  decide

/-- A61. -/
theorem test_step_cpRRm :
    after (step (start 0x004000 [0x28C4] [(0, 0x000080), (1, 0x000001)] 0x0000 []))
      (fun t => t.getP 0 == 0x000080 && t.wf == flagBits 0 0 0 1 0 0) = true := by
  decide

/-- A7. -/
theorem test_step_addRmR :
    after (step (start 0x004000 [0xB206] [(1, 0x002000), (2, 0x000001)] 0x0000 [(0x002000, [0xFF, 0xFF, 0xFF, 0x77])]))
      (fun t => reads t 0x002000 [0x00, 0x00, 0x00, 0x77] && t.wf == flagBits 0 1 1 0 0 1) = true := by
  decide

/-- O25. -/
theorem test_step_addRmR_immediate :
    after (step (start 0x004000 [0x310F] [(1, 0x0000FE)] 0x0000 []))
      (fun t => t.getP 1 == 0x0000FE && t.wf == flagBits 0 0 1 0 0 1) = true := by
  decide

/-- A15, VP open. -/
theorem test_step_adxRmR :
    after (step (start 0x004000 [0x3246] [(1, 0x002000)] 0x0003 [(0x002000, [0x99])]))
      (fun t => reads t 0x002000 [0x00] && t.flags.z && t.flags.c && t.flags.x && !t.flags.s) = true := by
  decide

/-- A22. -/
theorem test_step_subRmR :
    after (step (start 0x004000 [0x718A] [(1, 0x000001), (2, 0x002000)] 0x0000 [(0x002000, [0x00, 0x80])]))
      (fun t => reads t 0x002000 [0xFF, 0x7F] && t.wf == flagBits 0 0 0 1 0 0) = true := by
  decide

/-- A26. -/
theorem test_step_sbxRmR :
    after (step (start 0x004000 [0x30C4] [(0, 0x000003), (1, 0x000005)] 0x0001 []))
      (fun t => t.getP 1 == 0x000001 && t.wf == 0) = true := by
  decide

/-- L3. -/
theorem test_step_andRmR :
    after (step (start 0x004000 [0x7A06] [(1, 0x002000), (2, 0x008001)] 0x0000 [(0x002000, [0xFF, 0xFF])]))
      (fun t => reads t 0x002000 [0x01, 0x80] && t.wf == flagBits 1 0 0 1 0 0) = true := by
  decide

/-- L6. -/
theorem test_step_xorRmR :
    after (step (start 0x004000 [0x3844] [(0, 0x0000FF), (1, 0x0000AA)] 0x0000 []))
      (fun t => t.getP 1 == 0x000055 && t.wf == flagBits 0 0 0 1 0 0) = true := by
  decide

/-- L9. -/
theorem test_step_orRmR :
    after (step (start 0x004000 [0x3AA4] [(1, 0x002000)] 0x0000 []))
      (fun t => t.getP 1 == 0x002001 && t.wf == flagBits 0 1 0 1 0 0) = true := by
  decide

/-- A8. -/
theorem test_step_addRmImm :
    after (step (start 0x004000 [0x78C0, 0x0001] [(0, 0xABFFFF)] 0x0000 []))
      (fun t => t.getP 0 == 0xAB0000 && t.wf == flagBits 0 1 1 0 0 1) = true := by
  decide

/-- A17. -/
theorem test_step_adxRmImm :
    after (step (start 0x004000 [0xB9C4, 0x0000, 0x0000] [(1, 0xFFFFFF)] 0x0001 []))
      (fun t => t.getP 1 == 0 && t.wf == flagBits 0 1 1 0 0 1 && t.pgc == 0x004006) = true := by
  decide

/-- A23, VP open. -/
theorem test_step_subRmImm :
    after (step (start 0x004000 [0x3AC0, 0x0001] [(0, 0x000010)] 0x0002 []))
      (fun t => t.getP 0 == 0x000009 && !t.flags.s && !t.flags.z && !t.flags.c && !t.flags.x) = true := by
  decide

/-- A27. -/
theorem test_step_sbxRmImm :
    after (step (start 0x004000 [0x7BC0, 0x0000] [(0, 0x008000)] 0x0001 []))
      (fun t => t.getP 0 == 0x007FFF && t.wf == flagBits 0 0 0 1 0 0) = true := by
  decide

/-- L4. -/
theorem test_step_andRmImm :
    after (step (start 0x004000 [0x7CC0, 0x00FF] [(0, 0x001234)] 0x0000 []))
      (fun t => t.getP 0 == 0x000034 && t.wf == 0) = true := by
  decide

/-- L7. -/
theorem test_step_xorRmImm :
    after (step (start 0x004000 [0x3DC0, 0x00FF] [(0, 0x00000F)] 0x0000 []))
      (fun t => t.getP 0 == 0x0000F0 && t.wf == flagBits 1 0 0 1 0 0) = true := by
  decide

/-- L10. -/
theorem test_step_orRmImm :
    after (step (start 0x004000 [0xBEC4, 0x0000, 0xFF80] [(1, 0x000001)] 0x0000 []))
      (fun t => t.getP 1 == 0x800001 && t.wf == flagBits 1 0 0 1 0 0) = true := by
  decide

/-- A63. -/
theorem test_step_cpRmImm :
    after (step (start 0x004000 [0x7FC4, 0x1234] [(1, 0x001234)] 0x0000 []))
      (fun t => t.getP 1 == 0x001234 && t.wf == flagBits 0 1 0 0 0 0) = true := by
  decide

/-- T7. -/
theorem test_step_ldPHml :
    after (step (start 0x004000 [0xC112, 0x3456] [] 0x0000 []))
      (fun t => t.getP 1 == 0x123456 && t.pgc == 0x004004) = true := by
  decide

/-- T8. -/
theorem test_step_ldq :
    after (step (start 0x004000 [0xCAFF] [] 0x0000 []))
      (fun t => t.getP 2 == 0xFFFFFF) = true := by
  decide

/-- B3. -/
theorem test_step_bitImm :
    after (step (start 0x004000 [0xD024] [(1, 0x002000)] 0x0000 [(0x002000, [0xFE])]))
      (fun t => t.getP 1 == 0x002001 && t.wf == flagBits 0 1 0 0 0 0) = true := by
  decide

/-- B5. -/
theorem test_step_chgImm :
    after (step (start 0x004000 [0xD77C] [(7, 0x002000)] 0x0000 []))
      (fun t => t.getP 7 == 0x002002 && reads t 0x002000 [0x80] && t.wf == flagBits 0 1 0 0 0 0) = true := by
  decide

/-- B6. -/
theorem test_step_resImm :
    after (step (start 0x004000 [0xD384] [(1, 0x0000FF)] 0x0040 []))
      (fun t => t.getP 1 == 0x0000F7 && t.wf == 0) = true := by
  decide

/-- B7. -/
theorem test_step_setImm :
    after (step (start 0x004000 [0xD7D4] [(1, 0xAA00BB)] 0x0000 []))
      (fun t => t.getP 1 == 0xAA80BB && t.wf == flagBits 0 1 0 0 0 0) = true := by
  decide

/-- B9. -/
theorem test_step_bitM0 :
    after (step (start 0x004000 [0xD804] [(0, 0x00FB00), (1, 0x000008)] 0x0040 []))
      (fun t => t.wf == 0) = true := by
  decide

/-- B10. -/
theorem test_step_chgM0 :
    after (step (start 0x004000 [0xD844] [(0, 0x000200)] 0x0000 []))
      (fun t => t.getP 1 == 0x000004 && t.wf == flagBits 0 1 0 0 0 0) = true := by
  decide

/-- B11. -/
theorem test_step_resM0 :
    after (step (start 0x004000 [0xD886] [(0, 0x000700), (1, 0x002000)] 0x0040 [(0x002000, [0x80])]))
      (fun t => reads t 0x002000 [0x00] && t.wf == 0) = true := by
  decide

/-- B12. -/
theorem test_step_setM0 :
    after (step (start 0x004000 [0xD8C8] [(0, 0x000900), (2, 0x000002)] 0x0040 []))
      (fun t => t.getP 2 == 0x000002 && t.wf == 0) = true := by
  decide

/-- T10. -/
theorem test_step_ldIrl :
    after (step (start 0x004000 [0xDB07] [] 0x0000 []))
      (fun t => t.wf == 0x0700) = true := by
  decide

/-- L12. -/
theorem test_step_andF :
    after (step (start 0x004000 [0xDC00] [] 0x07CF []))
      (fun t => t.wf == 0x0700) = true := by
  decide

/-- L14. -/
theorem test_step_xorF :
    after (step (start 0x004000 [0xDD30] [] 0x0000 []))
      (fun t => t.wf == 0) = true := by
  decide

/-- L15. -/
theorem test_step_orF :
    after (step (start 0x004000 [0xDEFF] [] 0x0300 []))
      (fun t => t.wf == 0x03CF) = true := by
  decide

/-- T9. -/
theorem test_step_ldFImm :
    after (step (start 0x004000 [0xDFFF] [] 0x0500 []))
      (fun t => t.wf == 0x05CF) = true := by
  decide

/-- J1. -/
theorem test_step_jrCond :
    after (step (start 0x001000 [0xEC02] [] 0x0040 []))
      (fun t => t.pgc == 0x001006) = true := by
  decide

/-- J2. -/
theorem test_step_jrCond_not_taken :
    after (step (start 0x001000 [0xEC02] [] 0x0000 []))
      (fun t => t.pgc == 0x001002) = true := by
  decide

/-- J6. -/
theorem test_step_jrS :
    after (step (start 0x000000 [0xEE80] [] 0x0000 []))
      (fun t => t.pgc == 0xFFFF02) = true := by
  decide

/-- J8. -/
theorem test_step_jrL :
    after (step (start 0x002000 [0xF8FF, 0xFFFB] [] 0x0000 []))
      (fun t => t.pgc == 0x001FFE) = true := by
  decide

/-- J10. -/
theorem test_step_jpHml :
    after (step (start 0x001000 [0xF812, 0x3456] [] 0x0000 []))
      (fun t => t.pgc == 0x123456) = true := by
  decide

/-- J11. -/
theorem test_step_jpRm :
    after (step (start 0x001000 [0xFA04] [(1, 0x002001)] 0x0000 []))
      (fun t => t.pgc == 0x002000) = true := by
  decide

/-- J12. -/
theorem test_step_jpRm_memory :
    after (step (start 0x001000 [0xFA06] [(1, 0x002000)] 0x0000 [(0x002000, [0x01, 0x30, 0x00, 0xFF])]))
      (fun t => t.pgc == 0x003000) = true := by
  decide

/-- J16. -/
theorem test_step_jea :
    after (step (start 0x001000 [0xFA66] [(1, 0x002000)] 0x0000 []))
      (fun t => t.pgc == 0x001FFC && t.getP 1 == 0x001FFC) = true := by
  decide

/-- J19. -/
theorem test_step_crS :
    after (step (start 0x001000 [0xEF10] [(7, 0x002000)] 0x0000 []))
      (fun t => t.getP 7 == 0x001FFC && t.pgc == 0x001022 && reads t 0x001FFC [0x02, 0x10, 0x00]) = true := by
  decide

/-- J21. -/
theorem test_step_crL :
    after (step (start 0x001000 [0xF900, 0x0101] [(7, 0x002000)] 0x0000 []))
      (fun t => t.pgc == 0x001104 && reads t 0x001FFC [0x04, 0x10, 0x00]) = true := by
  decide

/-- J22. -/
theorem test_step_callHml :
    after (step (start 0x001000 [0xF9FF, 0xD010] [(7, 0x002000)] 0x0000 []))
      (fun t => t.pgc == 0xFFD010 && reads t 0x001FFC [0x04, 0x10, 0x00]) = true := by
  decide

/-- J24. -/
theorem test_step_callRm :
    after (step (start 0x001000 [0xFB3C] [(7, 0x001FFC)] 0x0000 [(0x001FFC, [0x00, 0x50, 0x00])]))
      (fun t => t.pgc == 0x005000 && t.getP 7 == 0x001FFC && reads t 0x001FFC [0x02, 0x10, 0x00]) = true := by
  decide

/-- J25. -/
theorem test_step_callRm_predecrement :
    after (step (start 0x001000 [0xFB3E] [(7, 0x002000)] 0x0000 [(0x001FFC, [0x00, 0x60, 0x00])]))
      (fun t => t.pgc == 0x006000 && t.getP 7 == 0x001FF8 && reads t 0x001FF8 [0x02, 0x10, 0x00]) = true := by
  decide

/-- J26. -/
theorem test_step_cea :
    after (step (start 0x001000 [0xFB45, 0x0010] [(1, 0x003000), (7, 0x002000)] 0x0000 []))
      (fun t => t.pgc == 0x003010 && reads t 0x001FFC [0x04, 0x10, 0x00]) = true := by
  decide

/-- J29. -/
theorem test_step_rst :
    after (step (start 0x001000 [0xFF00] [(7, 0x000002)] 0x0000 []))
      (fun t => t.pgc == 0xFFD000 && t.getP 7 == 0xFFFFFE && reads t 0xFFFFFE [0x02, 0x10, 0x00]) = true := by
  decide

/-- J30. -/
theorem test_step_djnz :
    after (step (start 0x001004 [0xF1FE] [(1, 0x000002)] 0x0000 []))
      (fun t => t.pgc == 0x001002 && t.getP 1 == 1) = true := by
  decide

/-- J31. -/
theorem test_step_djnz_last :
    after (step (start 0x001004 [0xF1FE] [(1, 0x000001)] 0x0000 []))
      (fun t => t.pgc == 0x001006 && t.getP 1 == 0) = true := by
  decide

/-- M5, its first step. -/
theorem test_step_repi :
    after (step (start 0x001000 [0xFE00] [] 0x0000 []))
      (fun t => t.repiA && t.repiN == 0 && t.pgc == 0x001002) = true := by
  decide

/-- M8, its first step. -/
theorem test_step_repr :
    after (step (start 0x001000 [0xF100] [(1, 0x000003)] 0x0040 []))
      (fun t => t.reprA && t.reprR == 1 && !t.flags.z && t.pgc == 0x001002) = true := by
  decide

/-- O22. -/
theorem test_step_malformed_index :
    after (step (start 0x004000 [0x1039, 0x0205] [(7, 0x003000)] 0x0000 []))
      (fun t => t.pgc == 0xFFCFE0 && reads t 0x002FFA [0x00, 0x00, 0x04, 0x40, 0x00] && t.getP 0 == 0) = true := by
  decide

/-- O24. -/
theorem test_step_malformed_destination :
    after (step (start 0x004000 [0x1E64, 0xC000] [(1, 0x002000), (7, 0x003000)] 0x0000 []))
      (fun t => t.pgc == 0xFFCFE0 && t.getP 1 == 0x002001 && reads t 0x002FFA [0x00, 0x00, 0x04, 0x40, 0x00]) = true := by
  decide

/-- X10. -/
theorem test_step_nonexistent_word :
    after (step (start 0x001000 [0x0003] [(7, 0x003000)] 0x0300 []))
      (fun t => t.pgc == 0xFFCFE0 && t.wf == 0x0300 && reads t 0x002FFA [0x00, 0x03, 0x02, 0x10, 0x00]) = true := by
  decide

/-! The assembler rows, which no step runs: the examples of 48_macros.md. -/

/-- R341. -/
theorem test_exec_push :
    after (exec (.push .w (.reg 1)) (start 0x004000 [] [(1, 0x001234), (7, 0x002000)] 0x0000 []))
      (fun t => t.getP 7 == 0x001FFE && reads t 0x001FFE [0x34, 0x12]) = true := by
  decide

/-- R342. -/
theorem test_exec_pea :
    after (exec (.pea (.ind 1)) (start 0x004000 [] [(1, 0x123456), (7, 0x001000)] 0x0000 []))
      (fun t => t.getP 7 == 0x000FFC && reads t 0x000FFC [0x56, 0x34, 0x12]) = true := by
  decide

/-- R343. -/
theorem test_exec_pop :
    after (exec (.pop .p (.reg 2)) (start 0x004000 [] [(7, 0x000FFC)] 0x0000 [(0x000FFC, [0x56, 0x34, 0x12, 0x99])]))
      (fun t => t.getP 2 == 0x123456 && t.getP 7 == 0x001000) = true := by
  decide

/-- R344. -/
theorem test_exec_rxf :
    after (exec (.rxf) (start 0x004000 [] [] 0x0009 []))
      (fun t => t.wf == 0x0008) = true := by
  decide

/-- R345. -/
theorem test_exec_sxf :
    after (exec (.sxf) (start 0x004000 [] [] 0x0000 []))
      (fun t => t.wf == 0x0001) = true := by
  decide

/-- R346. -/
theorem test_exec_cxf :
    after (exec (.cxf) (start 0x004000 [] [] 0x0041 []))
      (fun t => t.wf == 0x0040) = true := by
  decide

/-- R347. -/
theorem test_exec_ddm :
    after (exec (.ddm) (start 0x004000 [] [] 0x0002 []))
      (fun t => t.wf == 0) = true := by
  decide

/-- R348. -/
theorem test_exec_edm :
    after (exec (.edm) (start 0x004000 [] [] 0x0000 []))
      (fun t => t.wf == 0x0002) = true := by
  decide

/-- R349. -/
theorem test_exec_ret :
    after (exec (.ret) (start 0x004000 [] [(7, 0x001FFC)] 0x0000 [(0x001FFC, [0x04, 0x10, 0x00])]))
      (fun t => t.pgc == 0x001004 && t.getP 7 == 0x002000) = true := by
  decide

/-- R350. -/
theorem test_exec_reti :
    after (exec (.reti) (start 0x004000 [] [(7, 0x001FFA)] 0x0000 [(0x001FFA, [0x40, 0x03, 0x02, 0x10, 0x00])]))
      (fun t => t.wf == 0x0340 && t.pgc == 0x001002 && t.getP 7 == 0x002000) = true := by
  decide

/-! ### Boundaries, and the host's two definitions -/

/-- X1: NMI before IRQ1. -/
theorem test_boundary_nmi_first :
    after (step { start 0x001000 [0x0000] [(7, 0x002000)] 0x07CF [] with
        requests := [{ Requests.none with nmi := true, irq1 := true }] })
      (fun t => t.pgc == 0xFFCF00 && t.wf == 0x00CF && reads t 0x001FFA [0xCF, 0x07, 0x00, 0x10, 0x00]) = true := by
  decide

/-- X4: an IRQ at the level IRL is taken. -/
theorem test_boundary_irq :
    after (step { start 0x001000 [0x0000] [(7, 0x002000)] 0x0300 [] with requests := [{ Requests.none with irq3 := true }] })
      (fun t => t.pgc == 0xFFCF30 && t.irl == 2) = true := by
  decide

/-- X3: an IRQ above the level IRL is masked. -/
theorem test_boundary_irq_masked :
    after (step { start 0x001000 [0x0000] [(7, 0x002000)] 0x0200 [] with requests := [{ Requests.none with irq3 := true }] })
      (fun t => t.pgc == 0x001002 && t.irl == 2) = true := by
  decide

/-- X9: Reset before NMI; only what the spec gives a value is looked at. -/
theorem test_boundary_reset :
    after (step { start 0x001000 [0x0000] [(7, 0x002000)] 0x07CF [] with
        requests := [{ Requests.none with reset := true, nmi := true }] })
      (fun t => t.pgc == 0xFFCFF0 && t.irl == 0 && t.getP 7 == 0x002000 && reads t 0x001FFA [0, 0, 0, 0, 0]) = true := by
  decide

/-- A second word lies in bits 31 to 16 of the table's number; words that it gives no bits are 0. -/
theorem test_decodeTableWord :
    decodeTableWord 16 0x2004 = some (.addRRm .b 0 (.reg 1)) ∧ decodeTableWord 32 0x3456C112 = some (.ldPHml 1 0x123456) ∧
      decodeTableWord 16 0xF900 = some (.callHml 0) ∧ decodeTableWord 16 0x0003 = none := by
  decide

/-- T7 placed at the reset vector. -/
theorem test_withFetchWord :
    after (step (State.reset.withFetchWord 32 0x3456C112)) (fun t => t.getP 1 == 0x123456 && t.pgc == 0xFFCFF4) = true := by
  decide

/-! ### Witnesses: for every statement with hypotheses, states and operands that meet them, each clause at a boundary -/

/-- Two interrupts asserted with IRL at 3, SP at 2 and memory with something in it. -/
def busy : State :=
  { start 0xFFFFFC [0x0000, 0x0000] [(0, 0x000100), (1, 0xFFFFFF), (7, 0x000002)] 0x0349 [(0xFFFFFF, [0x7F, 0x80])] with
    requests := [⟨false, false, false, false, true, true, false, false, false⟩] }

theorem busy_isRam (a : Ptr) : busy.isRam a = true :=
  (State.isRam_congr (by decide : busy.map = State.reset.map) a).trans (State.isRam_reset a)

/-- `busy` on a platform with regions of every kind; in the word at `$005000` only the upper byte is a device's. -/
def mixed : State :=
  { busy with map := [⟨0x002000, 0x100, .device⟩, ⟨0x003000, 0x100, .rom⟩, ⟨0x004000, 0x100, .empty⟩, ⟨0x005001, 1, .device⟩,
      ⟨0, 2 ^ 24, .ram⟩] }

/-- A step at the boundary of `ws` at `$001000`, with a REPI or a REPR in progress. -/
def repeating (ws : List Word) (rs : List (RegNum × Ptr)) (wf : Word) (a : Bool) (n : BitVec 5) (ra : Bool) (r : RegNum) :
    State :=
  { start 0x001000 ws rs wf [] with repiA := a, repiN := n, reprA := ra, reprR := r }

/-- A 24-bit read of a device is a 16-bit access and then an 8-bit one (20_memory.md R68). -/
theorem test_device_read_is_recorded :
    after (exec (.tst .p (.abs16 0x2001)) mixed) (fun t => t.bus == [.read8 0x002002, .read16 0x002000]) = true := by
  decide

/-- A store to ROM changes nothing there. -/
theorem test_rom_store_is_lost :
    after (exec (.ldRmRm .b (.abs16 0x3000) (.short 1)) mixed)
      (fun t => t.mem == mixed.mem && t.bus == [.write8 0x003000 0x01]) = true := by
  decide

/-- A word of which only the lower byte is RAM. -/
theorem test_store_half_in_ram :
    after (exec (.ldRmRm .w (.abs16 0x5000) (.imm16 0x1234)) mixed)
      (fun t => t.byteAt 0x005000 == 0x34 && t.bus == [.write16 0x005000 0x1234]) = true := by
  decide

/-- LD on a platform that answers everything: first word and source words, the source, the destination's words, the destination
(20_memory.md R73). -/
theorem test_copy_access_order :
    after (exec (.ldRmRm .b (.abs24 0x005000) (.abs16 0x4000)) { start 0x001000 [] [] 0 [] with map := [] })
      (fun t => t.bus.tail == [.read16 0x001006, .read16 0x001004, .read8 0x004000, .read16 0x001002, .read16 0x001000] &&
        t.pgc == 0x001008) = true := by
  decide

/-- An instruction placed where there is no memory is still the one fetched. -/
theorem test_withFetchWord_on_a_device :
    after (step (State.withFetchWord { State.reset with map := [] } 32 0x3456C112)) (fun t => t.getP 1 == 0x123456) = true := by
  decide

theorem witness_CoreRoundTrip :
    (∀ i ∈ [Instr.addRmImm .p (.absIdx 0xFFFFFF (.word true 7)) 0xFFFFFF, .ldRmRm .b (.abs24 0) (.imm24 0xFFFFFF),
        .divs .w 7 (.short 15), .jrL 0xFFFFFF, .jpHml 0, .adq .p 7 (.reg 0)],
      i.wellFormed = true ∧ i.isAssemblerRow = false) := by decide

theorem witness_AssemblerRowsDecode :
    (Rm.absIdx 0xFFFFFF (.ptr 7)).wellFormed = true ∧ (Rm.absIdx 0xFFFFFF (.ptr 7)).isShort = false ∧
      (Rm.short 15).wellFormed = true := by decide

/-- The edges of the rows of R115, on both sides. -/
theorem witness_NonexistentFirstWords :
    (∀ w ∈ [(0x0003 : Word), 0x003F, 0x403F, 0x813F, 0x0200, 0xD900, 0xDAFF, 0xDB08, 0xDBFF, 0xF001, 0xF77F, 0xFA80, 0xFBFF,
        0xFC00, 0xFDFF, 0xFE20, 0xFEFF], selectsNothing w) ∧
      (∀ w ∈ [(0x0002 : Word), 0x0040, 0x4040, 0x0100, 0xD8FF, 0xDB07, 0xDC00, 0xF000, 0xF080, 0xFA7F, 0xFB7F, 0xFE1F,
        0xFF00], ¬ selectsNothing w) := by
  simp [selectsNothing]

theorem witness_DecodedIsWellFormed :
    decodeWords [0xB8FD, 0xFFFF, 0x00FF, 0xFFFF, 0x4FFF] = .ok (.addRmImm .p (.absIdx 0xFFFFFF (.word true 7)) 0xFFFFFF) ∧
      decodeWords [0x1E64, 0xC000] = .error (.malformed (.ldRmRm .b (.badRegIdx 0xC000) (.postInc 1))) := by decide

theorem witness_FirstWordRecovered : decodeWords [0xC8FF] = .ok (.ldq 0 0xFF) ∧ (encode (.ldq 0 0xFF)).length = 1 := by
  decide

/-- Register numbers 3 and 4, where the names of the byte registers change. -/
theorem witness_RegisterNumbers : (3 : RegNum).toNat < 4 ∧ 4 ≤ (4 : RegNum).toNat ∧ 4 ≤ (7 : RegNum).toNat := by decide

theorem witness_PartialRegisterWrites :
    (3 : RegNum) ≠ partOf .b 4 ∧ (0 : RegNum) = partOf .b 4 ∧ (4 : RegNum) ≠ partOf .b 3 ∧ (6 : RegNum) ≠ partOf .w 7 := by
  decide

/-- An odd target in each form. -/
theorem witness_PgcBitZero :
    (operand .p 1 (.reg 1) busy).getLsbD 0 = true ∧
      place .p 2 (.rel 1 0) busy = .mem 0xFFFFFF ∧ (0xFFFFFF : Ptr).getLsbD 0 = true ∧
      (((start 0x001000 [] [(7, 0x002000)] 0 [(0x002000, [0x01])]).advance 1).memRead .p 0x002000).getLsbD 0 = true ∧
      ((secondPop (start 0x001000 [] [(7, 0x001FFE)] 0 [(0x002000, [0x01])])).memRead .p (0x001FFE + 2)).getLsbD 0 = true ∧
      ∃ t, exec (.jpHml 0xFFFFFF) busy = .next t := by
  refine ⟨by decide, by decide, by decide, by decide, by decide, _, rfl⟩

/-- RAM at the top of memory, where the third byte wraps; a byte outside that access; ROM. -/
theorem witness_MemoryAccess :
    mixed.mem.wf = true ∧ (∀ b ∈ touched .p 0xFFFFFF, mixed.isRam b = true) ∧
      mixed.isMemory 1 = true ∧ (1 : Ptr) ∉ touched .p 0xFFFFFF ∧
      mixed.isMemory 0x0030FF = true ∧ mixed.kindAt 0x0030FF = .rom ∧
      ∀ b ∈ touched .p 0x003001, mixed.isMemory b = true := by
  simp only [touched, List.forall_mem_cons]
  exact ⟨by decide, ⟨by decide, by decide, by decide, by simp⟩, by decide, by decide, by decide, by decide, by decide, by decide,
    by decide, by simp⟩

/-- A device, an empty address, a word of which one byte is a device's; and stores outside RAM. -/
theorem witness_MemoryAccess_platform :
    mixed.isMemory 0x0020FF = false ∧ mixed.isMemory 0x004000 = false ∧
      mixed.isMemory 0x005000 = true ∧ mixed.isMemory (0x005000 + 1) = false ∧
      mixed.isRam 0x002000 = false ∧ mixed.isRam 0x0030FE = false ∧ mixed.isRam (0x0030FE + 1) = false :=
  ⟨by decide, by decide, by decide, by decide, by decide, by decide, by decide⟩

theorem witness_OperandLocations : busy.pgc.getLsbD 0 = false := by decide

theorem witness_AutoModifySteps :
    (0 : RegNum) ≠ 7 ∧
      (∃ t, exec (.ldzx .b 0 (.postInc 7)) busy = .next t) ∧ (∃ t, exec (.ldsx .w 0 (.preDec 1)) busy = .next t) ∧
      (∃ t, exec (.lea 0 (.postInc 7)) busy = .next t) ∧ (∃ t, exec (.leaPre 7 (.preDec 1)) busy = .next t) ∧
      (∃ t, exec (.jea (.preDec 7)) busy = .next t) ∧ (∃ t, exec (.cea (.postInc 7)) busy = .next t) ∧
      raisesNone (.bitM0 (.postInc 7)) busy ∧ (7 : RegNum) ∉ destination (.bitM0 (.postInc 7)) ∧
      operandsOf (.bitM0 (.postInc 7)) = [.postInc 7] ∧ ∃ t, exec (.bitM0 (.postInc 7)) busy = .next t :=
  ⟨by decide, ⟨_, rfl⟩, ⟨_, rfl⟩, ⟨_, rfl⟩, ⟨_, rfl⟩, ⟨_, rfl⟩, ⟨_, rfl⟩, ⟨by decide, by decide, id⟩, by decide, by decide,
    ⟨_, rfl⟩⟩

/-- LD with one auto-modify operand of either kind, with one of each, and with both on one base. -/
theorem witness_AutoModifySteps_copies :
    (∀ dm ∈ [(Rm.reg 0, Rm.postInc 1), (.preDec 7, .reg 0), (.postInc 7, .preDec 1), (.postInc 1, .postInc 1)],
      raisesNone (.ldRmRm .b dm.1 dm.2) busy ∧ ∃ t, exec (.ldRmRm .b dm.1 dm.2) busy = .next t) ∧
      (1 : RegNum) ∉ writtenPlace .b (.reg 0) ∧ (1 : RegNum) ∉ autoBase (.reg 0) ∧ (7 : RegNum) ∉ autoBase (.preDec 1) := by
  refine ⟨?_, by decide, by decide, by decide⟩
  intro dm h
  simp only [List.mem_cons, List.not_mem_nil, or_false] at h
  obtain rfl | rfl | rfl | rfl := h <;> exact ⟨⟨by decide, by decide, id⟩, _, rfl⟩

/-- The pushes and pops through the base of the operand. -/
theorem witness_AutoModifySteps_stack :
    ∀ i ∈ [Instr.push .b (.postInc 7), .push .p (.preDec 7), .pop .b (.postInc 7), .pop .p (.preDec 7), .callRm (.postInc 7),
        .callRm (.preDec 7), .pea (.postInc 7), .pea (.preDec 7), .leaPre 7 (.postInc 7), .leaPre 7 (.preDec 7)],
      ∃ t, exec i busy = .next t := by
  intro i h
  simp only [List.mem_cons, List.not_mem_nil, or_false] at h
  obtain rfl | rfl | rfl | rfl | rfl | rfl | rfl | rfl | rfl | rfl := h <;> exact ⟨_, rfl⟩

theorem witness_MalformedOperandTraps :
    operandsOf (.sla .b (.badRegIdx 0x0205)) = [.badRegIdx 0x0205] ∧
      operandsOf (.push .p (.badAbsIdx 0 0xC000)) = [.badAbsIdx 0 0xC000] ∧
      (Rm.badRegIdx 0x0205).wellFormed = false ∧ (Rm.badAbsIdx 0 0xC000).wellFormed = false ∧
      (Rm.reg 0).wellFormed = true ∧ ∀ z d, Instr.sla .b (.badRegIdx 0x0205) ≠ .pop z d := by
  refine ⟨by decide, by decide, by decide, by decide, by decide, ?_⟩
  intro z d h
  cases h

/-- A well-formed operand of each kind: all that the result statements of the RM forms ask of the operand. -/
theorem witness_wellFormed_operands :
    ∀ m ∈ [Rm.reg 7, .rel 7 0x8000, .ind 0, .postInc 7, .preDec 7, .short 15, .imm16 0xFFFF, .imm24 0xFFFFFF, .abs16 0x8000,
        .abs24 0xFFFFFF, .pcRel16 0xFFFF, .pcRel24 0xFFFFFF, .regIdx 7 (.byte true 4), .absIdx 0xFFFFFF (.ptr 7)],
      m.wellFormed = true := by decide

/-- LD, PUSH and POP. -/
theorem witness_CopyResults : (Rm.preDec 7).wellFormed = true ∧ (Rm.postInc 7).wellFormed = true := by decide

/-- The loads and stores of the status register. -/
theorem witness_StatusTransfers : (Rm.postInc 7).wellFormed = true := by decide

theorem witness_ExtendResults : Size.b ≠ .p ∧ Size.w ≠ .p ∧ (Rm.short 15).wellFormed = true := by decide

/-- An operand with an address and one without. -/
theorem witness_AddressResults :
    (Rm.preDec 7).wellFormed = true ∧ place .p 1 (.preDec 7) busy = .mem 0xFFFFFE ∧
      (Rm.reg 1).wellFormed = true ∧ ∀ a, place .p 1 (.reg 1) busy ≠ .mem a := by
  refine ⟨by decide, by decide, by decide, ?_⟩
  intro a h
  cases h

theorem witness_SwapResults : (Rm.ind 1).wellFormed = true := by decide

/-- A byte outside Decimal Mode, and a word inside it: SUB, NEG and the chain of ADD and ADX have the same hypotheses. -/
theorem witness_AddResults :
    (Rm.ind 1).wellFormed = true ∧ (Size.b = .b → busy.flags.d = false) ∧
      (Size.w = .b → (start 0 [] [] 0x02 []).flags.d = false) := by decide

theorem witness_SubResults : (Rm.short 15).wellFormed = true ∧ (Size.b = .b → busy.flags.d = false) := by decide

theorem witness_NegResults : (Rm.reg 4).wellFormed = true ∧ (Size.b = .b → busy.flags.d = false) := by decide

theorem witness_QuickResults : (Rm.preDec 7).wellFormed = true := by decide

theorem witness_CompareResults : (Rm.ind 1).wellFormed = true ∧ ∃ t, exec (.cpRRm .p 1 (.ind 1)) busy = .next t :=
  ⟨by decide, _, rfl⟩

/-- The digits at their edges: 99 and 0 are two digits, `$9A` and `$A0` are not. -/
theorem witness_DecimalResults :
    (start 0 [] [] 0x02 []).flags.d = true ∧ (Rm.reg 1).wellFormed = true ∧ twoDigits 0x99 ∧ twoDigits 0x00 ∧
      ¬ twoDigits 0x9A ∧ ¬ twoDigits 0xA0 := by
  unfold twoDigits
  decide

theorem witness_MulResults : (1 : RegNum) ≠ 0 ∧ (7 : RegNum) ≠ 0 ∧ (Rm.reg 0).wellFormed = true := by decide

/-- The largest R0 for which the quotient fits. -/
theorem witness_DivuResults :
    let s := start 0 [] [(0, 0x000002), (1, 0x0000FF), (2, 0x000003)] 0 []
    (Rm.reg 2).wellFormed = true ∧
      ((accessed .b 1 (.reg 2) s).getR .b 0).toNat < (operand .b 1 (.reg 2) s).toNat := by decide

/-- The least quotient that fits: -128 by 1. -/
theorem witness_DivsResults :
    let s := start 0 [] [(0, 0x0000FF), (1, 0x000080), (2, 0x000001)] 0 []
    let s1 := accessed .b 1 (.reg 2) s
    let d := operand .b 1 (.reg 2) s
    let n := (s1.getR .b 0 ++ s1.getR .b 1).toInt
    d ≠ 0 ∧ -(2 ^ (Size.b.bits - 1)) ≤ n.tdiv d.toInt ∧ n.tdiv d.toInt < 2 ^ (Size.b.bits - 1) := by decide

/-- The least dividends that do not fit: R0 equal to the divisor, and 128 by 1 as signed numbers; and -32768 by -1. -/
theorem witness_DivOverflowResults :
    (let s := start 0 [] [(0, 0x000003), (2, 0x000003)] 0 []
     operand .b 1 (.reg 2) s ≠ 0 ∧
      (operand .b 1 (.reg 2) s).toNat ≤ ((accessed .b 1 (.reg 2) s).getR .b 0).toNat) ∧
    (let s1 := accessed .b 1 (.reg 2) (start 0 [] [(1, 0x000080), (2, 0x000001)] 0 [])
     2 ^ (Size.b.bits - 1) ≤ (s1.getR .b 0 ++ s1.getR .b 1).toInt.tdiv (s1.getR .b 2).toInt) ∧
    (let s1 := accessed .b 1 (.reg 2) (start 0 [] [(0, 0x000080), (2, 0x0000FF)] 0 [])
     2 ^ (Size.b.bits - 1) ≤ (s1.getR .b 0 ++ s1.getR .b 1).toInt.tdiv (s1.getR .b 2).toInt) := by decide

theorem witness_DivideByZeroTraps :
    (Rm.postInc 0).wellFormed = true ∧ operand .w 1 (.postInc 0) busy = 0 ∧ operand .b 1 (.short 0) busy = 0 := by decide

theorem witness_MulThenDivRestores :
    (1 : RegNum) ≠ 0 ∧ (4 : RegNum) ≠ 0 ∧ (4 : RegNum) ≠ 1 ∧ busy.getR .b 4 ≠ 0 ∧
      ∃ t, exec (.mulu .b 1 (.reg 4)) busy = .next t :=
  ⟨by decide, by decide, by decide, by decide, _, rfl⟩

theorem witness_AddAdxChain :
    (Size.b = .b → busy.flags.d = false) ∧ (1 : RegNum) ≠ 0 ∧
      ∃ t u, exec (.addRRm .b 0 (.reg 2)) busy = .next t ∧ exec (.adxRRm .b 1 (.reg 3)) t = .next u :=
  ⟨by decide, by decide, _, _, rfl, rfl⟩

theorem witness_LogicResults : (Rm.imm16 0xFFFF).wellFormed = true := by decide

theorem witness_ShiftResults : (Rm.reg 4).wellFormed = true := by decide

theorem witness_BitResults : (Rm.regIdx 7 (.byte true 4)).wellFormed = true := by decide

theorem witness_JumpResults : (Rm.imm24 0xFFFFFF).wellFormed = true := by decide

theorem witness_CallResults : (Rm.preDec 7).wellFormed = true := by decide

theorem witness_CallThenReturn :
    busy.mem.wf = true ∧ (∀ m ∈ operandsOf (.callRm (.preDec 7)), m.wellFormed = true) ∧
      (∃ b, callBase (.callRm (.preDec 7)) busy = some b ∧ ∀ a ∈ touched .p (b.getP 7 - 4), busy.isRam a = true) ∧
      (∃ t, exec (.callRm (.preDec 7)) busy = .next t) ∧
      (∃ b, callBase (.rst 0xFF) busy = some b) ∧ ∃ t, exec (.rst 0xFF) busy = .next t :=
  ⟨by decide, by decide, ⟨_, rfl, fun a _ => busy_isRam a⟩, ⟨_, rfl⟩, ⟨_, rfl⟩, ⟨_, rfl⟩⟩

/-- What the five clauses share, at a NOP. -/
theorem witness_RepeatRuleSteps :
    (let s := repeating [0x0000] [] 0 true 1 false 0
     fetchesNext s ∧ s.pgc.getLsbD 0 = false ∧ decode s.fetchBytes = .ok .nop ∧ notRepeatable .nop = false) ∧
    (let s := repeating [0x0000] [] 0 true 1 false 0
     after (exec .nop s.pastBoundary) (fun u => u.repiA && u.repiN != 0) = true) ∧
    (let s := repeating [0x0000] [] 0 true 0 false 0
     after (exec .nop s.pastBoundary) (fun u => u.repiA && u.repiN == 0) = true) ∧
    (let s := repeating [0x0000] [(1, 2)] 0 false 0 true 1
     after (exec .nop s.pastBoundary) (fun u => !u.repiA && u.reprA && u.getP u.reprR != 1 && !u.flags.z) = true) ∧
    (let s := repeating [0x0000] [(1, 1)] 0 false 0 true 1
     after (exec .nop s.pastBoundary) (fun u => !u.repiA && u.reprA && u.getP u.reprR == 1) = true) ∧
    (let s := repeating [0x0000] [(1, 0)] 0x40 false 0 true 1
     after (exec .nop s.pastBoundary) (fun u => !u.repiA && u.reprA && u.flags.z) = true) ∧
    (let s := repeating [0x0000] [] 0 false 0 false 0
     after (exec .nop s.pastBoundary) (fun u => !u.repiA && !u.reprA) = true) := by
  unfold fetchesNext
  decide

/-- A repeat that meets HALT is refused; one that meets a NOP is not. -/
theorem witness_StepStopsOnlyOnMisuse :
    step (repeating [0x0001] [] 0 true 0 false 0) = .refused .repeatMisuse ∧
      after (step (repeating [0x0000] [] 0 true 0 false 0)) (fun t => !t.repiA) = true := ⟨by rfl, by decide⟩

theorem witness_TrapEntry :
    busy.mem.wf = true ∧
      (∀ b ∈ [evenAddr (busy.getP 7 - 6), evenAddr (busy.getP 7 - 6) + 1, evenAddr (busy.getP 7 - 6) + 2,
        evenAddr (busy.getP 7 - 6) + 3, evenAddr (busy.getP 7 - 6) + 4], busy.isRam b = true) ∧
      busy.isMemory (evenAddr (busy.getP 7 - 6) + 5) = true := ⟨by decide, fun a _ => busy_isRam a, by decide⟩

theorem witness_TrapThenReti :
    busy.mem.wf = true ∧ (0xFFFFFE : Ptr).getLsbD 0 = false ∧
      ∀ a ∈ touched .p (busy.getP 7 - 4) ++ touched .w (busy.getP 7 - 6), busy.isRam a = true :=
  ⟨by decide, by decide, fun a _ => busy_isRam a⟩

/-- The three cases of the choice, with IRQ3 at the level IRL and IRQ4 above it. -/
theorem witness_InterruptSelection :
    busy.acceptable { Requests.none with nmi := true } = some .nmi ∧
      busy.acceptable { Requests.none with irq3 := true, irq4 := true } = some (.irq .irq3) ∧
      busy.acceptable { Requests.none with irq4 := true } = none := by decide

theorem witness_BoundarySteps :
    ({ busy with requests := [{ Requests.none with reset := true, nmi := true }] }).asserted.reset = true ∧
    (let s := { busy with halted := true, requests := [{ Requests.none with irq4 := true }] }
     s.asserted.reset = false ∧ s.halted = true ∧ s.acceptable s.asserted = none) ∧
    (let s := { busy with halted := true }
     s.asserted.reset = false ∧ s.halted = true ∧ s.acceptable s.asserted = some (.irq .irq3)) ∧
    (busy.asserted.reset = false ∧ busy.halted = false ∧ busy.repiA = false ∧
      busy.acceptable busy.asserted = some (.irq .irq3)) := by decide

/-- A word that decodes, a first word of no row, and a malformed instruction. -/
theorem witness_StepRunsDecoded :
    (let s := start 0xFFFFFC [0x0000] [] 0 []
     fetchesNext s ∧ decode s.fetchBytes = .ok .nop ∧ ((s.repiA || s.reprA) && notRepeatable .nop) = false ∧
      (∃ t, exec .nop s.pastBoundary = .next t) ∧ s.pgc.getLsbD 0 = false ∧
      ∀ k < 10, s.isMemory (s.pgc + BitVec.ofNat 24 k) = true) ∧
    (let s := start 0x001000 [0xFEFF] [] 0 []
     fetchesNext s ∧ decode s.fetchBytes = .error (.nonexistent 0xFEFF)) ∧
    (let s := start 0x001000 [0x1039, 0x0205] [] 0 []
     fetchesNext s ∧ decode s.fetchBytes = .error (.malformed (.ldRmRm .b (.reg 0) (.badRegIdx 0x0205)))) := by
  unfold fetchesNext
  exact ⟨⟨by decide, by decide, by decide, ⟨_, rfl⟩, by decide, by decide⟩, by decide, by decide⟩

/-- The two clauses on what is decoded: a copy, a malformed copy, and an instruction that is no copy. -/
theorem witness_StepRunsDecoded_words :
    (let s := start 0x001000 [0x1A69, 0x4000, 0x5000] [] 0 []
     fetchesNext s ∧ decodeWords s.wordsAhead = .ok (.ldRmRm .b (.abs16 0x5000) (.abs16 0x4000))) ∧
    (let s := start 0x001000 [0x1039, 0x0205] [] 0 []
     fetchesNext s ∧ decodeWords s.wordsAhead = .error (.malformed (.ldRmRm .b (.reg 0) (.badRegIdx 0x0205)))) ∧
    (let s := start 0x001000 [0x0000] [] 0 []
     fetchesNext s ∧ decodeWords s.wordsAhead = .ok .nop) := by
  unfold fetchesNext
  exact ⟨by decide, by decide, by decide⟩

theorem witness_InvariantKept : busy.Inv ∧ ∃ t, step busy = .next t :=
  ⟨⟨by decide, by decide, by decide, by decide⟩, _, rfl⟩

theorem witness_MemoryFrameNoStore :
    storesNothing (.tst .b (.postInc 7)) ∧ raisesNone (.tst .b (.postInc 7)) busy ∧ busy.isMemory 0xFFFFFF = true ∧
      ∃ t, exec (.tst .b (.postInc 7)) busy = .next t := by
  refine ⟨rfl, ⟨by decide, by decide, id⟩, by decide, _, rfl⟩

/-- A divide by a number that is not zero raises no exception; nor does a store at the top of memory. -/
theorem witness_MemoryFrameStores :
    raisesNone (.divu .b 1 (.reg 4)) busy ∧ raisesNone (.sla .p (.abs24 0xFFFFFF)) busy ∧
      (∃ t, exec (.sla .p (.abs24 0xFFFFFF)) busy = .next t) ∧
      busy.isMemory 1 = true ∧ (1 : Ptr) ∉ storedBytes (.sla .p (.abs24 0xFFFFFF)) busy ∧
      (0 : Ptr) ∈ storedBytes (.sla .p (.abs24 0xFFFFFF)) busy := by
  refine ⟨⟨by decide, by decide, ?_⟩, ⟨by decide, by decide, id⟩, ⟨_, rfl⟩, by decide, by decide, by decide⟩
  show ¬ operand .b 1 (.reg 4) busy = 0
  decide

theorem witness_RegisterFrame :
    raisesNone (.push .b (.postInc 1)) busy ∧ (∃ t, exec (.push .b (.postInc 1)) busy = .next t) ∧
      (0 : RegNum) ∉ writtenRegs (.push .b (.postInc 1)) ∧ (7 : RegNum) ∈ writtenRegs (.push .b (.postInc 1)) :=
  ⟨⟨by decide, by decide, id⟩, ⟨_, rfl⟩, by decide, by decide⟩

theorem witness_FlagFrame : ∃ t, exec (.bitM0 (.short 15)) busy = .next t := ⟨_, rfl⟩

theorem witness_ControlFrame :
    raisesNone (.lea 1 (.ind 2)) busy ∧ (∃ t, exec (.lea 1 (.ind 2)) busy = .next t) ∧ writesIrl (.lea 1 (.ind 2)) = false ∧
      drawsFree (.swapP (.ind 2)) = false ∧ ∀ a, busy.isRam a = true :=
  ⟨⟨by decide, by decide, id⟩, ⟨_, rfl⟩, by decide, by decide, busy_isRam⟩

end Sys2Proof.Tests
end

namespace Sys2Proof.Machine

open Sys2Proof.Claims

/-! Boundaries and fetch (00_scope.md R12): one equation for each thing that a step does at a boundary, and what the decoded
words and bytes are. -/

section
variable {s : State}

/-! ### The step at each kind of boundary -/

/-- Whether an interrupt is acceptable rests on IRL and the inputs, not on the schedule. -/
@[simp] theorem State.acceptable_pastBoundary (s : State) (rq : Requests) :
    s.pastBoundary.acceptable rq = s.acceptable rq := rfl

@[simp] theorem State.interruptReturn_pastBoundary (s : State) :
    s.pastBoundary.interruptReturn = s.interruptReturn := rfl

@[simp] theorem State.getP_pastBoundary (s : State) (i : RegNum) : s.pastBoundary.getP i = s.getP i := rfl

theorem step_of_reset (hr : s.asserted.reset = true) : step s = .next s.pastBoundary.resetLine := by
  simp only [step, cycle, boundary, hr, if_true]

theorem step_of_halted_waiting (hr : s.asserted.reset = false) (hh : s.halted = true)
    (ha : s.acceptable s.asserted = none) : step s = .next s.pastBoundary := by
  simp [step, cycle, boundary, hr, hh, ha]

theorem step_of_halted_interrupted (hr : s.asserted.reset = false) (hh : s.halted = true) {c : TrapCause}
    (ha : s.acceptable s.asserted = some c) : step s = .next (s.pastBoundary.trap c s.pgc) := by
  simp [step, cycle, boundary, hr, hh, ha]

theorem step_of_interrupted (hr : s.asserted.reset = false) (hh : s.halted = false) (hi : s.repiA = false)
    {c : TrapCause} (ha : s.acceptable s.asserted = some c) :
    step s = .next (s.pastBoundary.trap c s.interruptReturn) := by
  simp [step, cycle, boundary, hr, hh, hi, ha]

theorem step_of_fetchesNext (h : fetchesNext s) : step s = fetchAndRun s.pastBoundary := by
  obtain ⟨hr, hh, hi | ha⟩ := h
  · simp [step, cycle, boundary, hr, hh, hi]
  · simp [step, cycle, boundary, hr, hh, ha]

/-! ### The Reset Routine (70_reset_and_hazards.md R410) -/

section
variable (s : State)

@[simp] theorem State.resetLine_irl : s.resetLine.irl = 0 := rfl
@[simp] theorem State.resetLine_pgc : s.resetLine.pgc = resetVector := rfl
@[simp] theorem State.resetLine_repiA : s.resetLine.repiA = false := rfl
@[simp] theorem State.resetLine_reprA : s.resetLine.reprA = false := rfl
@[simp] theorem State.resetLine_halted : s.resetLine.halted = false := rfl
@[simp] theorem State.resetLine_mem : s.resetLine.mem = s.mem := rfl
@[simp] theorem State.resetLine_getP_sp : s.resetLine.getP 7#3 = s.getP 7#3 := rfl

end

/-! ### The decoded instruction -/

/-- What was fetched at a boundary decides the step: the three answers that the decoder gives for five words. -/
theorem step_of_decoded (h : fetchesNext s) {i : Instr} (hd : decode s.fetchBytes = .ok i) :
    step s = runInstr i s.pastBoundary := by
  simp only [step_of_fetchesNext h, fetchAndRun, State.fetchBytes_pastBoundary, hd]

theorem step_of_malformed (h : fetchesNext s) {i : Instr} (hd : decode s.fetchBytes = .error (.malformed i)) :
    step s = exec i s.pastBoundary := by
  simp only [step_of_fetchesNext h, fetchAndRun, State.fetchBytes_pastBoundary, hd]

theorem step_of_nonexistent (h : fetchesNext s) {w : Word} (hd : decode s.fetchBytes = .error (.nonexistent w)) :
    step s = .next ((s.pastBoundary.advance 1).raise .illegalInstruction s.pgc (s.pastBoundary.advance 1).pgc) := by
  simp only [step_of_fetchesNext h, fetchAndRun, State.fetchBytes_pastBoundary, hd, State.pastBoundary_pgc]

/-- An instruction that the repeat in progress, if any, admits is run, and then the repeat rule is applied. -/
theorem runInstr_of_next {i : Instr} {t : State} (hr : ((s.repiA || s.reprA) && notRepeatable i) = false)
    (he : exec i s = .next t) : runInstr i s = .next (if isRepeatPrefix i then t else t.repeatRule s.pgc) := by
  simp only [runInstr, hr, he, afterInstr, Bool.false_eq_true, if_false]

/-! ### The words ahead -/

/-- Bit 0 of the address of a 16-bit read is ignored (20_memory.md R65). -/
theorem State.wordAt_evenAddr (s : State) (a : Ptr) : s.wordAt (evenAddr a) = s.wordAt a := by
  simp only [State.wordAt, evenAddr_evenAddr]

/-- `advance` and `didFetch` differ in PGC alone, on which a read does not depend. -/
theorem State.wordAt_advance (s : State) (k : Nat) (a : Ptr) : (s.advance k).wordAt a = (s.didFetch k).wordAt a := by
  cases k <;> rfl

/-- A word is fetched by a 16-bit read at PGC once those before it have been fetched. -/
theorem State.fetchWord_eq_memRead (s : State) (k : Nat) :
    s.fetchWord k = (s.advance k).memRead .w (s.advance k).pgc :=
  calc s.fetchWord k
    _ = (s.didFetch k).wordAt (evenAddr (s.pgc + BitVec.ofNat 24 (2 * k))) := (State.wordAt_evenAddr _ _).symm
    _ = (s.advance k).memRead .w (s.advance k).pgc := (State.wordAt_advance s k _).symm

theorem State.wordsAhead_eq_memRead (s : State) :
    s.wordsAhead = (List.range 5).map fun k => (s.advance k).memRead .w (s.advance k).pgc := by
  simp only [← State.fetchWord_eq_memRead]
  rfl

/-- The first word decoded is the one at PGC, of a copy too. -/
theorem State.fetchWords_head (s : State) : ∃ ws, s.fetchWords = s.memRead .w s.pgc :: ws := by
  have ha : ∃ ws, s.wordsAhead = s.memRead .w s.pgc :: ws := by
    simp only [State.wordsAhead, List.map_cons, State.fetchWord, State.didFetch, State.memRead, Nat.mul_zero,
      BitVec.add_zero]
    exact ⟨_, rfl⟩
  obtain ⟨ws, ha⟩ := ha
  cases hc : copyOf (decodeWords s.wordsAhead) with
  | none => exact ⟨ws, (State.fetchWords_of_copyOf_none hc).trans ha⟩
  | some r =>
    obtain ⟨z, d, m⟩ := r
    rw [State.fetchWords_of_copyOf_some hc, ha, Nat.add_comm 1]
    exact ⟨_, rfl⟩

/-! ### Copies: their later words are fetched after the source is read -/

/-- A copy, well formed or not, is what `copyOf` finds. -/
theorem copyOf_eq_some {o : Except DecodeError Instr} {z : Size} {d m : Rm}
    (h : o = .ok (.ldRmRm z d m) ∨ o = .error (.malformed (.ldRmRm z d m))) : copyOf o = some (z, d, m) := by
  obtain rfl | rfl := h <;> rfl

/-- Anything else is no copy. -/
theorem copyOf_eq_none {o : Except DecodeError Instr}
    (h : ∀ z d m, o ≠ .ok (.ldRmRm z d m) ∧ o ≠ .error (.malformed (.ldRmRm z d m))) : copyOf o = none := by
  unfold copyOf
  split
  · exact absurd rfl (h _ _ _).1
  · exact absurd rfl (h _ _ _).2
  · rfl

/-! ### The bytes ahead -/

/-- An even address stands for itself, and so do those at an even distance from it. -/
theorem evenAddr_add_of_even {a : Ptr} (h : a.getLsbD 0 = false) (k : Nat) :
    evenAddr (a + BitVec.ofNat 24 (2 * k)) = a + BitVec.ofNat 24 (2 * k) := by
  rw [evenAddr_add, evenAddr, and_fixedZero_of_even h]

/-- The two bytes of a word, the lower one first. -/
theorem bytesOfWords_cons_append (hi lo : Byte) (ws : List Word) :
    bytesOfWords ((hi ++ lo) :: ws) = lo :: hi :: bytesOfWords ws := by
  have hlo : BitVec.extractLsb' 0 8 (hi ++ lo) = lo := BitVec.extractLsb'_append_eq_right
  have hhi : BitVec.extractLsb' 8 8 (hi ++ lo) = hi := BitVec.extractLsb'_append_eq_left
  simp only [bytesOfWords, hlo, hhi]

section
variable {n : Nat} (he : s.pgc.getLsbD 0 = false) (hm : ∀ j < 2 * n, s.isMemory (s.pgc + BitVec.ofNat 24 j) = true)
include he hm

/-- The bytes that a fetch at an even PGC touches are among those from PGC onwards. -/
theorem State.isMemory_of_touched {k : Nat} (hk : k < n) :
    ∀ b ∈ touched .w (s.pgc + BitVec.ofNat 24 (2 * k)), s.isMemory b = true := by
  have h0 := hm (2 * k) (by omega)
  have h1 := hm (2 * k + 1) (by omega)
  rw [BitVec.ofNat_add, ← BitVec.add_assoc] at h1
  simpa [touched, evenAddr_add_of_even he] using And.intro h0 h1

/-- In memory the word fetched at an even PGC is made of the bytes at its address and above it. -/
theorem State.fetchWord_of_even {k : Nat} (hk : k < n) :
    s.fetchWord k =
      s.byteAt (s.pgc + BitVec.ofNat 24 (2 * k + 1)) ++ s.byteAt (s.pgc + BitVec.ofNat 24 (2 * k)) := by
  rw [State.fetchWord_of_isMemory fun j hj => State.isMemory_of_touched he hm (Nat.lt_of_le_of_lt hj hk),
    evenAddr_add_of_even he, BitVec.ofNat_add, ← BitVec.add_assoc]
  rfl

end

/-- What is decoded at an even PGC in memory are the ten bytes from it. -/
theorem State.fetchBytes_of_even (he : s.pgc.getLsbD 0 = false)
    (hm : ∀ j < 10, s.isMemory (s.pgc + BitVec.ofNat 24 j) = true) :
    s.fetchBytes = (List.range 10).map fun j => s.byteAt (s.pgc + BitVec.ofNat 24 j) := by
  have hw : ∀ k < 5, s.fetchWord k = _ := fun k hk => State.fetchWord_of_even (n := 5) he hm hk
  rw [State.fetchBytes, State.fetchWords_of_isMemory fun j hj => State.isMemory_of_touched (n := 5) he hm hj]
  simp only [State.wordsAhead, List.map_cons, List.map_nil, hw, Nat.reduceLT, bytesOfWords_cons_append]
  rfl

end

/-! ### The statements of 00_scope.md -/

/-- Settles O51: each clause is the equation of the step at its boundary. -/
theorem boundarySteps : Obligations.BoundarySteps := by
  intro s
  refine ⟨fun hr => ⟨_, step_of_reset hr, ?_⟩, step_of_halted_waiting, fun hr hh c => step_of_halted_interrupted hr hh,
    fun hr hh hi c => step_of_interrupted hr hh hi⟩
  simp [resetVector]

/-- Settles O53: each clause is an equation of the step by what was decoded, or of the words and bytes decoded. -/
theorem stepRunsDecoded : Obligations.StepRunsDecoded := by
  intro s hs n
  refine ⟨fun i hd hr t he => ?_, fun v hd => step_of_nonexistent hs hd, fun i hd => step_of_malformed hs hd,
    fun z d m hd => ?_, fun hd => ?_, s.wordsAhead_eq_memRead, ?_, State.fetchBytes_of_even⟩
  · rw [step_of_decoded hs hd]
    exact runInstr_of_next hr he
  · rw [wordsOfBytes_fetchBytes]
    exact State.fetchWords_of_copyOf_some (copyOf_eq_some hd)
  · rw [wordsOfBytes_fetchBytes]
    exact State.fetchWords_of_copyOf_none (copyOf_eq_none hd)
  · obtain ⟨ws, hw⟩ := s.fetchWords_head
    rw [State.fetchBytes, hw]
    rfl

end Sys2Proof.Machine

namespace Sys2Proof

/-! ### The decoder calls an instruction malformed only by its operands -/

section
variable (i : Instr) (z : Size) (w : FirstWord) (ws : List Word)

@[simp] theorem decodeRm_ne_malformed (k : Rm → Instr) (m : BitVec 6) : decodeRm k m ws ≠ .error (.malformed i) := by
  unfold decodeRm; split <;> simp

@[simp] theorem decodeRmImm_ne_malformed (k : Rm → Ptr → Instr) (m : BitVec 6) :
    decodeRmImm k z m ws ≠ .error (.malformed i) := by
  unfold decodeRmImm; split <;> simp

@[simp] theorem decodeDstSrc_ne_malformed (k : Rm → Rm → Instr) (d m : BitVec 6) :
    decodeDstSrc k d m ws ≠ .error (.malformed i) := by
  unfold decodeDstSrc; split <;> simp

@[simp] theorem decodeHml_ne_malformed (k : Ptr → Instr) (h : Byte) : decodeHml k h ws ≠ .error (.malformed i) := by
  unfold decodeHml; split <;> simp

theorem decodeLow_ne_malformed : decodeLow z w ws ≠ .error (.malformed i) := by
  unfold decodeLow; split
  · split <;> simp
  all_goals simp

theorem decodeShift_ne_malformed : decodeShift z w ws ≠ .error (.malformed i) := by
  unfold decodeShift; split
  case h_7 => split <;> simp
  all_goals simp

theorem decodeImmForms_ne_malformed : decodeImmForms z w ws ≠ .error (.malformed i) := by
  unfold decodeImmForms; split <;> simp

theorem decodeGroup0_ne_malformed : decodeGroup0 z w ws ≠ .error (.malformed i) := by
  unfold decodeGroup0; repeat' split
  all_goals simp [decodeLow_ne_malformed, decodeShift_ne_malformed]

theorem decodeGroup1_ne_malformed : decodeGroup1 z w ws ≠ .error (.malformed i) := by
  unfold decodeGroup1; repeat' split
  all_goals simp

theorem decodeGroup2_ne_malformed : decodeGroup2 z w ws ≠ .error (.malformed i) := by
  unfold decodeGroup2; repeat' split
  all_goals simp

theorem decodeGroup3_ne_malformed : decodeGroup3 z w ws ≠ .error (.malformed i) := by
  unfold decodeGroup3; repeat' split
  all_goals simp [decodeImmForms_ne_malformed]

theorem decodeSized_ne_malformed : decodeSized z w ws ≠ .error (.malformed i) := by
  unfold decodeSized
  split
  · exact decodeGroup0_ne_malformed i z w ws
  · exact decodeGroup1_ne_malformed i z w ws
  · exact decodeGroup2_ne_malformed i z w ws
  · exact decodeGroup3_ne_malformed i z w ws

theorem decodeGroup12_ne_malformed : decodeGroup12 w ws ≠ .error (.malformed i) := by
  unfold decodeGroup12; split <;> simp

theorem decodeGroup13_ne_malformed : decodeGroup13 w ws ≠ .error (.malformed i) := by
  unfold decodeGroup13; repeat' split
  all_goals simp

theorem decodeGroup14_ne_malformed : decodeGroup14 w ≠ .error (.malformed i) := by
  unfold decodeGroup14; repeat' split
  all_goals simp

theorem decodeGroup15_ne_malformed : decodeGroup15 w ws ≠ .error (.malformed i) := by
  unfold decodeGroup15; repeat' split
  all_goals simp

/-- The opcode map names no instruction malformed: that is left to the check of the operands. -/
theorem decodeFields_ne_malformed : decodeFields w ws ≠ .error (.malformed i) := by
  unfold decodeFields
  split
  · exact decodeSized_ne_malformed i _ w ws
  · split
    · exact decodeGroup12_ne_malformed i w ws
    · exact decodeGroup13_ne_malformed i w ws
    · exact decodeGroup14_ne_malformed i w
    · exact decodeGroup15_ne_malformed i w ws

end

/-- An instruction that the decoder calls malformed is not well formed. -/
theorem wellFormed_of_decodeWords_malformed {ws : List Word} {i : Instr} (h : decodeWords ws = .error (.malformed i)) :
    i.wellFormed = false := by
  cases ws with
  | nil => nomatch h
  | cons w ws =>
    cases hd : decodeFields (FirstWord.split w) ws with
    | ok j =>
      simp only [decodeWords, hd] at h
      split at h
      · nomatch h
      · cases h
        exact (Bool.not_eq_true _).mp ‹_›
    | error e =>
      simp only [decodeWords, hd] at h
      cases h
      exact absurd hd (decodeFields_ne_malformed i _ _)

end Sys2Proof

namespace Sys2Proof.Machine

open Sys2Proof.Claims

/-! What an instruction may change, said once for all of them: `Keeps` is closed under composition, every operation of the
model keeps what it does not write, and `exec_ends` puts the operations of each instruction together. -/

/-! ### The flags under a mask -/

/-- Two values of the six flags differ only in flags whose bit of F is in `mask`. -/
structure Flags.AgreeOff (mask : Byte) (f g : Flags) : Prop where
  s : mask.getLsbD 7 = false → g.s = f.s
  z : mask.getLsbD 6 = false → g.z = f.z
  c : mask.getLsbD 3 = false → g.c = f.c
  vp : mask.getLsbD 2 = false → g.vp = f.vp
  d : mask.getLsbD 1 = false → g.d = f.d
  x : mask.getLsbD 0 = false → g.x = f.x

theorem Flags.AgreeOff.refl (mask : Byte) (f : Flags) : f.AgreeOff mask f :=
  ⟨fun _ => rfl, fun _ => rfl, fun _ => rfl, fun _ => rfl, fun _ => rfl, fun _ => rfl⟩

theorem Flags.AgreeOff.trans {mask : Byte} {f g h : Flags} (hfg : f.AgreeOff mask g) (hgh : g.AgreeOff mask h) :
    f.AgreeOff mask h where
  s hm := (hgh.s hm).trans (hfg.s hm)
  z hm := (hgh.z hm).trans (hfg.z hm)
  c hm := (hgh.c hm).trans (hfg.c hm)
  vp hm := (hgh.vp hm).trans (hfg.vp hm)
  d hm := (hgh.d hm).trans (hfg.d hm)
  x hm := (hgh.x hm).trans (hfg.x hm)

/-- F bit by bit: the flags at their places, 0 at bits 5 and 4 (10_state.md R27, R28). -/
theorem State.getLsbD_fByte (s : State) (i : Nat) :
    s.fByte.getLsbD i =
      match i with
      | 7 => s.flags.s
      | 6 => s.flags.z
      | 3 => s.flags.c
      | 2 => s.flags.vp
      | 1 => s.flags.d
      | 0 => s.flags.x
      | _ => false := by
  rcases i with _ | _ | _ | _ | _ | _ | _ | _ | i <;> simp only [State.fByte, BitVec.getLsbD_append] <;> simp

/-- Flags that agree off a mask give bytes that agree off it. -/
theorem State.fByte_masked_congr {mask : Byte} {s t : State} (h : s.flags.AgreeOff mask t.flags) :
    t.fByte &&& ~~~mask = s.fByte &&& ~~~mask := by
  apply BitVec.eq_of_getLsbD_eq
  intro i hi
  cases hm : mask.getLsbD i
  · have : t.fByte.getLsbD i = s.fByte.getLsbD i := by
      simp only [State.getLsbD_fByte]
      split
      · exact h.s hm
      · exact h.z hm
      · exact h.c hm
      · exact h.vp hm
      · exact h.d hm
      · exact h.x hm
      · rfl
    simp [this]
  · simp [hm]

/-! ### What an instruction keeps -/

/-- `t` differs from `s` only in what `i` may write: its registers and flags (10_state.md R24, R37), IRL, repeat state and
halted bit (R27, R38 to R40), and the model's own fields; memory stays canonical and PGC even. -/
structure Keeps (i : Instr) (s t : State) : Prop where
  regs : ∀ j, j ∉ writtenRegs i → t.getP j = s.getP j
  flags : s.flags.AgreeOff (writtenFlags i) t.flags
  irl : writesIrl i = false → t.irl = s.irl
  repi : (∀ n, i ≠ .repi n) → t.repiA = s.repiA ∧ t.repiN = s.repiN
  repr : (∀ r, i ≠ .repr r) → t.reprA = s.reprA ∧ t.reprR = s.reprR
  halted : i ≠ .halt → t.halted = s.halted
  freeCount : drawsFree i = false → t.freeCount = s.freeCount
  requests : t.requests = s.requests
  map : t.map = s.map
  bus : (∀ a, s.isRam a = true) → t.bus = s.bus
  memory : s.mem.wf = true → t.mem.wf = true
  even : s.pgc.getLsbD 0 = false → t.pgc.getLsbD 0 = false

section
variable {i : Instr}

theorem Keeps.refl (s : State) : Keeps i s s :=
  ⟨fun _ _ => rfl, .refl _ _, fun _ => rfl, fun _ => ⟨rfl, rfl⟩, fun _ => ⟨rfl, rfl⟩, fun _ => rfl, fun _ => rfl, rfl, rfl,
    fun _ => rfl, id, id⟩

theorem Keeps.trans {s t u : State} (hst : Keeps i s t) (htu : Keeps i t u) : Keeps i s u where
  regs j hj := (htu.regs j hj).trans (hst.regs j hj)
  flags := hst.flags.trans htu.flags
  irl h := (htu.irl h).trans (hst.irl h)
  repi h := ⟨(htu.repi h).1.trans (hst.repi h).1, (htu.repi h).2.trans (hst.repi h).2⟩
  repr h := ⟨(htu.repr h).1.trans (hst.repr h).1, (htu.repr h).2.trans (hst.repr h).2⟩
  halted h := (htu.halted h).trans (hst.halted h)
  freeCount h := (htu.freeCount h).trans (hst.freeCount h)
  requests := htu.requests.trans hst.requests
  map := htu.map.trans hst.map
  bus h := (htu.bus fun a => (State.isRam_congr hst.map a).trans (h a)).trans (hst.bus h)
  memory h := htu.memory (hst.memory h)
  even h := htu.even (hst.even h)

/-! ### The operations of the model -/

/-- Where everything is RAM no write is seen by the platform. -/
theorem State.memWrite_bus_of_isRam {s : State} (h : ∀ a, s.isRam a = true) (z : Size) (a : Ptr) (v : BitVec z.bits) :
    (s.memWrite z a v).bus = s.bus := by
  have h8 : ∀ t : State, t.map = s.map → ∀ a v, (t.write8 a v).bus = t.bus := fun t ht a v => by
    rw [State.write8, State.didWrite8_of_isRam ((State.isRam_congr (t := t.setByte a v) ht a).trans (h a)), State.setByte_bus]
  have h16 : ∀ a v, (s.write16 a v).bus = s.bus := fun a v => by
    rw [State.write16, State.didWrite16_of_isRam (s := (s.setByte _ _).setByte _ _) (h (evenAddr a)) (h (evenAddr a + 1))]
    rfl
  cases z
  · exact h8 s rfl _ _
  · exact h16 _ _
  · exact (h8 _ (State.memWrite_map s .w a _) _ _).trans (h16 _ _)

theorem State.advance_bus_of_isRam {s : State} (h : ∀ a, s.isRam a = true) (k : Nat) : (s.advance k).bus = s.bus := by
  rw [State.advance_bus, State.didFetch_of_isMemory fun _ _ b _ => State.isMemory_of_isRam (h b)]

theorem and_fixedZero_even (v : Ptr) : (v &&& 0xFFFFFE).getLsbD 0 = false := by simp

/-- After a fetch PGC is even, whatever it was (10_state.md R31). -/
theorem State.advance_even (s : State) (k : Nat) : (s.advance k).pgc.getLsbD 0 = false := and_fixedZero_even _

variable (s : State)

theorem Keeps.advance (k : Nat) : Keeps i s (s.advance k) :=
  { Keeps.refl s with bus := fun h => State.advance_bus_of_isRam h k, even := fun _ => s.advance_even k }

theorem Keeps.setP {r : RegNum} (h : r ∈ writtenRegs i) (v : Ptr) : Keeps i s (s.setP r v) :=
  { Keeps.refl s with regs := fun _ hj => State.getP_setP_of_ne s v fun e => hj (e ▸ h) }

theorem home_eq_partOf (z : Size) (r : RegNum) : home z r = partOf z r := by
  revert z r; rintro (_ | _ | _) <;> decide

/-- A write through any name is a write of the P register that the name lies in. -/
theorem State.setR_eq_setP (z : Size) (r : RegNum) (v : BitVec z.bits) : ∃ v', s.setR z r v = s.setP (partOf z r) v' := by
  rw [← home_eq_partOf]
  cases z with
  | b => simp only [State.setR]; split <;> exact ⟨_, rfl⟩
  | w | p => exact ⟨_, rfl⟩

theorem Keeps.setR {z : Size} {r : RegNum} (h : partOf z r ∈ writtenRegs i) (v : BitVec z.bits) :
    Keeps i s (s.setR z r v) := by
  obtain ⟨v', hv⟩ := s.setR_eq_setP z r v
  exact hv ▸ Keeps.setP s h v'

theorem State.write8_frame (a : Ptr) (v : Byte) : ∃ mem bus, s.write8 a v = { s with mem := mem, bus := bus } :=
  ⟨_, _, rfl⟩

theorem State.write16_frame (a : Ptr) (v : Word) : ∃ mem bus, s.write16 a v = { s with mem := mem, bus := bus } :=
  ⟨_, _, rfl⟩

/-- A write changes memory and what the platform has seen, nothing else. -/
theorem State.memWrite_frame (z : Size) (a : Ptr) (v : BitVec z.bits) :
    ∃ mem bus, s.memWrite z a v = { s with mem := mem, bus := bus } := by
  cases z with
  | b => exact s.write8_frame a v
  | w => exact s.write16_frame a v
  | p =>
    obtain ⟨mem, bus, h⟩ := s.write16_frame a (v.extractLsb' 0 16)
    simp only [State.memWrite, h]
    exact State.write8_frame _ _ _

theorem Keeps.memWrite (z : Size) (a : Ptr) (v : BitVec z.bits) : Keeps i s (s.memWrite z a v) := by
  obtain ⟨mem, bus, h⟩ := s.memWrite_frame z a v
  have hmem : s.mem.wf = true → mem.wf = true := fun hs => by simpa only [h] using State.wf_memWrite hs z a v
  have hbus : (∀ a, s.isRam a = true) → bus = s.bus := fun hr => by
    simpa only [h] using State.memWrite_bus_of_isRam hr z a v
  exact h ▸ { Keeps.refl s with memory := hmem, bus := hbus }

theorem Keeps.setFlags {f : Flags} (h : s.flags.AgreeOff (writtenFlags i) f) : Keeps i s (s.setFlags f) :=
  { Keeps.refl s with flags := h }

/-- A write of F may change every flag. -/
theorem Keeps.setF (h : writtenFlags i = 0b11001111) (v : Byte) : Keeps i s (s.setF v) :=
  { Keeps.refl s with flags := by rw [h]; constructor <;> simp }

theorem Keeps.setIrl (h : writesIrl i = true) (v : BitVec 3) : Keeps i s (s.setIrl v) :=
  { Keeps.refl s with irl := fun h' => absurd (h.symm.trans h') (by decide) }

theorem Keeps.setWf (h : writtenFlags i = 0b11001111) (h' : writesIrl i = true) (v : Word) : Keeps i s (s.setWf v) :=
  (Keeps.setF s h _).trans (Keeps.setIrl _ h' _)

theorem Keeps.setPgc (v : Ptr) : Keeps i s (s.setPgc v) :=
  { Keeps.refl s with even := fun _ => and_fixedZero_even v }

theorem Keeps.drawn (h : drawsFree i = true) : Keeps i s s.drawn :=
  { Keeps.refl s with freeCount := fun h' => absurd (h.symm.trans h') (by decide) }

theorem afterRead_frame {z : Size} (l : Loc z) : afterRead l s = { s with bus := (afterRead l s).bus } := by cases l <;> rfl

theorem afterRead_bus_of_isRam {s : State} (h : ∀ a, s.isRam a = true) {z : Size} (l : Loc z) :
    (afterRead l s).bus = s.bus := by
  rw [afterRead_of_isMemory l s fun _ _ b _ => State.isMemory_of_isRam (h b)]

theorem Keeps.afterRead {z : Size} (l : Loc z) : Keeps i s (afterRead l s) := by
  rw [afterRead_frame]
  exact { Keeps.refl s with bus := fun h => afterRead_bus_of_isRam h l }

theorem Keeps.push24 (h : 7 ∈ writtenRegs i) (v : Ptr) : Keeps i s (s.push24 v) :=
  (Keeps.setP s h _).trans (Keeps.memWrite _ .p _ v)

theorem Keeps.call (h : 7 ∈ writtenRegs i) (target : Ptr) : Keeps i s (s.call target) :=
  (Keeps.push24 s h _).trans (Keeps.setPgc _ target)

theorem Keeps.autoModify (z : Size) {m : Rm} (h : autoBase m ⊆ writtenRegs i) : Keeps i s (autoModify z m s) := by
  cases m with
  | postInc r | preDec r => exact Keeps.setP s (h (List.mem_singleton_self r)) _
  | _ => exact Keeps.refl s

/-- A location in a register is that of a Register-mode operand. -/
theorem locate_eq_reg {z : Size} {m : Rm} {r : RegNum} (h : locate z m s = .reg r) : m = .reg r := by
  cases m <;> simp_all [locate]

theorem Keeps.writeOp {z : Size} {l : Loc z} (h : ∀ r, l = .reg r → partOf z r ∈ writtenRegs i) (v : BitVec z.bits) :
    Keeps i s (writeOp l v s) := by
  cases l with
  | reg r => exact Keeps.setR s (h r rfl) v
  | mem ea => exact Keeps.memWrite s z ea v
  | imm _ => exact Keeps.refl s

theorem writtenPlace_subset {z : Size} {m : Rm} (h : destination i = writtenPlace z m) : writtenPlace z m ⊆ writtenRegs i :=
  fun _ hr => List.mem_append_left _ (h ▸ hr)

/-- A write to the place of an operand that `i` names as its destination. -/
theorem Keeps.writeOp_locate {z : Size} {m : Rm} (h : writtenPlace z m ⊆ writtenRegs i) (s' : State) (v : BitVec z.bits) :
    Keeps i s (Machine.writeOp (locate z m s') v s) := by
  refine Keeps.writeOp s (fun r hr => h ?_) v
  rw [locate_eq_reg s' hr]
  exact List.mem_singleton_self _

theorem Keeps.effectiveAddress (h : drawsFree i = true) {z : Size} (l : Loc z) : Keeps i s (effectiveAddress l s).2 := by
  cases l with
  | mem ea => exact Keeps.refl s
  | reg _ | imm _ => exact Keeps.drawn s h

/-! ### The flag computations -/

/-- A write of F that keeps the bits off the mask. -/
theorem Keeps.setF_masked {v : Byte} (h : v &&& ~~~writtenFlags i = s.fByte &&& ~~~writtenFlags i) :
    Keeps i s (s.setF v) := by
  have hb : ∀ k < 8, (writtenFlags i).getLsbD k = false → v.getLsbD k = s.fByte.getLsbD k := fun k hk hm => by
    have := congrArg (BitVec.getLsbD · k) h
    simpa only [BitVec.getLsbD_and, BitVec.getLsbD_not, hk, hm, decide_true, Bool.not_false, Bool.and_true] using this
  refine Keeps.setFlags s ⟨?_, ?_, ?_, ?_, ?_, ?_⟩ <;> intro hm <;> refine (hb _ (by decide) hm).trans (s.getLsbD_fByte _)

/-- S, Z, C, VP and X are written, D is not. -/
theorem Keeps.setFlags_of_d (h : writtenFlags i = 0b11001101) {f : Flags} (hd : f.d = s.flags.d) :
    Keeps i s (s.setFlags f) := by
  refine Keeps.setFlags s ?_
  rw [h]
  constructor <;> simp [hd]

/-- S, Z, C and VP are written, D and X are not. -/
theorem Keeps.setFlags_of_d_x (h : writtenFlags i = 0b11001100) {f : Flags} (hd : f.d = s.flags.d) (hx : f.x = s.flags.x) :
    Keeps i s (s.setFlags f) := by
  refine Keeps.setFlags s ?_
  rw [h]
  constructor <;> simp [hd, hx]

/-- Z alone is written. -/
theorem Keeps.setFlags_z (h : writtenFlags i = 0b01000000) (b : Bool) : Keeps i s (s.setFlags { s.flags with z := b }) := by
  refine Keeps.setFlags s ?_
  rw [h]
  constructor <;> simp

theorem Keeps.arith (h : writtenFlags i = 0b11001101) (h' : drawsFree i = true) (op : AddSub) (z : Size) (a b : BitVec z.bits)
    (cx : Bool) : Keeps i s (arith op z a b cx s).2 := by
  have hf := Keeps.setFlags_of_d s h (arith_d op z a b cx s)
  rw [arith_frame]
  exact { hf with freeCount := fun h'' => absurd (h'.symm.trans h'') (by decide) }

theorem Keeps.quickArith (h : writtenFlags i = 0b11001100) {n : Nat} (op : AddSub) (a b : BitVec n) :
    Keeps i s (quickArith op a b s).2 := Keeps.setFlags_of_d_x s h rfl rfl

theorem Keeps.logic (h : writtenFlags i = 0b11001100) {n : Nat} (res : BitVec n) : Keeps i s (logic res s).2 :=
  Keeps.setFlags_of_d_x s h rfl rfl

theorem Keeps.shift (h : writtenFlags i = 0b11001101) {n : Nat} (op : ShiftOp) (a : BitVec n) : Keeps i s (shift op a s).2 :=
  Keeps.setFlags_of_d s h rfl

theorem Keeps.testBit (h : writtenFlags i = 0b01000000) (a : Byte) (k : BitVec 3) : Keeps i s (s.testBit a k) :=
  Keeps.setFlags_z s h _

/-- The P register behind number 0 is P0 at every size. -/
theorem partOf_zero (z : Size) : partOf z 0 = 0 := by cases z <;> rfl

theorem Keeps.storeProduct (h : writtenFlags i = 0b11001100) {z : Size} {r : RegNum} (h0 : 0 ∈ writtenRegs i)
    (hr : partOf z r ∈ writtenRegs i) (p : Nat) : Keeps i s (storeProduct z r p s) :=
  have hregs := (Keeps.setR s ((partOf_zero z).symm ▸ h0) _).trans (Keeps.setR _ hr _)
  hregs.trans (Keeps.setFlags_of_d_x _ h (by simp [Flags.withProduct]) (by simp [Flags.withProduct]))

theorem Keeps.storeQuotient (h : writtenFlags i = 0b11001100) {z : Size} {r : RegNum} (h0 : 0 ∈ writtenRegs i)
    (hr : partOf z r ∈ writtenRegs i) (q : Option (Quotient z.bits)) (d : DivOverflow) :
    Keeps i s (storeQuotient z r q d s) := by
  have hregs : ∀ v w, Keeps i s ((s.setR z r v).setR z 0 w) := fun v w =>
    (Keeps.setR s hr v).trans (Keeps.setR _ ((partOf_zero z).symm ▸ h0) w)
  cases q with
  | some q => exact (hregs _ _).trans (Keeps.setFlags_of_d_x _ h (by simp) (by simp))
  | none => exact (hregs _ _).trans (Keeps.setFlags_of_d_x _ h (by simp) (by simp))

end

/-! ### How an instruction ends -/

/-- The two ways in which `i` ends: it completes with an even PGC, or it raises one of its exceptions; in both it has written
only what it may (the trap itself comes after that, 60_exceptions.md R372). -/
inductive Ends (i : Instr) (s : State) : State → Prop
  | completes {t : State} (even : t.pgc.getLsbD 0 = false) (keeps : Keeps i s t) : Ends i s t
  | raises {u : State} (raised : ¬ raisesNone i s) (keeps : Keeps i s u) (c : TrapCause) (a ret : Ptr) :
    Ends i s (u.raise c a ret)

section
variable {i : Instr} {s : State}

/-- What follows the last fetch and keeps its result completes. -/
theorem Ends.of_fetched {u t : State} {k : Nat} (hu : Keeps i s u) (ht : Keeps i (u.advance k) t) : Ends i s t :=
  .completes (ht.even (u.advance_even k)) ((hu.trans (Keeps.advance u k)).trans ht)

theorem Ends.of_advance {t : State} {k : Nat} (h : Keeps i (s.advance k) t) : Ends i s t := .of_fetched (.refl s) h

/-- `i` may use the operand `m`: its base register is one that `i` may change, and `i` raises an exception when it is
malformed. -/
structure UsesOperand (i : Instr) (m : Rm) : Prop where
  base : autoBase m ⊆ writtenRegs i
  malformed : ∀ s, m.wellFormed = false → ¬ raisesNone i s

theorem UsesOperand.of_mem {m : Rm} (h : m ∈ operandsOf i) : UsesOperand i m where
  base _ hr := List.mem_append_right _ (List.mem_flatMap.mpr ⟨m, h, hr⟩)
  malformed _ hm := fun ⟨_, hwf, _⟩ => absurd (hm.symm.trans (hwf m h)) (by decide)

theorem UsesOperand.only {m : Rm} (h : operandsOf i = [m]) : UsesOperand i m := .of_mem (h ▸ List.mem_singleton_self m)

/-- The stack operands of the assembler rows, which write SP. -/
theorem UsesOperand.of_sp {m : Rm} (h : 7 ∈ writtenRegs i) (hm : m = .postInc 7 ∨ m = .preDec 7) : UsesOperand i m := by
  obtain rfl | rfl := hm <;> exact ⟨by simpa [autoBase] using h, by simp [Rm.wellFormed]⟩

variable {m : Rm} (hm : UsesOperand i m)
include hm

/-- The operand resolved. -/
theorem Keeps.resolved (z : Size) (k : Nat) : Keeps i (s.advance k) (resolved z k m s) := Keeps.autoModify _ z hm.base

/-- The operand resolved and read. -/
theorem Keeps.accessed (z : Size) (k : Nat) : Keeps i (s.advance k) (accessed z k m s) :=
  (Keeps.resolved hm z k).trans (Keeps.afterRead _ _)

theorem Ends.withOperand {z : Size} {k : Nat} {body : Loc z → State → State}
    (hb : m.wellFormed = true → Ends i s (body (place z k m s) (Claims.resolved z k m s))) :
    Ends i s (withOperand z k m s body) := by
  obtain ⟨hwf, h⟩ | ⟨hwf, h⟩ := withOperand_cases z k m s body <;> rw [h]
  · exact .raises (hm.malformed s hwf) (Keeps.advance s k) _ _ _
  · exact hb hwf

/-- An operand whose use keeps what `i` may not write. -/
theorem Ends.withOperand_of_keeps {z : Size} {k : Nat} {body : Loc z → State → State}
    (hb : ∀ s', Keeps i s' (body (place z k m s) s')) : Ends i s (Machine.withOperand z k m s body) :=
  .withOperand hm fun _ => .of_advance ((Keeps.resolved hm z k).trans (hb _))

theorem Ends.withSource {z : Size} {k : Nat} {body : BitVec z.bits → State → State} (hb : ∀ v s', Keeps i s' (body v s')) :
    Ends i s (withSource z k m s body) :=
  .withOperand_of_keeps hm fun s' => (Keeps.afterRead s' _).trans (hb _ _)

theorem Ends.modify {z : Size} {k : Nat} {f : BitVec z.bits → State → BitVec z.bits × State}
    (hd : destination i = writtenPlace z m) (hf : ∀ a s', Keeps i s' (f a s').2) : Ends i s (modify z k m s f) :=
  .withOperand_of_keeps hm fun s' =>
    ((Keeps.afterRead s' _).trans (hf _ _)).trans (Keeps.writeOp_locate _ (writtenPlace_subset hd) _ _)

theorem Ends.intoRegister {z : Size} {r : RegNum} {f : BitVec z.bits → BitVec z.bits → State → BitVec z.bits × State}
    (hr : partOf z r ∈ writtenRegs i) (hf : ∀ a b s', Keeps i s' (f a b s').2) : Ends i s (intoRegister z r m s f) :=
  .withSource hm fun _ s' => (hf _ _ s').trans (Keeps.setR _ hr _)

theorem Ends.divide {z : Size} {k : Nat} {c : TrapCause} {body : BitVec z.bits → State → State}
    (hz : operand z k m s = 0 → ¬ raisesNone i s) (hb : ∀ v s', Keeps i s' (body v s')) :
    Ends i s (Machine.withSource z k m s fun d s' => if d = 0 then s'.raise c s.pgc s'.pgc else body d s') := by
  refine .withOperand hm fun _ => ?_
  show Ends i s (if operand z k m s = 0 then _ else _)
  split
  · exact .raises (hz ‹_›) ((Keeps.advance s k).trans (Keeps.accessed hm z k)) _ _ _
  · exact .of_advance ((Keeps.accessed hm z k).trans (hb _ _))

theorem Ends.copyOperand {z : Size} {d : Rm} (hd : UsesOperand i d) (hw : writtenPlace z d ⊆ writtenRegs i) :
    Ends i s (copyOperand z d m s) := by
  have hs : Keeps i s (copySource z d m s).2 := (Keeps.advance s _).trans
    ((Keeps.autoModify _ z hm.base).trans (Keeps.afterRead _ _))
  obtain ⟨hwf, h⟩ | ⟨-, ⟨hwf, h⟩ | ⟨-, h⟩⟩ := copyOperand_cases z d m s <;> rw [h]
  · exact .raises (hm.malformed s hwf) (Keeps.advance s _) _ _ _
  · exact .raises (hd.malformed s hwf) (hs.trans (Keeps.advance _ _)) _ _ _
  · exact .of_fetched hs ((Keeps.autoModify _ z hd.base).trans (Keeps.writeOp_locate _ hw _ _))

theorem Ends.pushAddress {r : RegNum} (hr : r ∈ writtenRegs i) (hf : drawsFree i = true) : Ends i s (pushAddress r m s) :=
  .withOperand_of_keeps hm fun s' =>
    ((Keeps.effectiveAddress s' hf _).trans (Keeps.setP _ hr _)).trans (Keeps.memWrite _ _ _ _)

theorem Ends.jumpToValue : Ends i s (jumpToValue m s) := .withSource hm fun v s' => Keeps.setPgc s' v

end

/-- An operation on F that changes only bits of the mask. -/
theorem Ends.onF_masked {i : Instr} {s : State} {f : Byte → Byte}
    (h : ∀ v, f v &&& ~~~writtenFlags i = v &&& ~~~writtenFlags i) : Ends i s (onF f s) :=
  .of_advance (Keeps.setF_masked (s.advance 1) (h _))

/-! ### All instructions -/

/-- Every instruction gives a next state, in which it ends. -/
theorem exec_ends (i : Instr) (s : State) : ∃ t, exec i s = .next t ∧ Ends i s t := by
  cases i with
  | nop => exact ⟨_, rfl, .of_advance (.refl _)⟩
  | halt => exact ⟨_, rfl, .of_advance (k := 1) { Keeps.refl _ with halted := fun h => absurd rfl h }⟩
  | ilg => exact ⟨_, rfl, .raises (fun h => h.1 rfl) (Keeps.advance s 1) _ _ _⟩
  | repi n => exact ⟨_, rfl, .of_advance (k := 1) { Keeps.refl _ with repi := fun h => absurd rfl (h n) }⟩
  | repr r =>
    exact ⟨_, rfl, .of_advance (k := 1)
      { Keeps.setFlags_z (s.advance 1) rfl false with repr := fun h => absurd rfl (h r) }⟩
  -- arithmetic
  | addRRm z r m | adxRRm z r m | subRRm z r m | sbxRRm z r m =>
    exact ⟨_, rfl, .intoRegister (.only rfl) (List.mem_cons_self ..) fun _ _ u => Keeps.arith u rfl rfl _ _ _ _ _⟩
  | addRmR z m r | adxRmR z m r | subRmR z m r | sbxRmR z m r | addRmImm z m imm | adxRmImm z m imm | subRmImm z m imm
  | sbxRmImm z m imm | neg z m | ngx z m =>
    exact ⟨_, rfl, .modify (.only rfl) rfl fun _ u => Keeps.arith u rfl rfl _ _ _ _ _⟩
  | adq z n m | sbq z n m => exact ⟨_, rfl, .modify (.only rfl) rfl fun _ u => Keeps.quickArith u rfl _ _ _⟩
  | cpRRm z r m | cpRmImm z m imm => exact ⟨_, rfl, .withSource (.only rfl) fun _ u => Keeps.quickArith u rfl _ _ _⟩
  | mulu z r m | muls z r m =>
    exact ⟨_, rfl, .withSource (.only rfl) fun _ u =>
      Keeps.storeProduct u rfl (List.mem_cons_self ..) (List.mem_cons_of_mem _ (List.mem_cons_self ..)) _⟩
  | divu z r m | divs z r m =>
    exact ⟨_, rfl, .divide (.only rfl) (fun hz h => h.2.2 hz) fun _ u =>
      Keeps.storeQuotient u rfl (List.mem_cons_self ..) (List.mem_cons_of_mem _ (List.mem_cons_self ..)) _ _⟩
  -- logic, shifts, bits
  | andRRm z r m | xorRRm z r m | orRRm z r m =>
    exact ⟨_, rfl, .intoRegister (.only rfl) (List.mem_cons_self ..) fun _ _ u => Keeps.logic u rfl _⟩
  | andRmR z m r | xorRmR z m r | orRmR z m r | andRmImm z m imm | xorRmImm z m imm | orRmImm z m imm | cpl z m =>
    exact ⟨_, rfl, .modify (.only rfl) rfl fun _ u => Keeps.logic u rfl _⟩
  | tst z m => exact ⟨_, rfl, .withSource (.only rfl) fun _ u => Keeps.logic u rfl _⟩
  | sla z m | sra z m | srl z m | rl z m | rr z m | rlc z m | rrc z m =>
    exact ⟨_, rfl, .modify (.only rfl) rfl fun _ u => Keeps.shift u rfl _ _⟩
  | bitImm k m | bitM0 m => exact ⟨_, rfl, .withSource (.only rfl) fun _ u => Keeps.testBit u rfl _ _⟩
  | chgImm k m | resImm k m | setImm k m | chgM0 m | resM0 m | setM0 m =>
    exact ⟨_, rfl, .modify (.only rfl) rfl fun _ u => Keeps.testBit u rfl _ _⟩
  -- the status register
  | ldFRm m => exact ⟨_, rfl, .withSource (.only rfl) fun v u => Keeps.setF u rfl v⟩
  | ldWfRm m => exact ⟨_, rfl, .withSource (.only rfl) fun v u => Keeps.setWf u rfl rfl v⟩
  | ldRmF m | ldRmWf m =>
    exact ⟨_, rfl, .withOperand_of_keeps (.only rfl) fun u => Keeps.writeOp_locate u (writtenPlace_subset rfl) _ _⟩
  | ldIrl n => exact ⟨_, rfl, .of_advance (Keeps.setIrl (s.advance 1) rfl n)⟩
  | andF n | xorF n | orF n | ldFImm n => exact ⟨_, rfl, .of_advance (Keeps.setF (s.advance 1) rfl _)⟩
  | rxf | sxf | cxf | ddm | edm => exact ⟨_, rfl, .onF_masked (by decide)⟩
  -- transfers
  | ldRmRm z d m =>
    exact ⟨_, rfl, .copyOperand (.of_mem (List.mem_cons_of_mem _ (List.mem_singleton_self m)))
      (.of_mem (List.mem_cons_self ..)) (writtenPlace_subset rfl)⟩
  | push z m => exact ⟨_, rfl, .copyOperand (.only rfl) (.of_sp (List.mem_cons_self ..) (.inr rfl)) (List.nil_subset _)⟩
  | pop z d =>
    exact ⟨_, rfl, .copyOperand (.of_sp (List.mem_cons_self ..) (.inl rfl)) (.only rfl) fun _ hr =>
      List.mem_cons_of_mem _ (List.mem_append_left _ hr)⟩
  | ldzx z r m | ldsx z r m => exact ⟨_, rfl, .withSource (.only rfl) fun _ u => Keeps.setP u (List.mem_cons_self ..) _⟩
  | lea r m =>
    exact ⟨_, rfl, .withOperand_of_keeps (.only rfl) fun u =>
      (Keeps.effectiveAddress u rfl _).trans (Keeps.setP _ (List.mem_cons_self ..) _)⟩
  | leaPre r m | pea m => exact ⟨_, rfl, .pushAddress (.only rfl) (List.mem_cons_self ..) rfl⟩
  | swapB m | swapW m | swapP m => exact ⟨_, rfl, .modify (.only rfl) rfl fun _ u => .refl u⟩
  | ldPHml r v => exact ⟨_, rfl, .of_advance (Keeps.setP (s.advance 2) (List.mem_cons_self ..) _)⟩
  | ldq r n => exact ⟨_, rfl, .of_advance (Keeps.setP (s.advance 1) (List.mem_cons_self ..) _)⟩
  -- jumps, calls, returns
  | jrCond cc o =>
    refine ⟨_, rfl, .of_advance (k := 1) ?_⟩
    split
    · exact Keeps.setPgc _ _
    · exact .refl _
  | jrS o => exact ⟨_, rfl, .of_advance (Keeps.setPgc (s.advance 1) _)⟩
  | jrL v | jpHml v => exact ⟨_, rfl, .of_advance (Keeps.setPgc (s.advance 2) _)⟩
  | djnz r o =>
    refine ⟨_, rfl, .of_advance (k := 1) ?_⟩
    have hr : Keeps (.djnz r o) (s.advance 1) ((s.advance 1).setP r (s.getP r - 1)) :=
      Keeps.setP _ (List.mem_cons_self ..) _
    split
    · exact hr
    · exact hr.trans (Keeps.setPgc _ _)
  | jpRm m => exact ⟨_, rfl, .jumpToValue (.only rfl)⟩
  | jea m =>
    exact ⟨_, rfl, .withOperand_of_keeps (.only rfl) fun u => (Keeps.effectiveAddress u rfl _).trans (Keeps.setPgc _ _)⟩
  | crS o | rst n => exact ⟨_, rfl, .of_advance (Keeps.call (s.advance 1) (List.mem_cons_self ..) _)⟩
  | crL v | callHml v => exact ⟨_, rfl, .of_advance (Keeps.call (s.advance 2) (List.mem_cons_self ..) _)⟩
  | callRm m => exact ⟨_, rfl, .withSource (.only rfl) fun v u => Keeps.call u (List.mem_cons_self ..) v⟩
  | cea m =>
    exact ⟨_, rfl, .withOperand_of_keeps (.only rfl) fun u =>
      (Keeps.effectiveAddress u rfl _).trans (Keeps.call _ (List.mem_cons_self ..) _)⟩
  | ret => exact ⟨_, rfl, .jumpToValue (.of_sp (List.mem_cons_self ..) (.inl rfl))⟩
  | reti =>
    have sp : UsesOperand .reti (.postInc 7) := .of_sp (List.mem_cons_self ..) (.inl rfl)
    have hwf : Keeps .reti s (loadStatus (.postInc 7) s) :=
      (Keeps.advance s 1).trans ((Keeps.accessed sp .w 1).trans (Keeps.setWf _ rfl rfl _))
    exact ⟨_, rfl, .of_fetched hwf ((Keeps.accessed sp .p 1).trans (Keeps.setPgc _ _))⟩

theorem ends_of_exec {i : Instr} {s t : State} (h : exec i s = .next t) : Ends i s t := by
  obtain ⟨u, hu, hends⟩ := exec_ends i s
  cases hu.symm.trans h
  exact hends

/-- An instruction that raises no exception keeps what it may not write. -/
theorem keeps_of_exec {i : Instr} {s t : State} (hr : raisesNone i s) (h : exec i s = .next t) : Keeps i s t := by
  cases ends_of_exec h with
  | completes _ hk => exact hk
  | raises hn => exact absurd hr hn

/-! ### The frames -/

/-- Settles O58. -/
theorem registerFrame : Obligations.RegisterFrame := fun _ _ _ hr h => (keeps_of_exec hr h).regs

/-- Settles O59: a trap leaves the flags as the instruction left them. -/
theorem flagFrame : Obligations.FlagFrame := by
  intro i s t h
  cases ends_of_exec h with
  | completes _ hk => exact State.fByte_masked_congr hk.flags
  | raises _ hk c a ret => exact State.fByte_masked_congr (t := State.raise _ c a ret) hk.flags

/-- Settles O60. -/
theorem controlFrame : Obligations.ControlFrame := fun _ _ _ hr h =>
  have hk := keeps_of_exec hr h
  ⟨hk.requests, hk.map, hk.bus, hk.irl, hk.repi, hk.repr, hk.halted, hk.freeCount⟩

/-! ### The invariant -/

/-- A trap meets the invariant whatever the repeat state was: it clears it (60_exceptions.md R372). -/
theorem State.inv_trap {s : State} (hs : s.mem.wf = true) (c : TrapCause) (ret : Ptr) : (s.trap c ret).Inv :=
  ⟨State.wf_trap hs c ret, and_fixedZero_even c.vector, rfl, rfl⟩

theorem State.inv_raise {s : State} (hs : s.mem.wf = true) (c : TrapCause) (a ret : Ptr) : (s.raise c a ret).Inv :=
  State.inv_trap hs c _

theorem State.inv_resetLine {s : State} (hs : s.mem.wf = true) : s.resetLine.Inv :=
  ⟨hs, and_fixedZero_even resetVector, rfl, rfl⟩

theorem State.Inv.pastBoundary {s : State} (hs : s.Inv) : s.pastBoundary.Inv :=
  ⟨hs.memory, hs.even, hs.oneRepeat, hs.haltAlone⟩

/-- The repeat rule sends PGC back, which keeps it even, or clears a repeat bit (47_misc.md R325). -/
theorem State.Inv.repeatRule {s : State} (hs : s.Inv) (a : Ptr) : (s.repeatRule a).Inv := by
  obtain ⟨hmem, heven, hone, hhalt⟩ := hs
  unfold State.repeatRule
  split
  · split
    · exact ⟨hmem, and_fixedZero_even a, hone, hhalt⟩
    · exact ⟨hmem, heven, rfl, by simp_all⟩
  · split
    · dsimp only
      split
      · exact ⟨hmem, and_fixedZero_even a, hone, hhalt⟩
      · exact ⟨hmem, heven, by simp, by simp_all⟩
    · exact ⟨hmem, heven, hone, hhalt⟩

/-- An instruction keeps the invariant when no REPI, REPR or HALT is run under a repeat (R326). -/
theorem State.Inv.exec {s t : State} {i : Instr} (hs : s.Inv) (hh : s.halted = false)
    (hr : (s.repiA || s.reprA) = true → isRepeatPrefix i = false ∧ i ≠ .halt) (h : exec i s = .next t) : t.Inv := by
  cases ends_of_exec h with
  | raises _ hk c a ret => exact State.inv_raise (hk.memory hs.memory) c a ret
  | completes heven hk =>
    have hkept : isRepeatPrefix i = false → t.repiA = s.repiA ∧ t.reprA = s.reprA := fun h =>
      ⟨(hk.repi (by rintro n rfl; nomatch h)).1, (hk.repr (by rintro r rfl; nomatch h)).1⟩
    cases hp : s.repiA || s.reprA with
    | true =>
      obtain ⟨hprefix, hhalt⟩ := hr hp
      obtain ⟨hi, hr⟩ := hkept hprefix
      have ht : t.halted = false := (hk.halted hhalt).trans hh
      exact ⟨hk.memory hs.memory, heven, by rw [hi, hr]; exact hs.oneRepeat, by rw [ht]; rfl⟩
    | false =>
      obtain ⟨hi, hr⟩ := Bool.or_eq_false_iff.mp hp
      have hti : (∀ n, i ≠ .repi n) → t.repiA = false := fun h => (hk.repi h).1.trans hi
      have htr : (∀ r, i ≠ .repr r) → t.reprA = false := fun h => (hk.repr h).1.trans hr
      refine ⟨hk.memory hs.memory, heven, ?_, ?_⟩
      · by_cases h : ∃ n, i = .repi n
        · obtain ⟨n, rfl⟩ := h
          simp [htr]
        · simp [hti (not_exists.mp h)]
      · by_cases h : i = .halt
        · subst h
          simp [hti, htr]
        · simp [hk.halted h, hh]

/-- REPI, REPR and HALT have no operand, so none of them is malformed. -/
theorem notPrefix_of_malformed {i : Instr} (h : i.wellFormed = false) : isRepeatPrefix i = false ∧ i ≠ .halt := by
  refine ⟨?_, ?_⟩
  · unfold isRepeatPrefix
    split
    · nomatch h
    · nomatch h
    · rfl
  · rintro rfl
    nomatch h

theorem notPrefix_of_repeatable {i : Instr} (h : notRepeatable i = false) : isRepeatPrefix i = false ∧ i ≠ .halt := by
  simp only [notRepeatable, Bool.or_eq_false_iff, beq_eq_false_iff_ne, ne_eq] at h
  exact ⟨h.1.1, h.2⟩

/-- Settles O54: a next state comes from the Reset Routine, a halted wait, a trap, or an instruction and then the repeat rule. -/
theorem invariantKept : Obligations.InvariantKept := by
  intro s t hs h
  have hp := hs.pastBoundary
  obtain ⟨-, rfl⟩ | ⟨-, -, -, rfl⟩ | ⟨-, c, ret, -, -, -, rfl⟩ | ⟨-, hh, -, hf⟩ := step_next h
  · exact State.inv_resetLine hp.memory
  · exact hp
  · exact State.inv_trap hp.memory c ret
  · obtain ⟨i, -, hrun⟩ | ⟨i, hd, he⟩ | rfl := fetchAndRun_next hf
    · obtain ⟨hr, u, he, rfl⟩ := runInstr_next hrun
      have hu : u.Inv := hp.exec hh (fun h => notPrefix_of_repeatable (by rwa [h, Bool.true_and] at hr)) he
      split
      · exact hu
      · exact hu.repeatRule _
    · exact hp.exec hh (fun _ => notPrefix_of_malformed (wellFormed_of_decodeWords_malformed hd)) he
    · exact State.inv_raise (s := s.pastBoundary.advance 1) hp.memory _ _ _

end Sys2Proof.Machine

namespace Sys2Proof.Machine

open Sys2Proof.Claims

/-! Registers, the status word, the conditions and reset (10_state.md R22 to R36, R44). -/

/-! ### Register numbers (R22) -/

/-- Numbers 0 to 3 name the low byte of their own register at `.B`. -/
theorem byteHome_of_lt : ∀ i : RegNum, i.toNat < 4 → i.getLsbD 2 = false ∧ byteHome i = i := by decide

/-- Numbers 4 to 7 name the middle byte of the register four below. -/
theorem byteHome_of_ge : ∀ i : RegNum, 4 ≤ i.toNat → i.getLsbD 2 = true ∧ byteHome i = i - 4 := by decide

section
variable (s : State) {i : RegNum}

theorem State.getR_b_of_lt (h : i.toNat < 4) : s.getR .b i = (s.getP i).extractLsb' 0 8 := by
  obtain ⟨hbit, hhome⟩ := byteHome_of_lt i h
  simp only [State.getR, hbit, hhome, Bool.false_eq_true, if_false]

theorem State.getR_b_of_ge (h : 4 ≤ i.toNat) : s.getR .b i = (s.getP (i - 4)).extractLsb' 8 8 := by
  obtain ⟨hbit, hhome⟩ := byteHome_of_ge i h
  simp only [State.getR, hbit, hhome, if_true]

theorem State.setR_b_of_lt (h : i.toNat < 4) (v : Byte) : s.setR .b i v = s.setP i ((s.getP i).extractLsb' 8 16 ++ v) := by
  obtain ⟨hbit, hhome⟩ := byteHome_of_lt i h
  simp only [State.setR, hbit, hhome, Bool.false_eq_true, if_false]

theorem State.setR_b_of_ge (h : 4 ≤ i.toNat) (v : Byte) : s.setR .b i v =
    s.setP (i - 4) ((s.getP (i - 4)).extractLsb' 16 8 ++ v ++ (s.getP (i - 4)).extractLsb' 0 8) := by
  obtain ⟨hbit, hhome⟩ := byteHome_of_ge i h
  simp only [State.setR, hbit, hhome, if_true]

end

/-- The bits from `k` to the top of a pointer. -/
theorem ptr_toNat_extractLsb'_top (x : Ptr) (k : Nat) (hk : k ≤ 24) : (x.extractLsb' k (24 - k)).toNat = x.toNat / 2 ^ k := by
  rw [BitVec.extractLsb'_toNat, Nat.shiftRight_eq_div_pow, Nat.mod_eq_of_lt]
  rw [Nat.div_lt_iff_lt_mul (Nat.two_pow_pos k), ← Nat.pow_add, Nat.sub_add_cancel hk]
  exact x.isLt

/-- Settles O7. -/
theorem registerNumbers : Obligations.RegisterNumbers := fun s _ => ⟨rfl, rfl, s.getR_b_of_lt, s.getR_b_of_ge⟩

/-- Settles O8: each write is one of a whole P register, whose new value is the covered bits between the old ones. -/
theorem partialRegisterWrites : Obligations.PartialRegisterWrites := by
  intro s i
  refine ⟨State.getP_setP_self s i, fun v => ?_, fun v h => ?_, fun v h => ?_, fun z v j hj => ?_⟩
  · rw [State.setR, State.getP_setP_self, ptr_high_low, ptr_toNat_extractLsb'_top _ 16 (by decide)]
    rfl
  · rw [s.setR_b_of_lt h, State.getP_setP_self, ptr_low, ptr_toNat_extractLsb'_top _ 8 (by decide)]
    rfl
  · rw [s.setR_b_of_ge h, State.getP_setP_self, ptr_parts, ptr_toNat_extractLsb'_top _ 16 (by decide),
      BitVec.extractLsb'_toNat]
    rfl
  · exact State.getP_setR_of_ne s z v (by rwa [home_eq_partOf])

/-! ### The status word (R26 to R28) -/

/-- WF bit by bit: F, then IRL, then the fixed zeros. -/
theorem State.getLsbD_wf (s : State) (k : Nat) :
    s.wf.getLsbD k = if k < 8 then s.fByte.getLsbD k else s.irl.getLsbD (k - 8) := by
  have hirl : (0#5 ++ s.irl).getLsbD (k - 8) = s.irl.getLsbD (k - 8) := by
    rw [BitVec.getLsbD_append]
    split
    · rfl
    · rw [BitVec.getLsbD_of_ge s.irl _ (by omega), BitVec.getLsbD_zero]
  rw [State.wf, BitVec.getLsbD_append, hirl]

/-- The bits of the masks of R28. -/
theorem State.wf_setF (s : State) (v : Byte) : (s.setF v).wf = (s.wf &&& 0x0700) ||| (v.setWidth 16 &&& 0x00CF) := by
  apply BitVec.eq_of_getLsbD_eq
  intro k hk
  simp only [BitVec.getLsbD_or, BitVec.getLsbD_and, State.getLsbD_wf, State.fByte_setF, BitVec.getLsbD_setWidth, State.setF_irl]
  interval_cases k <;> simp

theorem State.wf_setWf (s : State) (v : Word) : (s.setWf v).wf = v &&& 0x07CF := by
  apply BitVec.eq_of_getLsbD_eq
  intro k hk
  have hF : (s.setWf v).fByte = v.extractLsb' 0 8 &&& 0xCF := s.fByte_setF _
  simp only [BitVec.getLsbD_and, State.getLsbD_wf, hF, State.setWf_irl, BitVec.getLsbD_extractLsb']
  interval_cases k <;> simp

/-- The seven bits of WF that are always 0. -/
theorem State.wf_fixedZeros (s : State) : s.wf &&& 0xF830 = 0 := by
  rw [← s.setWf_wf, State.wf_setWf, BitVec.and_assoc]
  exact BitVec.and_zero

/-- Settles O9: what WF reads as is what a write of that word sets. -/
theorem statusWordLayout : Obligations.StatusWordLayout := fun s =>
  ⟨congrArg State.flags s.setWf_wf, congrArg State.irl s.setWf_wf, s.wf_fixedZeros, s.wf_setWf, s.wf_setF⟩

/-! ### Conditions (R36) -/

/-- Code 14 of the JR encoding (R114). -/
theorem decodeWords_jrS (o : BitVec 8) : decodeWords [lowWord 2 1 6 o] = .ok (.jrS o) := by
  simp [decodeWords, split_lowWord, decodeFields, Size.ofBits, decodeGroup14, Cond.ofCode, FirstWord.low, low_parts,
    Instr.wellFormed]

/-- Code 15. -/
theorem decodeWords_crS (o : BitVec 8) : decodeWords [lowWord 2 1 7 o] = .ok (.crS o) := by
  simp [decodeWords, split_lowWord, decodeFields, Size.ofBits, decodeGroup14, Cond.ofCode, FirstWord.low, low_parts,
    Instr.wellFormed]

theorem lowWord_jrS : ∀ o : BitVec 8, (0xEE00 ||| o.setWidth 16 : Word) = lowWord 2 1 6 o := by decide

theorem lowWord_crS : ∀ o : BitVec 8, (0xEF00 ||| o.setWidth 16 : Word) = lowWord 2 1 7 o := by decide

/-- Settles O11: each condition by its row of the table, the codes by evaluation. -/
theorem conditionTable : Obligations.ConditionTable := by
  refine ⟨fun f => ?_, by decide, fun o => ⟨?_, ?_⟩⟩
  · simp [condHolds]
  · rw [lowWord_jrS, decodeWords_jrS]
  · rw [lowWord_crS, decodeWords_crS]

/-! ### Reset (R44) -/

/-- An IRQ has a number of 1 or more, so none may be taken while IRL is 0 (60_exceptions.md R368). -/
theorem not_mayTake_of_irl_zero {s : State} (h : s.irl = 0) (rq : Requests) (n : IrqLevel) : ¬ mayTake s rq n := by
  rintro ⟨-, hn⟩
  rw [h] at hn
  cases n <;> nomatch hn

/-- Settles O52. -/
theorem resetValues : Obligations.ResetValues :=
  ⟨rfl, rfl, rfl, rfl, rfl, State.wf_fixedZeros _, not_mayTake_of_irl_zero rfl _,
    fun _ n rq => not_mayTake_of_irl_zero rfl rq n⟩

/-- Settles O55. -/
theorem invariantAtReset : Obligations.InvariantAtReset := ⟨State.wf_reset, by decide, rfl, rfl⟩

end Sys2Proof.Machine

namespace Sys2Proof.Machine

open Sys2Proof.Claims

/-! CP (42_arithmetic.md R235 to R237): the flags of the difference, and what the conditions say after it. -/

section
variable {n : Nat} (a b : BitVec n)

theorem ofInt_toNat_sub : BitVec.ofInt n ((a.toNat : Int) - b.toNat) = a - b := by
  apply BitVec.eq_of_toInt_eq
  rw [BitVec.toInt_ofInt, BitVec.toInt_sub, a.toInt_eq_toNat_bmod, b.toInt_eq_toNat_bmod, Int.bmod_sub_bmod, Int.sub_bmod_bmod]

theorem outsideSigned_eq_ssubOverflow : outsideSigned n (a.toInt - b.toInt) = a.ssubOverflow b := by
  simp only [outsideSigned, BitVec.ssubOverflow, ge_iff_le, Bool.or_comm]

/-- A signed difference is out of range when the operands' signs differ and the result does not have the sign of the first. -/
theorem outsideSigned_sub :
    outsideSigned n (a.toInt - b.toInt) = decide (a.msb ≠ b.msb ∧ (a - b).msb ≠ a.msb) := by
  rw [outsideSigned_eq_ssubOverflow, BitVec.ssubOverflow_eq]
  cases a.msb <;> cases b.msb <;> cases (a - b).msb <;> rfl

/-- The model's subtraction without a borrow is that of R203. -/
theorem quickArith_sub (s : State) : quickArith .sub a b s = (a - b, s.setFlags (diffFlags a b false s.flags)) := by
  have hc : carryIn n false = 0#n := rfl
  have hlt : decide ((a.toNat : Int) - b.toNat < 0) = decide (a.toNat < b.toNat) := by
    congr 1
    exact propext (by omega)
  simp only [quickArith, AddSub.core, subCore, Flags.withSum, diffFlags, isZero, hc, Bool.toNat_false, Nat.cast_zero,
    Int.sub_zero, Nat.add_zero, BitVec.sub_zero, ofInt_toNat_sub, outsideSigned_sub, hlt, beq_eq_decide]

/-- S and VP of a difference differ exactly when it is negative as a signed number. -/
theorem msb_sub_ne_overflow : (a - b).msb ≠ decide (a.msb ≠ b.msb ∧ (a - b).msb ≠ a.msb) ↔ a.toInt < b.toInt := by
  have ha := a.msb_eq_toInt
  have hb := b.msb_eq_toInt
  cases ho : a.ssubOverflow b with
  | false =>
    have hv : decide (a.msb ≠ b.msb ∧ (a - b).msb ≠ a.msb) = false := by
      rw [← outsideSigned_sub, outsideSigned_eq_ssubOverflow, ho]
    rw [hv, BitVec.msb_eq_toInt, BitVec.toInt_sub_of_not_ssubOverflow (by simp [ho])]
    simp
  | true =>
    rw [BitVec.ssubOverflow_eq] at ho
    cases hma : a.msb <;> cases hmb : b.msb <;> simp_all
    · omega
    · omega

/-- What the conditions say of the operands after a subtraction without a borrow (10_state.md R36). -/
theorem condHolds_diffFlags (f : Flags) :
    let g := diffFlags a b false f
    (condHolds .z g = true ↔ a = b) ∧ (condHolds .nz g = true ↔ a ≠ b) ∧
    (condHolds .c g = true ↔ a.toNat < b.toNat) ∧ (condHolds .nc g = true ↔ b.toNat ≤ a.toNat) ∧
    (condHolds .ule g = true ↔ a.toNat ≤ b.toNat) ∧ (condHolds .ugt g = true ↔ b.toNat < a.toNat) ∧
    (condHolds .lt g = true ↔ a.toInt < b.toInt) ∧ (condHolds .ge g = true ↔ b.toInt ≤ a.toInt) ∧
    (condHolds .le g = true ↔ a.toInt ≤ b.toInt) ∧ (condHolds .gt g = true ↔ b.toInt < a.toInt) := by
  intro g
  have hz : g.z = true ↔ a = b := by simp [g, diffFlags, carryIn, BitVec.sub_eq_iff_eq_add]
  have hc : g.c = true ↔ a.toNat < b.toNat := by simp [g, diffFlags]
  have hlt : g.s ≠ g.vp ↔ a.toInt < b.toInt := by simpa [g, diffFlags, carryIn] using msb_sub_ne_overflow a b
  have hnz : g.z = false ↔ a ≠ b := by rw [← Bool.not_eq_true, hz]
  have hnc : g.c = false ↔ b.toNat ≤ a.toNat := by rw [← Bool.not_eq_true, hc, Nat.not_lt]
  have hge : g.s = g.vp ↔ b.toInt ≤ a.toInt := not_iff_not.mp (hlt.trans Int.not_le.symm)
  have hnat : a = b ↔ a.toNat = b.toNat := BitVec.toNat_inj.symm
  have hint : a = b ↔ a.toInt = b.toInt := BitVec.toInt_inj.symm
  obtain ⟨cle, cgt, clt, cge, cule, cugt, cc, cnc, -, -, -, -, cz, cnz⟩ := conditionTable.1 g
  refine ⟨cz.trans hz, cnz.trans hnz, cc.trans hc, cnc.trans hnc, cule.trans ?_, cugt.trans ?_, clt.trans hlt, cge.trans hge,
    cle.trans ?_, cgt.trans ?_⟩
  · rw [hc, hz, hnat]
    omega
  · rw [hnc, hnz, ne_eq, hnat]
    omega
  · rw [hlt, hz, hint]
    omega
  · rw [hge, hnz, ne_eq, hint]
    omega

end

/-- Settles O27: both forms are the subtraction of R203 with its result dropped. -/
theorem compareResults : Obligations.CompareResults := by
  intro z r m imm s hm
  have hflags : ∀ k, (accessed z k m s).flags = s.flags := fun k => by simp [accessed, resolved]
  have hreg : exec (.cpRRm z r m) s = .next ((accessed z (1 + m.ext) m s).setFlags
      (diffFlags ((accessed z (1 + m.ext) m s).getR z r) (operand z (1 + m.ext) m s) false s.flags)) := by
    rw [← hflags]
    exact congrArg Host.Outcome.next ((withSource_wellFormed hm z _ s _).trans (congrArg Prod.snd (quickArith_sub _ _ _)))
  refine ⟨hreg, ?_, ?_⟩
  · rw [← hflags]
    exact congrArg Host.Outcome.next ((withSource_wellFormed hm z _ s _).trans (congrArg Prod.snd (quickArith_sub _ _ _)))
  · intro t ht
    cases hreg.symm.trans ht
    exact condHolds_diffFlags _ _ s.flags

end Sys2Proof.Machine

namespace Sys2Proof.Machine

open Sys2Proof.Claims

/-! Bit 0 of PGC (10_state.md R31). -/

/-- Clearing bit 0 of an odd address is stepping back by one. -/
theorem and_fixedZero_of_odd {v : Ptr} (h : v.getLsbD 0 = true) : v &&& 0xFFFFFE = v - 1 := by
  have hodd : v.toNat % 2 = 1 := by
    simpa [BitVec.getLsbD, Nat.testBit_zero] using h
  have heven : (v &&& 0xFFFFFE).toNat = v.toNat / 2 * 2 := evenAddr_toNat v
  bv_omega

/-- What a 24-bit read finds depends on memory, the memory map and what the platform has seen. -/
theorem State.memRead_congr {s t : State} (hm : t.mem = s.mem) (hk : t.map = s.map) (hb : t.bus = s.bus) (z : Size) (a : Ptr) :
    t.memRead z a = s.memRead z a := by
  obtain ⟨⟩ := s
  obtain ⟨⟩ := t
  cases hm
  cases hk
  cases hb
  cases z <;> rfl

/-- The return address that RETI pops, two above the status word under it. -/
theorem reti_pgc (s : State) :
    ∃ t, exec .reti s = .next t ∧ t.pgc = (secondPop s).memRead .p (s.getP 7 + 2) &&& 0xFFFFFE := by
  have hsp : (loadStatus (.postInc 7) s).getP 7 = s.getP 7 + 2 := State.getP_setP_self (s.advance 1) 7 (s.getP 7 + 2)
  refine ⟨_, rfl, ?_⟩
  show ((loadStatus (.postInc 7) s).advance 1).memRead .p ((loadStatus (.postInc 7) s).getP 7) &&& 0xFFFFFE = _
  rw [hsp, State.memRead_congr (s := secondPop s)] <;> rfl

/-- After an instruction PGC is even, trap or no trap. -/
theorem even_of_exec {i : Instr} {s t : State} (h : exec i s = .next t) : t.pgc.getLsbD 0 = false := by
  cases ends_of_exec h with
  | completes even _ => exact even
  | raises _ _ c => exact and_fixedZero_even c.vector

/-- Settles O10: each form jumps by a write of PGC. -/
theorem pgcBitZero : Obligations.PgcBitZero := by
  refine ⟨State.setPgc_pgc, fun i s t => even_of_exec, fun m s hm ho => ?_, fun m s ea hm hp ho => ?_, fun s ho => ?_,
    fun s ho => ?_⟩
  · have hread := withSource_wellFormed hm .p (1 + m.ext) s
    exact ⟨_, _, rfl, (congrArg State.pgc (hread _)).trans (and_fixedZero_of_odd ho), rfl,
      (congrArg State.pgc (hread _)).trans (and_fixedZero_of_odd ho)⟩
  · have hplace := withOperand_wellFormed hm .p (1 + m.ext) s
    have hp : locate .p m (s.advance (1 + m.ext)) = .mem ea := hp
    rw [hp] at hplace
    exact ⟨_, _, rfl, (congrArg State.pgc (hplace _)).trans (and_fixedZero_of_odd ho), rfl,
      (congrArg State.pgc (hplace _)).trans (and_fixedZero_of_odd ho)⟩
  · exact ⟨_, rfl, and_fixedZero_of_odd ho⟩
  · obtain ⟨t, ht, hpgc⟩ := reti_pgc s
    exact ⟨t, ht, hpgc.trans (and_fixedZero_of_odd ho)⟩

end Sys2Proof.Machine

namespace Sys2Proof.Machine

/-! Accesses to memory and to the platform (20_memory.md R60 to R68): each byte that a write leaves, and what the platform sees
of an access that is not to memory. -/

/-! ### The bytes a write leaves -/

section
variable {s : State}

/-- ROM is not RAM. -/
theorem State.isRam_of_rom {b : Ptr} (h : s.kindAt b = .rom) : s.isRam b = false := by simp [State.isRam, h]

/-- A store leaves the contents of an address that is not RAM alone, wherever it goes. -/
theorem State.mem_get_setByte_of_not_isRam {b : Ptr} (hb : s.isRam b = false) (a : Ptr) (v : Byte) :
    (s.setByte a v).mem.get b.toNat = s.mem.get b.toNat := by
  by_cases h : a = b
  · rw [State.setByte_of_not_isRam (h ▸ hb)]
  · rw [State.setByte_mem]
    split
    · exact Memory.get_set_of_ne s.mem v fun e => h (BitVec.eq_of_toNat_eq e.symm)
    · rfl

/-- So does every write. -/
theorem State.mem_get_memWrite_of_not_isRam {b : Ptr} (hb : s.isRam b = false) (z : Size) (a : Ptr) (v : BitVec z.bits) :
    (s.memWrite z a v).mem.get b.toNat = s.mem.get b.toNat := by
  have word : ∀ w, (s.write16 a w).mem.get b.toNat = s.mem.get b.toNat := fun w =>
    (State.mem_get_setByte_of_not_isRam (s := s.setByte _ _) hb _ _).trans (State.mem_get_setByte_of_not_isRam hb _ _)
  cases z with
  | b => exact State.mem_get_setByte_of_not_isRam hb a v
  | w => exact word v
  | p =>
    rw [State.memWrite, State.write8, State.didWrite8_mem, State.mem_get_setByte_of_not_isRam (s := s.write16 _ _) hb]
    exact word _

theorem State.byteAt_memWrite_of_rom {b : Ptr} (h : s.kindAt b = .rom) (z : Size) (a : Ptr) (v : BitVec z.bits) :
    (s.memWrite z a v).byteAt b = s.byteAt b := by
  have hb : s.isMemory b = true := by simp [State.isMemory, h]
  rw [State.byteAt_of_isMemory hb, State.byteAt_of_isMemory ((State.isMemory_congr (s.memWrite_map z a v) b).trans hb),
    State.mem_get_memWrite_of_not_isRam (State.isRam_of_rom h)]

variable (hs : s.mem.wf = true) {b : Ptr} (hb : s.isRam b = true)
include hs hb

/-- The bytes of a 16-bit write, each where it is RAM. -/
theorem State.byteAt_write16_touched (a : Ptr) (v : Word) {k : Nat} (hk : (touched .w a)[k]? = some b) :
    (s.write16 a v).byteAt b = v.extractLsb' (8 * k) 8 := by
  have hm := State.isMemory_of_isRam hb
  rw [State.write16, State.byteAt_didWrite16 (s := (s.setByte _ _).setByte _ _) _ _ hm]
  match k with
  | 0 =>
    cases hk
    rw [State.byteAt_setByte_of_ne (s := s.setByte _ _) _ hm (evenAddr_ne a).1.symm, State.byteAt_setByte_self hs hb]
  | 1 =>
    cases hk
    exact State.byteAt_setByte_self (s := s.setByte _ _) (State.wf_setByte hs _ _) hb _
  | _ + 2 => nomatch hk

/-- Byte `k` of what is written stands at the access's `k`-th address, if that is RAM (R63, R66 to R68). -/
theorem State.byteAt_memWrite_touched (z : Size) (a : Ptr) (v : BitVec z.bits) {k : Nat} (hk : (touched z a)[k]? = some b) :
    (s.memWrite z a v).byteAt b = v.extractLsb' (8 * k) 8 := by
  have hm := State.isMemory_of_isRam hb
  cases z with
  | b =>
    match k with
    | 0 =>
      cases hk
      exact (State.byteAt_write8_self hs hb v).trans BitVec.extractLsb'_eq_self.symm
    | _ + 1 => nomatch hk
  | w => exact State.byteAt_write16_touched hs hb a v hk
  | p =>
    obtain ⟨-, hne0, hne1⟩ := evenAddr_ne a
    have low : ∀ k < 2, (touched .w a)[k]? = some b → b ≠ evenAddr a + 2 →
        (s.memWrite .p a v).byteAt b = v.extractLsb' (8 * k) 8 := fun k hk2 hk hne => by
      rw [State.memWrite, State.byteAt_write8_of_ne (s := s.write16 _ _) _ hm hne, State.byteAt_write16_touched hs hb a _ hk,
        BitVec.extractLsb'_extractLsb'_of_le (by omega)]
    match k with
    | 0 =>
      cases hk
      exact low 0 (by decide) rfl hne0.symm
    | 1 =>
      cases hk
      exact low 1 (by decide) rfl hne1.symm
    | 2 =>
      cases hk
      exact State.byteAt_write8_self (s := s.write16 _ _) (State.wf_write16 hs _ _) hb _
    | _ + 3 => nomatch hk

end

/-! ### Reads after a write -/

/-- The low word of a pointer from its two bytes. -/
theorem append_bytes_eq_low (v : Ptr) : v.extractLsb' 8 8 ++ v.extractLsb' 0 8 = v.extractLsb' 0 16 :=
  BitVec.extractLsb'_append_extractLsb'_eq_extractLsb' (w := 24) (by rfl)

/-- Bit 0 of the address of a read of 16 or 24 bits is ignored (R65). -/
theorem State.memRead_evenAddr (s : State) {z : Size} (hz : z ≠ .b) (a : Ptr) :
    s.memRead z (evenAddr a) = s.memRead z a := by
  cases z with
  | b => exact absurd rfl hz
  | w => exact s.wordAt_evenAddr a
  | p => simp only [State.memRead, evenAddr_evenAddr, s.wordAt_evenAddr]

section
variable {s : State} {a : Ptr} (hs : s.mem.wf = true)
include hs

theorem State.reads_after_write16 (h : ∀ b ∈ [evenAddr a, evenAddr a + 1], s.isRam b = true) (v : BitVec 16) :
    (s.memWrite .w a v).memRead .w a = v ∧ (s.memWrite .w a v).memRead .w (evenAddr a) = v ∧
    (s.memWrite .w a v).memRead .b (evenAddr a) = v.extractLsb' 0 8 ∧
    (s.memWrite .w a v).memRead .b (evenAddr a + 1) = v.extractLsb' 8 8 := by
  have hself := State.memRead_memWrite_self hs (z := .w) h v
  simp only [List.forall_mem_cons] at h
  obtain ⟨h0, h1, -⟩ := h
  exact ⟨hself, (State.memRead_evenAddr _ (by decide) a).trans hself,
    State.byteAt_memWrite_touched hs h0 .w a v (k := 0) rfl, State.byteAt_memWrite_touched hs h1 .w a v (k := 1) rfl⟩

theorem State.reads_after_write24 (h : ∀ b ∈ [evenAddr a, evenAddr a + 1, evenAddr a + 2], s.isRam b = true) (v : BitVec 24) :
    let t := s.memWrite .p a v
    t.memRead .p a = v ∧ t.memRead .p (evenAddr a) = v ∧ t.memRead .w a = v.extractLsb' 0 16 ∧
    t.memRead .b (evenAddr a) = v.extractLsb' 0 8 ∧ t.memRead .b (evenAddr a + 1) = v.extractLsb' 8 8 ∧
    t.memRead .b (evenAddr a + 2) = v.extractLsb' 16 8 := by
  intro t
  have hself : t.memRead .p a = v := State.memRead_memWrite_self hs (z := .p) h v
  simp only [List.forall_mem_cons] at h
  obtain ⟨h0, h1, h2, -⟩ := h
  have b0 : t.byteAt (evenAddr a) = v.extractLsb' 0 8 := State.byteAt_memWrite_touched hs h0 .p a v (k := 0) rfl
  have b1 : t.byteAt (evenAddr a + 1) = v.extractLsb' 8 8 := State.byteAt_memWrite_touched hs h1 .p a v (k := 1) rfl
  have b2 : t.byteAt (evenAddr a + 2) = v.extractLsb' 16 8 := State.byteAt_memWrite_touched hs h2 .p a v (k := 2) rfl
  have hm : ∀ {b}, s.isRam b = true → t.isMemory b = true := fun hb =>
    (State.isMemory_congr (s.memWrite_map .p a v) _).trans (State.isMemory_of_isRam hb)
  refine ⟨hself, (State.memRead_evenAddr _ (by decide) a).trans hself, ?_, b0, b1, b2⟩
  rw [State.memRead, State.wordAt_of_isMemory (hm h0) (hm h1), b0, b1]
  exact append_bytes_eq_low v

end

/-! ### What the platform sees -/

section
variable {s : State}

/-- A write to RAM alone is not seen. -/
theorem State.memWrite_bus_of_touched {z : Size} {a : Ptr} (h : ∀ b ∈ touched z a, s.isRam b = true) (v : BitVec z.bits) :
    (s.memWrite z a v).bus = s.bus := by
  have byte : ∀ {t : State} {a : Ptr}, t.isRam a = true → ∀ v, (t.write8 a v).bus = t.bus := fun {t a} h v => by
    rw [State.write8, State.didWrite8_of_isRam (s := t.setByte a v) h, State.setByte_bus]
  have word : s.isRam (evenAddr a) = true → s.isRam (evenAddr a + 1) = true → ∀ v, (s.write16 a v).bus = s.bus :=
    fun h0 h1 v => by
      rw [State.write16, State.didWrite16_of_isRam (s := (s.setByte _ _).setByte _ _) h0 h1, State.setByte_bus, State.setByte_bus]
  cases z <;> simp only [touched, List.forall_mem_cons] at h
  case b => exact byte h.1 v
  case w => exact word h.1 h.2.1 v
  case p => exact (byte (t := s.write16 a _) h.2.2.1 _).trans (word h.1 h.2.1 _)

/-- A byte that is not memory is what the platform answers, after every access it has seen. -/
theorem State.found_of_not_isMemory {a : Ptr} (h : s.isMemory a = false) : s.found a = Config.answer s.bus a := by
  simp [State.found, h]

theorem State.didRead8_of_not_isMemory {a : Ptr} (h : s.isMemory a = false) :
    s.didRead8 a = { s with bus := .read8 a :: s.bus } := by simp [State.didRead8, h]

theorem State.didRead16_of_not_isMemory {a : Ptr} (h : s.isMemory a = false ∨ s.isMemory (a + 1) = false) :
    s.didRead16 a = { s with bus := .read16 a :: s.bus } := by
  obtain h | h := h <;>
    simp only [State.didRead16, h, Bool.false_and, Bool.and_false, Bool.false_eq_true, if_false]

theorem State.didWrite8_of_not_isRam {a : Ptr} (h : s.isRam a = false) (v : Byte) :
    s.didWrite8 a v = { s with bus := .write8 a v :: s.bus } := by simp [State.didWrite8, h]

theorem State.didWrite16_of_not_isRam {a : Ptr} (h : s.isRam a = false) (v : Word) :
    s.didWrite16 a v = { s with bus := .write16 a v :: s.bus } := by simp [State.didWrite16, h]

/-- A 16-bit read of which a byte is not memory: that byte is the platform's answer to this access. -/
theorem State.read16_of_not_isMemory {a : Ptr}
    (h : s.isMemory (evenAddr a) = false ∨ s.isMemory (evenAddr a + 1) = false) :
    s.didRead .w a = { s with bus := .read16 (evenAddr a) :: s.bus } ∧
    (s.isMemory (evenAddr a) = false →
      (s.memRead .w a).extractLsb' 0 8 = Config.answer (.read16 (evenAddr a) :: s.bus) (evenAddr a)) ∧
    (s.isMemory (evenAddr a + 1) = false →
      (s.memRead .w a).extractLsb' 8 8 = Config.answer (.read16 (evenAddr a) :: s.bus) (evenAddr a + 1)) := by
  have hread := State.didRead16_of_not_isMemory h
  refine ⟨hread ▸ rfl, fun h0 => ?_, fun h1 => ?_⟩ <;> rw [State.memRead, State.wordAt, hread]
  · exact BitVec.extractLsb'_append_eq_right.trans (State.found_of_not_isMemory h0)
  · exact BitVec.extractLsb'_append_eq_left.trans (State.found_of_not_isMemory h1)

/-- A 16-bit write outside RAM reaches the platform and changes nothing else. -/
theorem State.write16_of_not_isRam {a : Ptr} (h : s.isRam (evenAddr a) = false) (h' : s.isRam (evenAddr a + 1) = false)
    (v : Word) : s.memWrite .w a v = { s with bus := .write16 (evenAddr a) v :: s.bus } := by
  rw [State.memWrite, State.write16, State.setByte_of_not_isRam h, State.setByte_of_not_isRam h',
    State.didWrite16_of_not_isRam h]

theorem State.write8_of_not_isRam {a : Ptr} (h : s.isRam a = false) (v : Byte) :
    s.memWrite .b a v = { s with bus := .write8 a v :: s.bus } := by
  rw [State.memWrite, State.write8, State.setByte_of_not_isRam h, State.didWrite8_of_not_isRam h]

end

/-- Settles O12: the bytes of a write one by one where they are RAM, all others unchanged, and the record of any other access. -/
theorem memoryAccess : Obligations.MemoryAccess := by
  intro s a hs e
  refine ⟨evenAddr_toNat a, State.byteAt_write8_self hs, State.reads_after_write16 hs, State.reads_after_write24 hs,
    fun z v b hb h => ?_, fun z => State.didRead_of_isMemory, fun z v h => State.memWrite_bus_of_touched h v,
    fun h => ⟨?_, ?_⟩, State.read16_of_not_isMemory, State.write8_of_not_isRam, State.write16_of_not_isRam, rfl, rfl,
    fun _ => rfl⟩
  · obtain h | h := h
    · exact State.byteAt_memWrite_of_not_mem z a v hb h
    · exact State.byteAt_memWrite_of_rom h z a v
  · rw [State.memRead, State.byteAt, State.didRead8_of_not_isMemory h]
    exact State.found_of_not_isMemory h
  · exact State.didRead8_of_not_isMemory h ▸ rfl

end Sys2Proof.Machine

namespace Sys2Proof.Machine

/-! Taking a trap (60_exceptions.md R372, R373). -/

/-- The state with the frame of a trap written, SP not yet moved: the return address, then the old WF below it. -/
def State.framed (s : State) (ret : Ptr) : State := (s.memWrite .p (s.getP 7 - 4) ret).memWrite .w (s.getP 7 - 6) s.wf

section
variable (s : State) (c : TrapCause) (ret : Ptr)

/-- A write to memory and one to a register may be exchanged. -/
theorem State.memWrite_setP (z : Size) (i : RegNum) (x a : Ptr) (v : BitVec z.bits) :
    (s.setP i x).memWrite z a v = (s.memWrite z a v).setP i x := by cases z <;> rfl

theorem State.push24_eq (v : Ptr) : s.push24 v = (s.memWrite .p (s.getP 7 - 4) v).setP 7 (s.getP 7 - 4) :=
  s.memWrite_setP .p 7 _ _ v

theorem State.push16_eq (v : Word) : s.push16 v = (s.memWrite .w (s.getP 7 - 2) v).setP 7 (s.getP 7 - 2) :=
  s.memWrite_setP .w 7 _ _ v

/-- The two pushes of a trap write its frame, and SP ends six lower. -/
theorem State.push_frame :
    (s.push24 ret).push16 s.wf = ((s.framed ret).setP 7 (s.getP 7 - 4)).setP 7 (s.getP 7 - 6) := by
  have hsp : s.getP 7 - 4 - 2 = s.getP 7 - 6 := by generalize s.getP 7 = x; bv_omega
  rw [State.push16_eq, State.push24_eq, State.getP_setP_self, hsp, State.memWrite_setP]
  rfl

/-- Taking a trap, with the frame in one piece. -/
theorem State.trap_eq : s.trap c ret =
    (((((s.framed ret).setP 7 (s.getP 7 - 4)).setP 7 (s.getP 7 - 6)).setIrl (c.irlOnEntry s.irl)).clearProgress).setPgc
      c.vector := by
  rw [← State.push_frame]
  rfl

theorem State.trap_mem : (s.trap c ret).mem = (s.framed ret).mem := by rw [State.trap_eq]; rfl

theorem State.trap_bus : (s.trap c ret).bus = (s.framed ret).bus := by rw [State.trap_eq]; rfl

@[simp] theorem State.framed_p : (s.framed ret).p = s.p := by simp [State.framed]

@[simp] theorem State.framed_map : (s.framed ret).map = s.map := by simp [State.framed]

theorem State.getP_trap_sp : (s.trap c ret).getP 7 = s.getP 7 - 6 := by
  rw [State.trap_eq]
  exact State.getP_setP_self _ 7 _

theorem State.getP_trap_of_ne {j : RegNum} (h : j ≠ 7) : (s.trap c ret).getP j = s.getP j := by
  rw [State.trap_eq]
  calc
    _ = (((s.framed ret).setP 7 (s.getP 7 - 4)).setP 7 (s.getP 7 - 6)).getP j := rfl
    _ = ((s.framed ret).setP 7 (s.getP 7 - 4)).getP j := State.getP_setP_of_ne _ _ h
    _ = (s.framed ret).getP j := State.getP_setP_of_ne _ _ h
    _ = s.getP j := State.getP_congr (s.framed_p ret) j

/-- A trap reads as its frame does at every address of memory. -/
theorem State.byteAt_trap {b : Ptr} (hb : s.isMemory b = true) : (s.trap c ret).byteAt b = (s.framed ret).byteAt b :=
  State.byteAt_congr (s.trap_mem c ret) (s.framed_map ret).symm ((State.isMemory_congr (s.framed_map ret) b).trans hb)

end

/-- Every vector is even, so that the write of PGC keeps it whole (R360). -/
theorem TrapCause.vector_even (c : TrapCause) : c.vector &&& 0xFFFFFE = c.vector := by
  cases c with
  | irq n => cases n <;> decide
  | nmi | divideByZero | illegalInstruction => decide

section
variable {s : State} {ret : Ptr}

/-- The return address starts two bytes above the old WF, at an odd SP too (20_memory.md R75). -/
theorem evenAddr_frame (sp : Ptr) : evenAddr (sp - 4) = evenAddr (sp - 6) + 2 := by
  have h : sp - 4 = sp - 6 + BitVec.ofNat 24 (2 * 1) := by bv_omega
  rw [h, evenAddr_add]
  rfl

/-- The three bytes above a word are not in it, at the wrap of addresses too. -/
theorem above_not_mem_word (a : Ptr) : a + 2 ∉ [a, a + 1] ∧ a + 3 ∉ [a, a + 1] ∧ a + 4 ∉ [a, a + 1] := by
  simp only [List.mem_cons, List.not_mem_nil, or_false]
  refine ⟨?_, ?_, ?_⟩ <;> bv_omega

/-- The bytes of the old WF, where they are RAM. -/
theorem State.byteAt_framed_wf (hs : s.mem.wf = true) {b : Ptr} (hb : s.isRam b = true) {k : Nat}
    (hk : (touched .w (s.getP 7 - 6))[k]? = some b) : (s.framed ret).byteAt b = s.wf.extractLsb' (8 * k) 8 :=
  State.byteAt_memWrite_touched (State.wf_memWrite hs _ _ _) ((State.isRam_congr (s.memWrite_map _ _ _) b).trans hb)
    .w _ _ hk

/-- The bytes of the return address, which the write of the old WF does not reach. -/
theorem State.byteAt_framed_ret (hs : s.mem.wf = true) {b : Ptr} (hb : s.isRam b = true) {k : Nat}
    (hk : (touched .p (s.getP 7 - 4))[k]? = some b) (hne : b ∉ touched .w (s.getP 7 - 6)) :
    (s.framed ret).byteAt b = ret.extractLsb' (8 * k) 8 := by
  have hm : (s.memWrite .p (s.getP 7 - 4) ret).isMemory b = true :=
    (State.isMemory_congr (s.memWrite_map _ _ _) b).trans (State.isMemory_of_isRam hb)
  rw [State.framed, State.byteAt_memWrite_of_not_mem .w _ _ hm hne]
  exact State.byteAt_memWrite_touched hs hb .p _ _ hk

/-- Memory outside the frame. -/
theorem State.byteAt_framed_of_not_mem {b : Ptr} (hb : s.isMemory b = true) (hp : b ∉ touched .p (s.getP 7 - 4))
    (hw : b ∉ touched .w (s.getP 7 - 6)) : (s.framed ret).byteAt b = s.byteAt b := by
  have hm := (State.isMemory_congr (s.memWrite_map .p (s.getP 7 - 4) ret) b).trans hb
  rw [State.framed, State.byteAt_memWrite_of_not_mem .w _ _ hm hw, State.byteAt_memWrite_of_not_mem .p _ _ hb hp]

end

/-- Settles O47: the frame is that of the two writes, and what else entry does is a write of one register or field each. -/
theorem trapEntry : Obligations.TrapEntry := by
  intro c ret s hs t a framed
  have hp : touched .p (s.getP 7 - 4) = [a + 2, a + 3, a + 4] := by
    simp only [touched, evenAddr_frame, BitVec.add_assoc]
    rfl
  have hread : ∀ {b}, s.isMemory b = true → t.byteAt b = (s.framed ret).byteAt b := s.byteAt_trap c ret
  have wfByte : ∀ {b}, ∀ k, (touched .w (s.getP 7 - 6))[k]? = some b → s.isRam b = true →
      t.byteAt b = s.wf.extractLsb' (8 * k) 8 := fun k hk hb =>
    (hread (State.isMemory_of_isRam hb)).trans (State.byteAt_framed_wf hs hb hk)
  have retByte : ∀ {b}, ∀ k, (touched .p (s.getP 7 - 4))[k]? = some b → b ∉ [a, a + 1] → s.isRam b = true →
      t.byteAt b = ret.extractLsb' (8 * k) 8 := fun k hk hne hb =>
    (hread (State.isMemory_of_isRam hb)).trans (State.byteAt_framed_ret hs hb hk hne)
  obtain ⟨ne2, ne3, ne4⟩ := above_not_mem_word a
  refine ⟨s.getP_trap_sp c ret, s.trap_mem c ret, s.trap_bus c ret, wfByte 0 rfl, wfByte 1 rfl, retByte 0 (by rw [hp]; rfl) ne2,
    retByte 1 (by rw [hp]; rfl) ne3, retByte 2 (by rw [hp]; rfl) ne4, fun b hb hout => ?_, fun j => s.getP_trap_of_ne c ret,
    rfl, ?_, rfl, rfl, rfl, c.vector_even, rfl, rfl, rfl, rfl, rfl⟩
  · have hp' : b ∉ touched .p (s.getP 7 - 4) := fun h => hout (List.mem_append_right [a, a + 1] (hp ▸ h))
    have hw' : b ∉ touched .w (s.getP 7 - 6) := fun h => hout (List.mem_append_left [a + 2, a + 3, a + 4] h)
    exact (hread hb).trans (State.byteAt_framed_of_not_mem hb hp' hw')
  · cases c <;> rfl

end Sys2Proof.Machine

namespace Sys2Proof.Machine

open Sys2Proof.Claims

/-! Copies (41_data_transfer.md R171): LD, and PUSH and POP as the copies they stand for. -/

/-- At an even PGC fetching no word changes nothing. -/
theorem State.advance_zero {s : State} (h : s.pgc.getLsbD 0 = false) : s.advance 0 = s := by
  have hp : (s.pgc + BitVec.ofNat 24 (2 * 0)) &&& 0xFFFFFE = s.pgc := by
    rw [Nat.mul_zero, BitVec.add_zero]
    exact and_fixedZero_of_even h
  rw [State.advance, hp]
  rfl

/-- SP moves by the step of its auto-modify, 2 at `.B` (20_memory.md R75, 40_operands.md R150). -/
theorem stepOf_sp (z : Size) : stepOf z 7 = stackStep z := by cases z <;> rfl

section
variable {z : Size} {d m : Rm} (s : State)

/-- A copy of a well-formed operand to another. -/
theorem copyOperand_wellFormed (hd : d.wellFormed = true) (hm : m.wellFormed = true) :
    copyOperand z d m s =
      writeOp (locate z d (copyFetched z d m s)) (copyValue z d m s) (autoModify z d (copyFetched z d m s)) := by
  simp only [copyOperand, hm, if_true, resolve_wellFormed hd]
  rfl

/-- The destination of PUSH has no words of its own: nothing is fetched after the source is read. -/
theorem copyFetched_push : copyFetched z (.preDec 7) m s = accessed z (1 + m.ext) m s :=
  State.advance_zero (s := accessed z (1 + m.ext) m s) (by simp [accessed, resolved])

/-- The source of POP is the cell at SP, which the read leaves SP above. -/
theorem copyRead_pop :
    copyRead z d (.postInc 7) s = ((s.advance 1).setP 7 (s.getP 7 + stackStep z)).didRead z (s.getP 7) := by
  rw [← stepOf_sp]
  rfl

theorem copyValue_pop : copyValue z d (.postInc 7) s = (s.advance 1).memRead z (s.getP 7) :=
  State.memRead_congr (s := s.advance 1) (t := (s.advance 1).setP 7 (s.getP 7 + stepOf z 7)) rfl rfl rfl z _

end

/-- Settles O16: each is a copy of well-formed operands, POP from the cell at SP and PUSH to the one below it. -/
theorem copyResults : Obligations.CopyResults := by
  refine ⟨fun z d m s hd hm => ?_, fun z m s hm => ?_, fun z d s hd => ?_⟩
  · exact congrArg Host.Outcome.next (copyOperand_wellFormed s hd hm)
  · refine congrArg Host.Outcome.next ((copyOperand_wellFormed s rfl hm).trans ?_)
    rw [copyFetched_push, ← stepOf_sp]
    rfl
  · refine congrArg Host.Outcome.next ((copyOperand_wellFormed s hd rfl).trans ?_)
    rw [copyFetched, copyRead_pop, copyValue_pop]

end Sys2Proof.Machine

namespace Sys2Proof.Machine

open Sys2Proof.Claims

/-! The bytes an instruction leaves alone (20_memory.md R71): `KeepsBytes` is closed under composition, every operation of the
model keeps the bytes it does not store to, and `exec_keepsBytes` puts the operations of each instruction together. -/

/-- `t` reads as `s` does at every address of memory but those in `bs`, and has the same memory map. -/
structure KeepsBytes (bs : List Ptr) (s t : State) : Prop where
  map : t.map = s.map
  bytes : ∀ a, s.isMemory a = true → a ∉ bs → t.byteAt a = s.byteAt a

section
variable {bs : List Ptr} {s t u : State}

theorem KeepsBytes.trans (hst : KeepsBytes bs s t) (htu : KeepsBytes bs t u) : KeepsBytes bs s u where
  map := htu.map.trans hst.map
  bytes a ha hn := (htu.bytes a ((State.isMemory_congr hst.map a).trans ha) hn).trans (hst.bytes a ha hn)

/-- What does not touch memory keeps every byte. -/
theorem KeepsBytes.of_mem (hmem : t.mem = s.mem) (hmap : t.map = s.map) : KeepsBytes bs s t :=
  ⟨hmap, fun _ ha _ => State.byteAt_congr hmem hmap ha⟩

/-! ### The operations of the model -/

section
variable (s : State)

theorem KeepsBytes.setP (r : RegNum) (v : Ptr) : KeepsBytes bs s (s.setP r v) := .of_mem rfl rfl

theorem KeepsBytes.memWrite {z : Size} {a : Ptr} (v : BitVec z.bits) : KeepsBytes (touched z a) s (s.memWrite z a v) :=
  ⟨s.memWrite_map z a v, fun _ hb hn => State.byteAt_memWrite_of_not_mem z a v hb hn⟩

theorem KeepsBytes.writeOp {z : Size} (l : Loc z) (v : BitVec z.bits) : KeepsBytes (placeBytes l) s (writeOp l v s) :=
  ⟨writeOp_map l v s, fun _ hb hn => byteAt_writeOp l v s hb (by rintro ea rfl; exact hn)⟩

theorem KeepsBytes.push24 (v : Ptr) : KeepsBytes (touched .p (s.getP 7 - 4)) s (s.push24 v) :=
  (KeepsBytes.setP s 7 _).trans (KeepsBytes.memWrite (z := .p) (s.setP 7 (s.sp - 4)) v)

/-- A call, where SP is known by another state. -/
theorem KeepsBytes.call {sp : Ptr} (h : s.getP 7 = sp) (target : Ptr) :
    KeepsBytes (touched .p (sp - 4)) s (s.call target) :=
  h ▸ (KeepsBytes.push24 s s.pgc).trans (.of_mem (State.setPgc_mem _ target) (State.setPgc_map _ target))

theorem KeepsBytes.effectiveAddress {z : Size} (l : Loc z) : KeepsBytes bs s (effectiveAddress l s).2 := by
  cases l <;> exact .of_mem rfl rfl

/-- An address that is a free value is drawn, which moves no register. -/
theorem effectiveAddress_p {z : Size} (l : Loc z) : (effectiveAddress l s).2.p = s.p := by cases l <;> rfl

theorem KeepsBytes.arith (op : AddSub) (z : Size) (a b : BitVec z.bits) (cx : Bool) :
    KeepsBytes bs s (arith op z a b cx s).2 := by
  rw [arith_frame]
  exact .of_mem rfl rfl

theorem KeepsBytes.storeQuotient {z : Size} (r : RegNum) (q : Option (Quotient z.bits)) (d : DivOverflow) :
    KeepsBytes bs s (storeQuotient z r q d s) := by
  cases q <;> exact .of_mem (by simp [Machine.storeQuotient]) (by simp [Machine.storeQuotient])

end

/-! ### The operand shapes -/

/-- The operand of an instruction that raises no exception is well formed. -/
theorem wellFormed_of_raisesNone {i : Instr} {m : Rm} (hr : raisesNone i s) (h : operandsOf i = [m]) : m.wellFormed = true :=
  hr.2.1 m (h ▸ List.mem_singleton_self m)

theorem KeepsBytes.resolved (z : Size) (k : Nat) (m : Rm) : KeepsBytes bs s (resolved z k m s) :=
  .of_mem (by simp [Claims.resolved]) (by simp [Claims.resolved])

theorem KeepsBytes.accessed (z : Size) (k : Nat) (m : Rm) : KeepsBytes bs s (accessed z k m s) :=
  .of_mem (by simp [Claims.accessed, Claims.resolved]) (by simp [Claims.accessed, Claims.resolved])

variable {z : Size} {k : Nat} {m : Rm} (hm : m.wellFormed = true)
include hm

theorem KeepsBytes.withOperand {body : Loc z → State → State}
    (hb : KeepsBytes bs (Claims.resolved z k m s) (body (place z k m s) (Claims.resolved z k m s))) :
    KeepsBytes bs s (withOperand z k m s body) :=
  withOperand_wellFormed hm z k s body ▸ (KeepsBytes.resolved z k m).trans hb

theorem KeepsBytes.withSource {body : BitVec z.bits → State → State}
    (hb : KeepsBytes bs (Claims.accessed z k m s) (body (operand z k m s) (Claims.accessed z k m s))) :
    KeepsBytes bs s (withSource z k m s body) :=
  withSource_wellFormed hm z k s body ▸ (KeepsBytes.accessed z k m).trans hb

theorem KeepsBytes.modify {f : BitVec z.bits → State → BitVec z.bits × State}
    (hf : ∀ {bs} a u, KeepsBytes bs u (f a u).2) : KeepsBytes (placeBytes (place z k m s)) s (modify z k m s f) :=
  modify_wellFormed hm z k s f ▸ (KeepsBytes.accessed z k m).trans ((hf _ _).trans (.writeOp _ _ _))

theorem KeepsBytes.intoRegister {r : RegNum} {f : BitVec z.bits → BitVec z.bits → State → BitVec z.bits × State}
    (hf : ∀ a b u, KeepsBytes bs u (f a b u).2) : KeepsBytes bs s (intoRegister z r m s f) :=
  .withSource hm ((hf _ _ _).trans (.of_mem (State.setR_mem ..) (State.setR_map ..)))

theorem KeepsBytes.pushAddress (r : RegNum) :
    KeepsBytes (touched .p ((Claims.resolved .p (1 + m.ext) m s).getP r - 4)) s (pushAddress r m s) := by
  refine .withOperand hm ((KeepsBytes.effectiveAddress _ (place .p (1 + m.ext) m s)).trans ?_)
  have hp := State.getP_congr (effectiveAddress_p (Claims.resolved .p (1 + m.ext) m s) (place .p (1 + m.ext) m s)) r
  rw [← hp]
  generalize Machine.effectiveAddress _ _ = ea
  exact (KeepsBytes.setP ea.2 r _).trans (KeepsBytes.memWrite (z := .p) (ea.2.setP r (ea.2.getP r - 4)) ea.1)

theorem KeepsBytes.copyOperand {d : Rm} (hd : d.wellFormed = true) :
    KeepsBytes (placeBytes (locate z d (copyFetched z d m s))) s (copyOperand z d m s) := by
  have hfetched : ∀ {bs}, KeepsBytes bs s (autoModify z d (copyFetched z d m s)) :=
    .of_mem (by simp [copyFetched, copyRead, Claims.resolved]) (by simp [copyFetched, copyRead, Claims.resolved])
  rw [copyOperand_wellFormed s hd hm]
  exact hfetched.trans (.writeOp _ _ _)

end

/-! ### All instructions -/

/-- Every instruction that raises no exception stores to `storedBytes` alone. -/
theorem exec_keepsBytes {i : Instr} {s : State} (hr : raisesNone i s) :
    ∃ t, exec i s = .next t ∧ KeepsBytes (storedBytes i s) s t := by
  have wf : ∀ {m}, operandsOf i = [m] → m.wellFormed = true := wellFormed_of_raisesNone hr
  cases i with
  | ilg => exact absurd rfl hr.1
  | nop | halt | repi _ | repr _ | ldPHml _ _ | ldq _ _ | ldIrl _ | andF _ | xorF _ | orF _ | ldFImm _ | rxf | sxf | cxf | ddm
  | edm | jrS _ | jrL _ | jpHml _ | ret | reti => exact ⟨_, rfl, .of_mem rfl rfl⟩
  | jrCond cc o | djnz r o => exact ⟨_, rfl, by split <;> exact .of_mem rfl rfl⟩
  -- a source is read, registers and flags are written
  | addRRm z r m | adxRRm z r m | subRRm z r m | sbxRRm z r m =>
    exact ⟨_, rfl, .intoRegister (wf rfl) fun _ _ u => .arith u ..⟩
  | andRRm z r m | xorRRm z r m | orRRm z r m => exact ⟨_, rfl, .intoRegister (wf rfl) fun _ _ _ => .of_mem rfl rfl⟩
  | ldFRm m | ldWfRm m | tst z m | cpRRm z r m | cpRmImm z m imm | bitImm k m | bitM0 m | ldzx z r m | ldsx z r m | jpRm m =>
    exact ⟨_, rfl, .withSource (wf rfl) (.of_mem rfl rfl)⟩
  | mulu z r m | muls z r m =>
    exact ⟨_, rfl, .withSource (wf rfl) (.of_mem (by simp [storeProduct]) (by simp [storeProduct]))⟩
  | divu z r m | divs z r m =>
    refine ⟨_, rfl, .withSource (wf rfl) ?_⟩
    have hd : operand z (1 + m.ext) m s ≠ 0 := hr.2.2
    simp only [hd, if_false]
    exact .storeQuotient ..
  | lea r m | jea m =>
    exact ⟨_, rfl, .withOperand (wf rfl) ((KeepsBytes.effectiveAddress _ _).trans (.of_mem rfl rfl))⟩
  -- the operand is stored to
  | addRmR z m r | adxRmR z m r | subRmR z m r | sbxRmR z m r | addRmImm z m imm | adxRmImm z m imm | subRmImm z m imm
  | sbxRmImm z m imm | neg z m | ngx z m => exact ⟨_, rfl, .modify (wf rfl) fun _ u => .arith u ..⟩
  | adq z n m | sbq z n m | andRmR z m r | xorRmR z m r | orRmR z m r | andRmImm z m imm | xorRmImm z m imm | orRmImm z m imm
  | cpl z m | sla z m | sra z m | srl z m | rl z m | rr z m | rlc z m | rrc z m | chgImm k m | resImm k m | setImm k m
  | chgM0 m | resM0 m | setM0 m | swapB m | swapW m | swapP m =>
    exact ⟨_, rfl, .modify (wf rfl) fun _ _ => .of_mem rfl rfl⟩
  | ldRmF m | ldRmWf m => exact ⟨_, rfl, .withOperand (wf rfl) (.writeOp ..)⟩
  -- copies
  | ldRmRm z d m =>
    exact ⟨_, rfl, .copyOperand (hr.2.1 m (List.mem_cons_of_mem _ (List.mem_singleton_self m)))
      (hr.2.1 d (List.mem_cons_self ..))⟩
  | pop z d => exact ⟨_, rfl, .copyOperand rfl (wf rfl)⟩
  | push z m =>
    have hcell : placeBytes (locate z (.preDec 7) (copyFetched z (.preDec 7) m s)) = storedBytes (.push z m) s := by
      rw [copyFetched_push]
      simp only [locate, placeBytes, storedBytes, storesAt, stepOf_sp, accessed, State.getP_congr (afterRead_p ..)]
    exact ⟨_, rfl, hcell ▸ .copyOperand (wf rfl) rfl⟩
  -- pushes and calls
  | leaPre r m | pea m => exact ⟨_, rfl, .pushAddress (wf rfl) _⟩
  | crS _ | rst _ => exact ⟨_, rfl, KeepsBytes.trans (t := s.advance 1) (.of_mem rfl rfl) (.call _ rfl _)⟩
  | crL _ | callHml _ => exact ⟨_, rfl, KeepsBytes.trans (t := s.advance 2) (.of_mem rfl rfl) (.call _ rfl _)⟩
  | callRm m => exact ⟨_, rfl, .withSource (wf rfl) (.call _ (State.getP_congr (afterRead_p ..) 7) _)⟩
  | cea m =>
    exact ⟨_, rfl, .withOperand (wf rfl)
      ((KeepsBytes.effectiveAddress _ _).trans (.call _ (State.getP_congr (effectiveAddress_p ..) 7) _))⟩

/-- Settles O57: the bytes an instruction keeps are all but those it stores to. -/
theorem memoryFrameStores : Obligations.MemoryFrameStores := by
  intro i s t hr h
  obtain ⟨u, hu, hk⟩ := exec_keepsBytes hr
  cases hu.symm.trans h
  exact hk.bytes

/-- Settles O56: an instruction that stores nothing has no bytes to except. -/
theorem memoryFrameNoStore : Obligations.MemoryFrameNoStore := by
  intro i s t hn hr h a ha
  have hnone : storedBytes i s = [] := by rw [storedBytes, show storesAt i = .nothing from hn]
  exact memoryFrameStores i s t hr h a ha (hnone ▸ List.not_mem_nil)

end Sys2Proof.Machine

namespace Sys2Proof

/-! Decode after encode (30_encoding.md R110): one lemma per format of R105, and the opcode map evaluated at each row. -/

/-! ### The opcode map at the words the encoder writes -/

/-- Size bits other than 3 select the groups 0 to 11 (R93). -/
theorem decodeFields_sized (z : Size) (c : BitVec 2) (b : BitVec 1) (r : RegNum) (f : BitVec 2) (m : BitVec 6)
    (ws : List Word) : decodeFields ⟨z.toBits, c, b, r, f, m⟩ ws = decodeSized z ⟨z.toBits, c, b, r, f, m⟩ ws := by
  simp only [decodeFields, Size.ofBits_toBits]

/-- The field of a short form immediate, and of no other operand, ends in 11 (R96). -/
theorem Rm.isShort_iff_field (m : Rm) : m.isShort = true ↔ m.field.extractLsb' 0 2 = 3 := by
  have hreg := fun high r k => (Rm.field_of_reg high r k).2.2
  cases m with
  | short n => exact iff_of_true rfl (Rm.field_of_short n).2
  | reg r => exact iff_of_false Bool.false_ne_true (ne_of_eq_of_ne (hreg false r 0) (by decide))
  | rel r d => exact iff_of_false Bool.false_ne_true (ne_of_eq_of_ne (hreg false r 1) (by decide))
  | ind r => exact iff_of_false Bool.false_ne_true (ne_of_eq_of_ne (hreg false r 2) (by decide))
  | postInc r => exact iff_of_false Bool.false_ne_true (ne_of_eq_of_ne (hreg true r 0) (by decide))
  | preDec r => exact iff_of_false Bool.false_ne_true (ne_of_eq_of_ne (hreg true r 2) (by decide))
  | imm16 _ | imm24 _ | abs16 _ | abs24 _ | pcRel16 _ | pcRel24 _ | regIdx _ _ | absIdx _ _ | badRegIdx _ | badAbsIdx _ _ =>
    exact iff_of_false Bool.false_ne_true (by simp [Rm.field])

/-- An 8-bit field of the opcode map holds the byte that was written. -/
theorem ok_low_parts (k : Byte → Instr) (n : Byte) :
    (.ok (k (n.extractLsb' 6 2 ++ n.extractLsb' 0 6)) : Except DecodeError Instr) = .ok (k n) := by rw [low_parts]

/-! ### The rows of groups 13 to 15 that fix bits of the 8-bit field, and the relative jumps -/

section
variable (b : BitVec 1) (r : RegNum) (f : BitVec 2) (m : BitVec 6) (ws : List Word)

theorem decodeFields_group13 : decodeFields ⟨3, 1, b, r, f, m⟩ ws = decodeGroup13 ⟨3, 1, b, r, f, m⟩ ws := rfl

theorem decodeFields_group14 : decodeFields ⟨3, 2, b, r, f, m⟩ ws = decodeGroup14 ⟨3, 2, b, r, f, m⟩ := rfl

theorem decodeFields_group15 : decodeFields ⟨3, 3, b, r, f, m⟩ ws = decodeGroup15 ⟨3, 3, b, r, f, m⟩ ws := rfl

end

section
variable (ws : List Word)

/-- The 8-bit field `0000 0nnn`. -/
theorem decodeFields_ldIrl (n : BitVec 3) :
    decodeFields ⟨3, 1, 1, 3, (0#5 ++ n).extractLsb' 6 2, (0#5 ++ n).extractLsb' 0 6⟩ ws = .ok (.ldIrl n) := by
  have hn : ∀ n : BitVec 3, (0#5 ++ n).extractLsb' 6 2 = 0 ∧ ((0#5 ++ n).extractLsb' 0 6).extractLsb' 3 3 = 0 ∧
      ((0#5 ++ n).extractLsb' 0 6).extractLsb' 0 3 = n := by decide
  rw [decodeFields_group13]
  simp [decodeGroup13, hn n]

/-- The 8-bit field `000n nnnn`. -/
theorem decodeFields_repi (n : BitVec 5) :
    decodeFields ⟨3, 3, 1, 6, (0#3 ++ n).extractLsb' 6 2, (0#3 ++ n).extractLsb' 0 6⟩ ws = .ok (.repi n) := by
  have hn : ∀ n : BitVec 5, (0#3 ++ n).extractLsb' 6 2 = 0 ∧ ((0#3 ++ n).extractLsb' 0 6).getLsbD 5 = false ∧
      ((0#3 ++ n).extractLsb' 0 6).extractLsb' 0 5 = n := by decide
  obtain ⟨hf, h5, h0⟩ := hn n
  simp only [decodeFields_group15, decodeGroup15, hf, h5, h0]
  rfl

/-- The 8-bit field `1ooo oooo`. -/
theorem decodeFields_djnz (r : RegNum) (o : BitVec 7) :
    decodeFields ⟨3, 3, 0, r, (1#1 ++ o).extractLsb' 6 2, (1#1 ++ o).extractLsb' 0 6⟩ ws = .ok (.djnz r o) := by
  have ho : ∀ o : BitVec 7, ((1#1 ++ o).extractLsb' 6 2).getLsbD 1 = true ∧
      ((1#1 ++ o).extractLsb' 6 2).extractLsb' 0 1 ++ (1#1 ++ o).extractLsb' 0 6 = o := by decide
  obtain ⟨h1, h0⟩ := ho o
  simp only [decodeFields_group15, decodeGroup15, h1, h0]
  rfl

/-- The 8-bit field `0000 0000`. -/
theorem decodeFields_repr (r : RegNum) :
    decodeFields ⟨3, 3, 0, r, (0 : Byte).extractLsb' 6 2, (0 : Byte).extractLsb' 0 6⟩ ws = .ok (.repr r) := by
  rw [decodeFields_group15]
  simp [decodeGroup15, FirstWord.low]

theorem decodeFields_jrCond (cc : Cond) (f : BitVec 2) (m : BitVec 6) :
    decodeFields ⟨3, 2, cc.code.extractLsb' 3 1, cc.code.extractLsb' 0 3, f, m⟩ ws = .ok (.jrCond cc (f ++ m)) := by
  rw [decodeFields_group14, decodeGroup14, cond_parts cc]
  rfl

/-- Code 14 is no condition (R114). -/
theorem decodeFields_jrS (f : BitVec 2) (m : BitVec 6) :
    decodeFields ⟨3, 2, 1, 6, f, m⟩ ws = .ok (.jrS (f ++ m)) := by
  rw [decodeFields_group14]
  simp [decodeGroup14, Cond.ofCode, FirstWord.low]

/-- Nor is code 15. -/
theorem decodeFields_crS (f : BitVec 2) (m : BitVec 6) :
    decodeFields ⟨3, 2, 1, 7, f, m⟩ ws = .ok (.crS (f ++ m)) := by
  rw [decodeFields_group14]
  simp [decodeGroup14, Cond.ofCode, FirstWord.low]

end

/-! ### Each format -/

section
variable {z : Size} {c : BitVec 2} {b : BitVec 1} {r : RegNum} {f : BitVec 2} {m : Rm} {i : Instr} (rest : List Word)
  (hi : i.wellFormed = true)
include hi

/-- One operand in groups 0 to 11: F-ZRM, F-ZNRM, F-ZRRM. -/
theorem decodeWords_sizedWord (hm : m.wellFormed = true) (k : Rm → Instr)
    (hk : ∀ ws, decodeSized z ⟨z.toBits, c, b, r, f, m.field⟩ ws = decodeRm k m.field ws) (hki : k m = i) :
    decodeWords (sizedWord z c b r f m :: m.words ++ rest) = .ok i := by
  refine decodeWords_cons _ (m.words ++ rest) _ ?_ hi
  rw [split_sizedWord, decodeFields_sized, hk, decodeRm_words k m hm, hki]

/-- An operand and an immediate: F-ZRMI. -/
theorem decodeWords_immediate {imm : Ptr} (hw : i.wellFormed = (m.wellFormed && z.fits imm)) (k : Rm → Ptr → Instr)
    (hk : ∀ ws, decodeSized z ⟨z.toBits, c, b, r, f, m.field⟩ ws = decodeRmImm k z m.field ws) (hki : k m imm = i) :
    decodeWords (sizedWord z c b r f m :: (z.immWordList imm ++ m.words) ++ rest) = .ok i := by
  refine decodeWords_cons _ (z.immWordList imm ++ m.words ++ rest) _ ?_ hi
  obtain ⟨hm, hfits⟩ := Bool.and_eq_true_iff.mp (hw ▸ hi)
  rw [split_sizedWord, decodeFields_sized, hk, decodeRmImm_words k z m imm hm hfits, hki]

/-- One operand in groups 12 to 15: F-RM, F-NRM. -/
theorem decodeWords_plainWord (hm : m.wellFormed = true) (k : Rm → Instr)
    (hk : ∀ ws, decodeFields ⟨3, c, b, r, f, m.field⟩ ws = decodeRm k m.field ws) (hki : k m = i) :
    decodeWords (plainWord c b r f m :: m.words ++ rest) = .ok i := by
  refine decodeWords_cons _ (m.words ++ rest) _ ?_ hi
  rw [split_plainWord, hk, decodeRm_words k m hm, hki]

/-- An 8-bit field. -/
theorem decodeWords_lowWord {n : Byte}
    (hk : decodeFields ⟨3, c, b, r, n.extractLsb' 6 2, n.extractLsb' 0 6⟩ rest = .ok i) :
    decodeWords ([lowWord c b r n] ++ rest) = .ok i := by
  refine decodeWords_cons _ _ _ ?_ hi
  rw [split_lowWord]
  exact hk

/-- Two words with `hml`: F-RH, F-H. -/
theorem decodeWords_hmlWords {v : Ptr} (k : Ptr → Instr)
    (hk : ∀ n : Byte, ∀ ws, decodeFields ⟨3, c, b, r, n.extractLsb' 6 2, n.extractLsb' 0 6⟩ ws =
      decodeHml k (n.extractLsb' 6 2 ++ n.extractLsb' 0 6) ws) (hv : k v = i) :
    decodeWords (hmlWords c b r v ++ rest) = .ok i := by
  refine decodeWords_cons _ _ _ ?_ hi
  rw [split_lowWord, hk, low_parts]
  exact (decodeHml_words k v rest).trans (congrArg _ hv)

end

/-- Two operands, of which the destination is no short form: F-ZDS. -/
theorem decodeWords_ldWords {z : Size} {d m : Rm} (h : (Instr.ldRmRm z d m).wellFormed = true) (rest : List Word) :
    decodeWords (ldWords z d m ++ rest) = .ok (.ldRmRm z d m) := by
  refine decodeWords_cons _ (m.words ++ d.words ++ rest) _ ?_ h
  simp only [Instr.wellFormed, Bool.and_eq_true, Bool.not_eq_true'] at h
  obtain ⟨⟨hd, hshort⟩, hm⟩ := h
  have hf : d.field.extractLsb' 0 2 ≠ 3 := fun hf => Bool.false_ne_true (hshort ▸ d.isShort_iff_field.mpr hf)
  rw [FirstWord.split_join, decodeFields_sized]
  refine Eq.trans (if_neg hf) ?_
  rw [FirstWord.dst, dst_parts, decodeDstSrc_words _ d m hd hm]

/-! ### All instructions -/

/-- The words of a well-formed core instruction decode to it, whatever follows them. -/
theorem decodeWords_encode {i : Instr} (h : i.wellFormed = true) (hcore : i.isAssemblerRow = false) (rest : List Word) :
    decodeWords (encode i ++ rest) = .ok i := by
  cases i with
  | nop | halt | ilg => rfl
  -- groups 0 to 11
  | ldFRm m | ldWfRm m | ldRmF m | ldRmWf m | swapB m | swapW m | swapP m
  | adq z _ m | sbq z _ m | rlc z m | rrc z m | rl z m | rr z m | sla z m | sra z m | srl z m
  | tst z m | cpl z m | neg z m | ngx z m | lea _ m | leaPre _ m
  | addRRm z _ m | adxRRm z _ m | subRRm z _ m | sbxRRm z _ m | andRRm z _ m | xorRRm z _ m | orRRm z _ m | cpRRm z _ m
  | addRmR z m _ | adxRmR z m _ | subRmR z m _ | sbxRmR z m _ | andRmR z m _ | xorRmR z m _ | orRmR z m _ =>
    exact decodeWords_sizedWord rest h h _ (fun _ => rfl) rfl
  | ldzx z r m | ldsx z r m =>
    have hm : m.wellFormed = true := (Bool.and_eq_true_iff.mp h).2
    cases z with
    | b | w => exact decodeWords_sizedWord rest h hm _ (fun _ => rfl) rfl
    | p => nomatch h
  | mulu z r m | muls z r m | divu z r m | divs z r m =>
    obtain ⟨hr, hm⟩ := Bool.and_eq_true_iff.mp h
    exact decodeWords_sizedWord rest h hm _ (fun _ => if_neg (bne_iff_ne.mp hr)) rfl
  | addRmImm z m _ | adxRmImm z m _ | subRmImm z m _ | sbxRmImm z m _ | andRmImm z m _ | xorRmImm z m _ | orRmImm z m _
  | cpRmImm z m _ => exact decodeWords_immediate rest h rfl _ (fun _ => rfl) rfl
  | ldRmRm z d m => exact decodeWords_ldWords h rest
  -- groups 12 to 15
  | bitImm _ m | chgImm _ m | resImm _ m | setImm _ m | bitM0 m | chgM0 m | resM0 m | setM0 m
  | jpRm m | jea m | callRm m | cea m => exact decodeWords_plainWord rest h h _ (fun _ => rfl) rfl
  | ldPHml _ v => exact decodeWords_hmlWords rest h _ (fun _ _ => rfl) rfl
  | jpHml v | callHml v =>
    have hv : ¬ v.getLsbD 0 = true := (Bool.not_eq_true _).mpr ((Bool.not_eq_true' _).mp h)
    exact decodeWords_hmlWords rest h (fun v => if v.getLsbD 0 then _ else _) (fun _ _ => rfl) (if_neg hv)
  | jrL v | crL v =>
    have hv : v.getLsbD 0 = true := h
    exact decodeWords_hmlWords rest h (fun v => if v.getLsbD 0 then _ else _) (fun _ _ => rfl) (if_pos hv)
  | ldq r n => exact decodeWords_lowWord rest h (ok_low_parts (.ldq r) n)
  | andF n => exact decodeWords_lowWord rest h (ok_low_parts .andF n)
  | xorF n => exact decodeWords_lowWord rest h (ok_low_parts .xorF n)
  | orF n => exact decodeWords_lowWord rest h (ok_low_parts .orF n)
  | ldFImm n => exact decodeWords_lowWord rest h (ok_low_parts .ldFImm n)
  | rst n => exact decodeWords_lowWord rest h (ok_low_parts .rst n)
  | jrS n => exact decodeWords_lowWord rest h ((decodeFields_jrS rest _ _).trans (ok_low_parts .jrS n))
  | crS n => exact decodeWords_lowWord rest h ((decodeFields_crS rest _ _).trans (ok_low_parts .crS n))
  | jrCond cc n =>
    exact decodeWords_lowWord rest h ((decodeFields_jrCond rest cc _ _).trans (ok_low_parts (.jrCond cc) n))
  | ldIrl n => exact decodeWords_lowWord rest h (decodeFields_ldIrl rest n)
  | repr r => exact decodeWords_lowWord rest h (decodeFields_repr rest r)
  | djnz r o => exact decodeWords_lowWord rest h (decodeFields_djnz rest r o)
  | repi n => exact decodeWords_lowWord rest h (decodeFields_repi rest n)
  | push | pea | pop | rxf | sxf | cxf | ddm | edm | ret | reti => nomatch hcore

/-- Settles O1: the words round-trip whatever follows them, and the bytes are those of the words alone. -/
theorem coreRoundTrip : Obligations.CoreRoundTrip := by
  intro i rest h hcore
  refine ⟨decodeWords_encode h hcore rest, ?_⟩
  rw [encodeBytes, decode_bytesOfWords]
  simpa only [List.append_nil] using decodeWords_encode h hcore []

/-- Settles O3: each word, with its extension word, evaluated. -/
theorem exampleWordsDecode : Obligations.ExampleWordsDecode := by
  unfold Obligations.ExampleWordsDecode; decide

end Sys2Proof

namespace Sys2Proof

open Sys2Proof.Claims

/-! What the decoder answers (30_encoding.md R110): for each row of the opcode map the instruction it gives encodes to the very
first word it was read from, and only its operands can be not well formed. -/

/-! ### Fields of two and three bits, and the parts of a byte -/

theorem bits2_cases : ∀ f : BitVec 2, f = 0 ∨ f = 1 ∨ f = 2 ∨ f = 3 := by decide

theorem bits3_cases : ∀ r : BitVec 3, r = 0 ∨ r = 1 ∨ r = 2 ∨ r = 3 ∨ r = 4 ∨ r = 5 ∨ r = 6 ∨ r = 7 := by decide

/-- An 8-bit field is written as it was read. -/
theorem lowWord_append (c : BitVec 2) (b : BitVec 1) (r : RegNum) (f : BitVec 2) (m : BitVec 6) :
    lowWord c b r (f ++ m) = FirstWord.join ⟨3, c, b, r, f, m⟩ := by
  have hf : (f ++ m).extractLsb' 6 2 = f := BitVec.extractLsb'_append_eq_left
  have hm : (f ++ m).extractLsb' 0 6 = m := BitVec.extractLsb'_append_eq_right
  rw [lowWord, hf, hm]

theorem Size.toBits_of_ofBits : ∀ {zz : BitVec 2} {z : Size}, Size.ofBits zz = some z → zz = z.toBits := by
  intro zz z h
  obtain rfl | rfl | rfl | rfl := bits2_cases zz <;> cases h <;> rfl

theorem Size.ofBits_eq_none {zz : BitVec 2} (h : Size.ofBits zz = none) : zz = 3 := by
  obtain rfl | rfl | rfl | rfl := bits2_cases zz
  case inr.inr.inr => rfl
  all_goals nomatch h

theorem Cond.code_of_ofCode {k : BitVec 4} {cc : Cond} (h : Cond.ofCode k = some cc) : cc.code = k := by
  have hk : ∀ k : BitVec 4, ∀ cc ∈ Cond.ofCode k, cc.code = k := by decide
  exact hk k cc h

/-! ### Extension words -/

/-- An operand read from its field and the words after the first: the field is its own, and it takes as many words as it has. -/
def OperandRead (m : BitVec 6) (ws : List Word) : Option (Rm × List Word) → Prop
  | some (rm, ws') => rm.field = m ∧ ws.length = rm.ext + ws'.length
  | none => ws.length < 2

theorem OperandRead.takeWord {m : BitVec 6} {k : Word → Rm} (ws : List Word) (hf : ∀ w, (k w).field = m)
    (he : ∀ w, (k w).ext = 1) : OperandRead m ws ((takeWord ws).map fun p => (k p.1, p.2)) := by
  cases ws with
  | nil => exact Nat.zero_lt_two
  | cons w ws => exact ⟨hf w, by rw [he, List.length_cons, Nat.add_comm]⟩

theorem OperandRead.takeImm24 {m : BitVec 6} {k : Ptr → Rm} (ws : List Word) (hf : ∀ v, (k v).field = m)
    (he : ∀ v, (k v).ext = 2) : OperandRead m ws ((takeImm24 ws).map fun p => (k p.1, p.2)) := by
  match ws with
  | [] => exact Nat.zero_lt_two
  | [_] => exact Nat.one_lt_two
  | lo :: hi :: ws => exact ⟨hf _, by rw [he, List.length_cons, List.length_cons, Nat.add_comm 2]⟩

theorem Rm.ofRegIndexWord_field_ext (w : Word) : (Rm.ofRegIndexWord w).field = 0b111001 ∧ (Rm.ofRegIndexWord w).ext = 1 := by
  unfold Rm.ofRegIndexWord
  split
  · split <;> exact ⟨rfl, rfl⟩
  · exact ⟨rfl, rfl⟩

theorem Rm.ofAbsIndexWords_field_ext (ml w : Word) :
    (Rm.ofAbsIndexWords ml w).field = 0b111101 ∧ (Rm.ofAbsIndexWords ml w).ext = 2 := by
  unfold Rm.ofAbsIndexWords
  split <;> exact ⟨rfl, rfl⟩

theorem Rm.decode_reads (m : BitVec 6) (ws : List Word) : OperandRead m ws (Rm.decode m ws) := by
  have hreg : ∀ m : BitVec 6, BitVec.ofBool (m.getLsbD 5) ++ m.extractLsb' 2 3 ++ m.extractLsb' 0 2 = m := by decide
  have hshort : ∀ m : BitVec 6, m.extractLsb' 2 4 ++ m.extractLsb' 0 2 = m := by decide
  have hm := hreg m
  have hn := hshort m
  unfold Rm.decode
  generalize m.getLsbD 5 = high, m.extractLsb' 2 3 = r, m.extractLsb' 2 4 = n, m.extractLsb' 0 2 = k at hm hn
  obtain rfl | rfl | rfl | rfl := bits2_cases k
  · cases high <;> exact ⟨hm, (Nat.zero_add _).symm⟩
  · cases high with
    | false => exact .takeWord ws (fun _ => hm) fun _ => rfl
    | true =>
      subst hm
      obtain rfl | rfl | rfl | rfl | rfl | rfl | rfl | rfl := bits3_cases r
      · exact .takeWord ws (fun _ => rfl) fun _ => rfl
      · exact .takeImm24 ws (fun _ => rfl) fun _ => rfl
      · exact .takeWord ws (fun _ => rfl) fun _ => rfl
      · exact .takeImm24 ws (fun _ => rfl) fun _ => rfl
      · exact .takeWord ws (fun _ => rfl) fun _ => rfl
      · exact .takeImm24 ws (fun _ => rfl) fun _ => rfl
      · exact .takeWord ws (fun w => (Rm.ofRegIndexWord_field_ext w).1) fun w => (Rm.ofRegIndexWord_field_ext w).2
      · match ws with
        | [] => exact Nat.zero_lt_two
        | [_] => exact Nat.one_lt_two
        | ml :: w :: ws =>
          obtain ⟨hf, he⟩ := Rm.ofAbsIndexWords_field_ext ml w
          exact ⟨hf, by rw [he, List.length_cons, List.length_cons, Nat.add_comm 2]⟩
  · cases high <;> exact ⟨hm, (Nat.zero_add _).symm⟩
  · exact ⟨hn, (Nat.zero_add _).symm⟩

theorem Rm.ext_le_two (m : Rm) : m.ext ≤ 2 := by cases m <;> simp [Rm.ext]

/-- An immediate read fits its size, and takes as many words as the size has. -/
theorem takeImm_some {z : Size} {ws ws' : List Word} {imm : Ptr} (h : takeImm z ws = some (imm, ws')) :
    z.fits imm = true ∧ ws.length = z.immWords + ws'.length := by
  cases z with
  | b | w =>
    cases ws with
    | nil => nomatch h
    | cons w ws =>
      cases h
      refine ⟨?_, Nat.add_comm _ _⟩
      simp [Size.fits, Size.bits]
  | p =>
    match ws, h with
    | lo :: hi :: ws, h =>
      cases h
      refine ⟨?_, (Nat.add_comm 2 _).symm⟩
      simp [Size.fits, Size.bits]

theorem takeImm_none {z : Size} {ws : List Word} (h : takeImm z ws = none) : ws.length < 2 := by
  match ws with
  | [] => exact Nat.zero_lt_two
  | [_] => exact Nat.one_lt_two
  | lo :: hi :: ws => cases z <;> nomatch h

/-! ### The rows -/

/-- What is decoded from the first word `w` and the words after it. -/
structure DecodedFrom (w : FirstWord) (ws : List Word) (i : Instr) : Prop where
  core : i.isAssemblerRow = false
  checks : i.wellFormed = (operandsOf i).all Rm.wellFormed
  words : ∃ rest, encode i = w.join :: rest ∧ rest.length ≤ ws.length

/-- The two answers of a row. -/
inductive Answer (w : FirstWord) (ws : List Word) : Except DecodeError Instr → Prop
  | decoded {i : Instr} (h : DecodedFrom w ws i) : Answer w ws (.ok i)
  | truncated (h : ws.length < 4) : Answer w ws (.error .truncated)

/-- The answers of the opcode map: that of a row, unless the first word is one of the table of R115. -/
inductive Reading (w : FirstWord) (ws : List Word) : Except DecodeError Instr → Prop
  | row {o : Except DecodeError Instr} (hs : ¬ selectsNothing w.join) (h : Answer w ws o) : Reading w ws o
  | noRow (hs : selectsNothing w.join) (v : Word) : Reading w ws (.error (.nonexistent v))

/-- A row with one operand. -/
structure OperandRow (w : FirstWord) (k : Rm → Instr) : Prop where
  core : ∀ rm, (k rm).isAssemblerRow = false
  operands : ∀ rm, operandsOf (k rm) = [rm]
  checks : ∀ rm, (k rm).wellFormed = rm.wellFormed
  words : ∀ rm, encode (k rm) = FirstWord.join { w with m := rm.field } :: rm.words

/-- A row with an operand and an immediate. -/
structure ImmediateRow (w : FirstWord) (z : Size) (k : Rm → Ptr → Instr) : Prop where
  core : ∀ rm imm, (k rm imm).isAssemblerRow = false
  operands : ∀ rm imm, operandsOf (k rm imm) = [rm]
  checks : ∀ rm imm, (k rm imm).wellFormed = (rm.wellFormed && z.fits imm)
  words : ∀ rm imm, encode (k rm imm) = FirstWord.join { w with m := rm.field } :: (z.immWordList imm ++ rm.words)

/-- A row of two words with `hml`, of value `v`. -/
structure HmlRow (c : BitVec 2) (b : BitVec 1) (r : RegNum) (v : Ptr) (i : Instr) : Prop where
  core : i.isAssemblerRow = false
  checks : i.wellFormed = (operandsOf i).all Rm.wellFormed
  words : encode i = hmlWords c b r v

/-- Bit 0 of `ml` tells two rows apart (R114). -/
theorem HmlRow.of_parity {c : BitVec 2} {b : BitVec 1} {r : RegNum} {v : Ptr} {odd even : Instr}
    (ho : v.getLsbD 0 = true → HmlRow c b r v odd) (he : v.getLsbD 0 = false → HmlRow c b r v even) :
    HmlRow c b r v (if v.getLsbD 0 then odd else even) := by
  split
  · exact ho ‹_›
  · exact he ((Bool.not_eq_true _).mp ‹_›)

section
variable {w : FirstWord} {ws : List Word}

/-- An operand whose words come after the words `pre`, which have been read. -/
theorem Answer.decodeRm_after {k : Rm → Instr} {m : BitVec 6} {ws' : List Word} (pre : List Word)
    (hl : ws.length = pre.length + ws'.length) (hpre : pre.length ≤ 2) (hc : ∀ rm, (k rm).isAssemblerRow = false)
    (hw : ∀ rm, rm.field = m → (k rm).wellFormed = (operandsOf (k rm)).all Rm.wellFormed)
    (he : ∀ rm, rm.field = m → encode (k rm) = w.join :: (pre ++ rm.words)) : Answer w ws (decodeRm k m ws') := by
  have hr := Rm.decode_reads m ws'
  unfold decodeRm
  generalize Rm.decode m ws' = o at hr
  match o, hr with
  | none, (hr : ws'.length < 2) => exact .truncated (by omega)
  | some (rm, ws''), ⟨hf, hlen⟩ =>
    refine .decoded ⟨hc rm, hw rm hf, pre ++ rm.words, he rm hf, ?_⟩
    rw [List.length_append, Rm.length_words]
    omega

theorem Answer.decodeRm {k : Rm → Instr} (h : OperandRow w k) : Answer w ws (decodeRm k w.m ws) := by
  refine .decodeRm_after [] (Nat.zero_add _).symm (Nat.zero_le _) h.core (fun rm _ => ?_) fun rm hf => ?_
  · rw [h.operands, h.checks, List.all_cons, List.all_nil, Bool.and_true]
  · rw [h.words, hf, List.nil_append]

theorem Answer.decodeRmImm {z : Size} {k : Rm → Ptr → Instr} (h : ImmediateRow w z k) :
    Answer w ws (decodeRmImm k z w.m ws) := by
  unfold Sys2Proof.decodeRmImm
  split
  next imm ws' himm =>
    obtain ⟨hfits, hl⟩ := takeImm_some himm
    refine .decodeRm_after (z.immWordList imm) ?_ ?_ (h.core · imm) (fun rm _ => ?_) fun rm hf => ?_
    · rw [hl, Size.length_immWordList]
    · rw [Size.length_immWordList]
      cases z <;> decide
    · rw [h.operands, h.checks, hfits, List.all_cons, List.all_nil]
    · rw [h.words, hf]
  next himm => exact .truncated (Nat.lt_of_lt_of_le (takeImm_none himm) (by decide))

/-- A row of one word. -/
theorem Answer.ok {i : Instr} (hc : i.isAssemblerRow = false) (hw : i.wellFormed = (operandsOf i).all Rm.wellFormed)
    (he : encode i = [w.join]) : Answer w ws (.ok i) :=
  .decoded ⟨hc, hw, [], he, Nat.zero_le _⟩

end

/-- LD: the words of the source, then those of a destination that is no short form. -/
theorem Answer.decodeDstSrc {z : Size} {b : BitVec 1} {r : RegNum} {f : BitVec 2} {m : BitVec 6} {ws : List Word}
    (hf : f ≠ 3) : Answer ⟨z.toBits, 1, b, r, f, m⟩ ws (decodeDstSrc (.ldRmRm z) (b ++ r ++ f) m ws) := by
  have hparts : ∀ b r f, (b ++ r ++ f : BitVec 6).extractLsb' 5 1 = b ∧ (b ++ r ++ f : BitVec 6).extractLsb' 2 3 = r ∧
    (b ++ r ++ f : BitVec 6).extractLsb' 0 2 = f := by decide
  obtain ⟨h5, h2, h0⟩ := hparts b r f
  have hr := Rm.decode_reads m ws
  unfold Sys2Proof.decodeDstSrc
  generalize Rm.decode m ws = o at hr
  match o, hr with
  | none, (hr : ws.length < 2) => exact .truncated (by omega)
  | some (src, ws'), ⟨hsrc, hl⟩ =>
    refine .decodeRm_after src.words ?_ ?_ (fun _ => rfl) (fun dst hdst => ?_) fun dst hdst => ?_
    · rw [hl, Rm.length_words]
    · rw [Rm.length_words]
      exact src.ext_le_two
    · have hshort : dst.isShort = false := by
        rw [← Bool.not_eq_true, dst.isShort_iff_field, hdst]
        exact ne_of_eq_of_ne h0 hf
      simp [Instr.wellFormed, operandsOf, hshort]
    · rw [encode, ldWords, hdst, hsrc, h5, h2, h0]

/-- A row with an 8-bit field. -/
theorem Answer.ok_low {c : BitVec 2} {b : BitVec 1} {r : RegNum} {f : BitVec 2} {m : BitVec 6} {ws : List Word}
    {k : Byte → Instr} (hc : ∀ n, (k n).isAssemblerRow = false)
    (hw : ∀ n, (k n).wellFormed = (operandsOf (k n)).all Rm.wellFormed) (he : ∀ n, encode (k n) = [lowWord c b r n]) :
    Answer ⟨3, c, b, r, f, m⟩ ws (.ok (k (f ++ m))) :=
  .ok (hc _) (hw _) (by rw [he, lowWord_append])

theorem Answer.decodeHml {c : BitVec 2} {b : BitVec 1} {r : RegNum} {f : BitVec 2} {m : BitVec 6} {ws : List Word}
    {k : Ptr → Instr} (h : ∀ v, HmlRow c b r v (k v)) : Answer ⟨3, c, b, r, f, m⟩ ws (decodeHml k (f ++ m) ws) := by
  cases ws with
  | nil => exact .truncated (by decide)
  | cons ml ws =>
    have hf : (f ++ m ++ ml : BitVec 24).extractLsb' 16 8 = f ++ m := BitVec.extractLsb'_append_eq_left
    refine .decoded ⟨(h _).core, (h _).checks, [ml], ?_, Nat.le_add_left _ _⟩
    rw [(h _).words, hmlWords, hf, lowWord_append]
    congr 2
    exact BitVec.extractLsb'_append_eq_right

/-! ### The first words without a row, by their fields (R115) -/

/-- Rows 1 to 7 of the opcode map, of which the first three have one word each. -/
def LowRow (z : Size) (r : RegNum) (m : BitVec 6) : Prop :=
  z = .b ∧ r = 0 ∧ m.toNat < 3 ∨ z ≠ .p ∧ (r = 1 ∨ r = 5)

section
variable (z : Size) (c : BitVec 2) (b : BitVec 1) (r : RegNum) (f : BitVec 2) (m : BitVec 6)

theorem selectsNothing_sized :
    selectsNothing (FirstWord.join ⟨z.toBits, c, b, r, f, m⟩) ↔ c = 0 ∧ b = 0 ∧ f = 0 ∧ ¬ LowRow z r m := by
  have := c.isLt; have := b.isLt; have := r.isLt; have := f.isLt; have := m.isLt
  simp only [selectsNothing, FirstWord.join_toNat, LowRow, BitVec.toNat_eq, List.mem_cons, List.not_mem_nil, or_false]
  cases z
  all_goals
    simp only [Size.toBits, BitVec.ofNat_eq_ofNat, BitVec.toNat_ofNat, ne_eq, reduceCtorEq, true_and, and_true, false_and, or_self,
      false_or, not_true_eq_false, not_false_eq_true]
    omega

/-- Every word of the groups 12 and 14 has a row. -/
theorem selectsNothing_group12_14 (hc : c = 0 ∨ c = 2) : ¬ selectsNothing (FirstWord.join ⟨3, c, b, r, f, m⟩) := by
  have := b.isLt; have := r.isLt; have := f.isLt; have := m.isLt
  simp only [BitVec.toNat_eq, BitVec.ofNat_eq_ofNat, BitVec.toNat_ofNat] at hc
  simp only [selectsNothing, FirstWord.join_toNat, List.mem_cons, List.not_mem_nil, or_false, BitVec.ofNat_eq_ofNat,
    BitVec.toNat_ofNat]
  omega

theorem selectsNothing_group13 : selectsNothing (FirstWord.join ⟨3, 1, b, r, f, m⟩) ↔
    b = 1 ∧ (r = 1 ∨ r = 2 ∨ r = 3 ∧ ¬ (f = 0 ∧ m.extractLsb' 3 3 = 0)) := by
  have := b.isLt; have := r.isLt; have := f.isLt; have := m.isLt
  simp only [selectsNothing, FirstWord.join_toNat, List.mem_cons, List.not_mem_nil, or_false, BitVec.toNat_eq,
    BitVec.ofNat_eq_ofNat, BitVec.toNat_ofNat, BitVec.extractLsb'_toNat, Nat.shiftRight_eq_div_pow]
  omega

theorem selectsNothing_group15 : selectsNothing (FirstWord.join ⟨3, 3, b, r, f, m⟩) ↔
    b = 0 ∧ ¬ f.getLsbD 1 = true ∧ (f ++ m : Byte) ≠ 0 ∨
    b = 1 ∧ ((r = 2 ∨ r = 3) ∧ f.getLsbD 1 = true ∨ r = 4 ∨ r = 5 ∨ r = 6 ∧ ¬ (f = 0 ∧ m.getLsbD 5 = false)) := by
  have hf1 : ∀ f : BitVec 2, f.getLsbD 1 = true ↔ 2 ≤ f.toNat := by decide
  have hm5 : ∀ m : BitVec 6, m.getLsbD 5 = false ↔ m.toNat < 32 := by decide
  have hlow : BitVec.toNat (w := 8) (f ++ m) = _ := append_toNat f m
  have := b.isLt; have := r.isLt; have := f.isLt; have := m.isLt
  simp only [selectsNothing, FirstWord.join_toNat, List.mem_cons, List.not_mem_nil, or_false, hf1, hm5, BitVec.toNat_eq,
    ne_eq, hlow, BitVec.ofNat_eq_ofNat, BitVec.toNat_ofNat]
  omega

end

/-! ### The opcode map, group by group -/

section
variable (z : Size) (b : BitVec 1) (r : RegNum) (f : BitVec 2) (m : BitVec 6) (ws : List Word)

/-- NOP, HALT and ILG, and the words beside them. -/
theorem reading_fixed : Reading ⟨0, 0, 0, 0, 0, m⟩ ws (decodeLow .b ⟨0, 0, 0, 0, 0, m⟩ ws) := by
  have hs := selectsNothing_sized .b 0 0 0 0 m
  have hm (n : Nat) (h : m.toNat = n) : m = BitVec.ofNat 6 n := by rw [← h, BitVec.ofNat_toNat, BitVec.setWidth_eq]
  simp only [decodeLow, BitVec.ofNat_eq_ofNat, BitVec.toNat_ofNat, Nat.zero_mod]
  split
  next h => exact .row (hs.not.mpr (by simp [LowRow, h])) (.ok rfl rfl (hm 0 h ▸ rfl))
  next h => exact .row (hs.not.mpr (by simp [LowRow, h])) (.ok rfl rfl (hm 1 h ▸ rfl))
  next h => exact .row (hs.not.mpr (by simp [LowRow, h])) (.ok rfl rfl (hm 2 h ▸ rfl))
  next h0 h1 h2 =>
    refine .noRow (hs.mpr ⟨rfl, rfl, rfl, fun h => ?_⟩) _
    obtain ⟨-, -, h⟩ | ⟨-, h | h⟩ := h
    · have hne : m.toNat ≠ 0 ∧ m.toNat ≠ 1 ∧ m.toNat ≠ 2 := ⟨h0, h1, h2⟩
      omega
    · exact absurd h (by decide)
    · exact absurd h (by decide)

theorem reading_low : Reading ⟨z.toBits, 0, 0, r, 0, m⟩ ws (decodeLow z ⟨z.toBits, 0, 0, r, 0, m⟩ ws) := by
  have hs := selectsNothing_sized z 0 0 r 0 m
  obtain rfl | rfl | rfl | rfl | rfl | rfl | rfl | rfl := bits3_cases r
  all_goals cases z
  case inl.b => exact reading_fixed m ws
  case inr.inl.b | inr.inl.w | inr.inr.inr.inr.inr.inl.b | inr.inr.inr.inr.inr.inl.w =>
    exact .row (hs.not.mpr (by simp [LowRow])) (.decodeRm ⟨fun _ => rfl, fun _ => rfl, fun _ => rfl, fun _ => rfl⟩)
  all_goals exact .noRow (hs.mpr (by simp [LowRow])) _

theorem answer_shift : Answer ⟨z.toBits, 0, 0, r, 2, m⟩ ws (decodeShift z ⟨z.toBits, 0, 0, r, 2, m⟩ ws) := by
  obtain rfl | rfl | rfl | rfl | rfl | rfl | rfl | rfl := bits3_cases r
  case inr.inr.inr.inr.inr.inr.inl => cases z <;> exact .decodeRm ⟨fun _ => rfl, fun _ => rfl, fun _ => rfl, fun _ => rfl⟩
  all_goals exact .decodeRm ⟨fun _ => rfl, fun _ => rfl, fun _ => rfl, fun _ => rfl⟩

/-- With bit 11 set and register number 0 there are TST, CPL, NEG and NGX, with any other the multiplies and divides (R112). -/
theorem answer_group0_high : Answer ⟨z.toBits, 0, 1, r, f, m⟩ ws (decodeGroup0 z ⟨z.toBits, 0, 1, r, f, m⟩ ws) := by
  show Answer _ ws (if r = 0 then _ else _)
  split
  next hr =>
    subst hr
    obtain rfl | rfl | rfl | rfl := bits2_cases f
    all_goals exact .decodeRm ⟨fun _ => rfl, fun _ => rfl, fun _ => rfl, fun _ => rfl⟩
  next hr =>
    have hchecks (rm : Rm) : (r != 0 && rm.wellFormed) = rm.wellFormed := by rw [bne_iff_ne.mpr hr, Bool.true_and]
    obtain rfl | rfl | rfl | rfl := bits2_cases f
    all_goals exact .decodeRm ⟨fun _ => rfl, fun _ => rfl, hchecks, fun _ => rfl⟩

theorem reading_group0 : Reading ⟨z.toBits, 0, b, r, f, m⟩ ws (decodeGroup0 z ⟨z.toBits, 0, b, r, f, m⟩ ws) := by
  have hs := selectsNothing_sized z 0 b r f m
  obtain rfl | rfl := b.eq_zero_or_eq_one
  · obtain rfl | rfl | rfl | rfl := bits2_cases f
    · exact reading_low z r m ws
    · exact .row (hs.not.mpr (by simp)) (.decodeRm ⟨fun _ => rfl, fun _ => rfl, fun _ => rfl, fun _ => rfl⟩)
    · exact .row (hs.not.mpr (by simp)) (answer_shift z r m ws)
    · exact .row (hs.not.mpr (by simp)) (.decodeRm ⟨fun _ => rfl, fun _ => rfl, fun _ => rfl, fun _ => rfl⟩)
  · exact .row (hs.not.mpr (by simp)) (answer_group0_high z r f m ws)

theorem answer_group1 : Answer ⟨z.toBits, 1, b, r, f, m⟩ ws (decodeGroup1 z ⟨z.toBits, 1, b, r, f, m⟩ ws) := by
  unfold decodeGroup1
  split
  next hf =>
    obtain rfl : f = 3 := hf
    obtain rfl | rfl := b.eq_zero_or_eq_one
    all_goals cases z <;> exact .decodeRm ⟨fun _ => rfl, fun _ => rfl, fun _ => rfl, fun _ => rfl⟩
  next hf => exact .decodeDstSrc hf

theorem answer_group2 : Answer ⟨z.toBits, 2, b, r, f, m⟩ ws (decodeGroup2 z ⟨z.toBits, 2, b, r, f, m⟩ ws) := by
  obtain rfl | rfl := b.eq_zero_or_eq_one
  all_goals obtain rfl | rfl | rfl | rfl := bits2_cases f
  all_goals exact .decodeRm ⟨fun _ => rfl, fun _ => rfl, fun _ => rfl, fun _ => rfl⟩

theorem answer_immForms : Answer ⟨z.toBits, 3, 1, r, 3, m⟩ ws (decodeImmForms z ⟨z.toBits, 3, 1, r, 3, m⟩ ws) := by
  obtain rfl | rfl | rfl | rfl | rfl | rfl | rfl | rfl := bits3_cases r
  all_goals exact .decodeRmImm ⟨fun _ _ => rfl, fun _ _ => rfl, fun _ _ => rfl, fun _ _ => rfl⟩

theorem answer_group3 : Answer ⟨z.toBits, 3, b, r, f, m⟩ ws (decodeGroup3 z ⟨z.toBits, 3, b, r, f, m⟩ ws) := by
  obtain rfl | rfl := b.eq_zero_or_eq_one
  all_goals obtain rfl | rfl | rfl | rfl := bits2_cases f
  case inr.inr.inr.inr => exact answer_immForms z r m ws
  all_goals exact .decodeRm ⟨fun _ => rfl, fun _ => rfl, fun _ => rfl, fun _ => rfl⟩

theorem reading_sized (c : BitVec 2) :
    Reading ⟨z.toBits, c, b, r, f, m⟩ ws (decodeSized z ⟨z.toBits, c, b, r, f, m⟩ ws) := by
  have hs := selectsNothing_sized z c b r f m
  obtain rfl | rfl | rfl | rfl := bits2_cases c
  · exact reading_group0 z b r f m ws
  · exact .row (hs.not.mpr (by simp)) (answer_group1 z b r f m ws)
  · exact .row (hs.not.mpr (by simp)) (answer_group2 z b r f m ws)
  · exact .row (hs.not.mpr (by simp)) (answer_group3 z b r f m ws)

theorem answer_group12 : Answer ⟨3, 0, b, r, f, m⟩ ws (decodeGroup12 ⟨3, 0, b, r, f, m⟩ ws) := by
  obtain rfl | rfl := b.eq_zero_or_eq_one
  · exact .decodeHml fun _ => ⟨rfl, rfl, rfl⟩
  · exact .ok_low (fun _ => rfl) (fun _ => rfl) fun _ => rfl

/-- LD IRL fixes five bits of the 8-bit field. -/
theorem reading_ldIrl : Reading ⟨3, 1, 1, 3, f, m⟩ ws (decodeGroup13 ⟨3, 1, 1, 3, f, m⟩ ws) := by
  have hlow : ∀ m : BitVec 6, m.extractLsb' 3 3 = 0 → (0#5 ++ m.extractLsb' 0 3 : Byte) = 0#2 ++ m := by decide
  have hs := selectsNothing_group13 1 3 f m
  show Reading _ ws (if f = 0 ∧ m.extractLsb' 3 3 = 0 then _ else _)
  split
  next h =>
    refine .row (hs.not.mpr (by simp [h])) ?_
    obtain ⟨rfl, hm⟩ := h
    exact .ok rfl rfl (by rw [encode, hlow m hm, lowWord_append]; rfl)
  next h => exact .noRow (hs.mpr ⟨rfl, .inr (.inr ⟨rfl, h⟩)⟩) _

theorem reading_group13 : Reading ⟨3, 1, b, r, f, m⟩ ws (decodeGroup13 ⟨3, 1, b, r, f, m⟩ ws) := by
  have hs := selectsNothing_group13 b r f m
  obtain rfl | rfl := b.eq_zero_or_eq_one
  · refine .row (hs.not.mpr (by simp)) ?_
    obtain rfl | rfl | rfl | rfl := bits2_cases f
    all_goals exact .decodeRm ⟨fun _ => rfl, fun _ => rfl, fun _ => rfl, fun _ => rfl⟩
  · obtain rfl | rfl | rfl | rfl | rfl | rfl | rfl | rfl := bits3_cases r
    · refine .row (hs.not.mpr (by simp)) ?_
      obtain rfl | rfl | rfl | rfl := bits2_cases f
      all_goals exact .decodeRm ⟨fun _ => rfl, fun _ => rfl, fun _ => rfl, fun _ => rfl⟩
    · exact .noRow (hs.mpr (by simp)) _
    · exact .noRow (hs.mpr (by simp)) _
    · exact reading_ldIrl f m ws
    all_goals exact .row (hs.not.mpr (by simp)) (.ok_low (fun _ => rfl) (fun _ => rfl) fun _ => rfl)

/-- Every code of four bits is a condition or one of the relative jumps (R114). -/
theorem answer_group14 : Answer ⟨3, 2, b, r, f, m⟩ ws (decodeGroup14 ⟨3, 2, b, r, f, m⟩) := by
  have hcode : ∀ (b : BitVec 1) (r : RegNum), Cond.ofCode (b ++ r) = none → b = 1 ∧ (r = 6 ∨ r = 7) := by decide
  have hb : (b ++ r).extractLsb' 3 1 = b := BitVec.extractLsb'_append_eq_left
  have hr : (b ++ r).extractLsb' 0 3 = r := BitVec.extractLsb'_append_eq_right
  cases hcc : Cond.ofCode (b ++ r) with
  | some cc =>
    rw [decodeGroup14, hcc]
    refine .ok_low (k := .jrCond cc) (fun _ => rfl) (fun _ => rfl) fun n => ?_
    rw [encode, Cond.code_of_ofCode hcc, hb, hr]
  | none =>
    rw [← decodeFields_group14 b r f m ws]
    obtain ⟨rfl, rfl | rfl⟩ := hcode b r hcc
    · exact decodeFields_jrS ws f m ▸ .ok_low (k := .jrS) (fun _ => rfl) (fun _ => rfl) fun _ => rfl
    · exact decodeFields_crS ws f m ▸ .ok_low (k := .crS) (fun _ => rfl) (fun _ => rfl) fun _ => rfl

/-- DJNZ, and REPR where the 8-bit field is 0. -/
theorem reading_group15_low : Reading ⟨3, 3, 0, r, f, m⟩ ws (decodeGroup15 ⟨3, 3, 0, r, f, m⟩ ws) := by
  have hlow : ∀ f : BitVec 2, f.getLsbD 1 = true → ∀ m : BitVec 6, (1#1 ++ (f.extractLsb' 0 1 ++ m) : Byte) = f ++ m := by
    decide
  have hs := selectsNothing_group15 0 r f m
  rw [decodeGroup15, if_pos rfl]
  split
  next hf =>
    replace hf : f.getLsbD 1 = true := hf
    exact .row (hs.not.mpr (by simp [hf])) (.ok rfl rfl (by rw [encode, hlow f hf, lowWord_append]))
  next hf =>
    split
    next h =>
      replace h : (f ++ m : Byte) = 0 := h
      exact .row (hs.not.mpr (by simp [h])) (.ok rfl rfl (by rw [encode, ← lowWord_append, h]))
    next h => exact .noRow (hs.mpr (.inl ⟨rfl, hf, h⟩)) _

/-- REPI fixes three bits of the 8-bit field. -/
theorem reading_repi : Reading ⟨3, 3, 1, 6, f, m⟩ ws (decodeGroup15 ⟨3, 3, 1, 6, f, m⟩ ws) := by
  have hlow : ∀ m : BitVec 6, m.getLsbD 5 = false → (0#3 ++ m.extractLsb' 0 5 : Byte) = 0#2 ++ m := by decide
  have hs := selectsNothing_group15 1 6 f m
  show Reading _ ws (if f = 0 ∧ m.getLsbD 5 = false then _ else _)
  split
  next h =>
    refine .row (hs.not.mpr (by simp only [h]; simp)) ?_
    obtain ⟨rfl, hm⟩ := h
    exact .ok rfl rfl (by rw [encode, hlow m hm, lowWord_append]; rfl)
  next h => exact .noRow (hs.mpr (.inr ⟨rfl, .inr (.inr (.inr ⟨rfl, h⟩))⟩)) _

theorem reading_group15 : Reading ⟨3, 3, b, r, f, m⟩ ws (decodeGroup15 ⟨3, 3, b, r, f, m⟩ ws) := by
  have hs := selectsNothing_group15 b r f m
  obtain rfl | rfl := b.eq_zero_or_eq_one
  · exact reading_group15_low r f m ws
  · obtain rfl | rfl | rfl | rfl | rfl | rfl | rfl | rfl := bits3_cases r
    · exact .row (hs.not.mpr (by simp)) (.decodeHml (k := fun v => if v.getLsbD 0 then .jrL v else .jpHml v)
        fun v => .of_parity (fun hv => ⟨rfl, hv, rfl⟩) fun hv => ⟨rfl, congrArg not hv, rfl⟩)
    · exact .row (hs.not.mpr (by simp)) (.decodeHml (k := fun v => if v.getLsbD 0 then .crL v else .callHml v)
        fun v => .of_parity (fun hv => ⟨rfl, hv, rfl⟩) fun hv => ⟨rfl, congrArg not hv, rfl⟩)
    · obtain rfl | rfl | rfl | rfl := bits2_cases f
      · exact .row (hs.not.mpr (by simp)) (.decodeRm ⟨fun _ => rfl, fun _ => rfl, fun _ => rfl, fun _ => rfl⟩)
      · exact .row (hs.not.mpr (by simp)) (.decodeRm ⟨fun _ => rfl, fun _ => rfl, fun _ => rfl, fun _ => rfl⟩)
      all_goals exact .noRow (hs.mpr (by simp)) _
    · obtain rfl | rfl | rfl | rfl := bits2_cases f
      · exact .row (hs.not.mpr (by simp)) (.decodeRm ⟨fun _ => rfl, fun _ => rfl, fun _ => rfl, fun _ => rfl⟩)
      · exact .row (hs.not.mpr (by simp)) (.decodeRm ⟨fun _ => rfl, fun _ => rfl, fun _ => rfl, fun _ => rfl⟩)
      all_goals exact .noRow (hs.mpr (by simp)) _
    · exact .noRow (hs.mpr (by simp)) _
    · exact .noRow (hs.mpr (by simp)) _
    · exact reading_repi f m ws
    · exact .row (hs.not.mpr (by simp)) (.ok_low (fun _ => rfl) (fun _ => rfl) fun _ => rfl)

end

/-- The opcode map, whole. -/
theorem reading_fields (w : FirstWord) (ws : List Word) : Reading w ws (decodeFields w ws) := by
  obtain ⟨zz, c, b, r, f, m⟩ := w
  cases hz : Size.ofBits zz with
  | some z =>
    obtain rfl := Size.toBits_of_ofBits hz
    rw [decodeFields_sized]
    exact reading_sized z b r f m ws c
  | none =>
    obtain rfl := Size.ofBits_eq_none hz
    have hs := selectsNothing_group12_14 c b r f m
    obtain rfl | rfl | rfl | rfl := bits2_cases c
    · exact .row (hs (.inl rfl)) (answer_group12 b r f m ws)
    · exact reading_group13 b r f m ws
    · exact .row (hs (.inr rfl)) (answer_group14 b r f m ws)
    · exact reading_group15 b r f m ws

/-! ### The decoder -/

/-- Everything the decoder can answer to a first word `w` and the words after it. -/
inductive Decoding (w : Word) (ws : List Word) : Except DecodeError Instr → Prop
  | wellFormed {i : Instr} (hs : ¬ selectsNothing w) (h : DecodedFrom (FirstWord.split w) ws i)
    (hi : i.wellFormed = true) : Decoding w ws (.ok i)
  | malformed {i : Instr} (hs : ¬ selectsNothing w) (h : DecodedFrom (FirstWord.split w) ws i)
    (hi : i.wellFormed = false) : Decoding w ws (.error (.malformed i))
  | truncated (hs : ¬ selectsNothing w) (h : ws.length < 4) : Decoding w ws (.error .truncated)
  | nonexistent (hs : selectsNothing w) (v : Word) : Decoding w ws (.error (.nonexistent v))

theorem decodeWords_decoding (w : Word) (ws : List Word) : Decoding w ws (decodeWords (w :: ws)) := by
  have hr := reading_fields (FirstWord.split w) ws
  have hw := FirstWord.join_split w
  simp only [decodeWords]
  generalize decodeFields (FirstWord.split w) ws = o at hr
  cases hr with
  | noRow hs v => exact .nonexistent (hw ▸ hs) v
  | row hs ha =>
    rw [hw] at hs
    cases ha with
    | truncated h => exact .truncated hs h
    | @decoded i h =>
      show Decoding w ws (if i.wellFormed then .ok i else .error (.malformed i))
      split
      next hi => exact .wellFormed hs h hi
      next hi => exact .malformed hs h ((Bool.not_eq_true _).mp hi)

/-- No instruction has more than five words (R92). -/
theorem Instr.len_le_five (i : Instr) : i.len ≤ 5 := by
  have hm := Rm.ext_le_two
  have one (m : Rm) : 1 + m.ext ≤ 5 := Nat.add_le_add (by decide : 1 ≤ 3) (hm m)
  have hz : ∀ z : Size, z.immWords ≤ 2 := fun z => by cases z <;> decide
  cases i with
  | nop | halt | ilg | ldPHml | ldq | ldIrl | andF | xorF | orF | ldFImm | jrCond | jrS | crS | repr | djnz | jpHml | jrL
  | callHml | crL | repi | rst | rxf | sxf | cxf | ddm | edm | ret | reti => exact Nat.le_of_ble_eq_true rfl
  | ldRmRm z d m => exact Nat.add_le_add (Nat.add_le_add_left (hm m) 1) (hm d)
  | addRmImm z m _ | adxRmImm z m _ | subRmImm z m _ | sbxRmImm z m _ | andRmImm z m _ | xorRmImm z m _ | orRmImm z m _
  | cpRmImm z m _ => exact Nat.add_le_add (Nat.add_le_add_left (hz z) 1) (hm m)
  | _ => exact one _

/-- Settles O4. -/
theorem nonexistentFirstWords : Obligations.NonexistentFirstWords := by
  intro w ws
  have hd := decodeWords_decoding w ws
  constructor
  · rintro ⟨v, hv⟩
    rw [hv] at hd
    cases hd with
    | nonexistent hs => exact hs
  · intro hs
    generalize decodeWords (w :: ws) = o at hd
    cases hd with
    | nonexistent _ v => exact ⟨v, rfl⟩
    | wellFormed hn | malformed hn | truncated hn => exact absurd hs hn

/-- Settles O5: what is not well formed has a malformed operand, for the operands are all the decoder does not check itself. -/
theorem decodedIsWellFormed : Obligations.DecodedIsWellFormed := by
  refine ⟨fun ws i h => ?_, fun ws i h => ?_, fun a b c d e h => ?_⟩
  · cases ws with
    | nil => nomatch h
    | cons w ws =>
      cases h ▸ decodeWords_decoding w ws with
      | wellFormed _ hd hi => exact ⟨hi, hd.core, i.len_le_five⟩
  · cases ws with
    | nil => nomatch h
    | cons w ws =>
      cases h ▸ decodeWords_decoding w ws with
      | malformed _ hd hi =>
        obtain ⟨m, hm, hwf⟩ := List.all_eq_false.mp (hd.checks.symm.trans hi)
        exact ⟨m, hm, (Bool.not_eq_true _).mp hwf⟩
  · cases h ▸ decodeWords_decoding a [b, c, d, e] with
    | truncated _ hl => exact absurd hl (Nat.lt_irrefl 4)

/-- Settles O6. -/
theorem firstWordRecovered : Obligations.FirstWordRecovered := by
  intro w ws i h
  cases h ▸ decodeWords_decoding w ws with
  | wellFormed _ hd =>
    obtain ⟨rest, he, hl⟩ := hd.words
    exact ⟨rest, FirstWord.join_split w ▸ he, hl⟩

end Sys2Proof

namespace Sys2Proof.Machine

open Sys2Proof.Claims

/-! Malformed index words (30_encoding.md R116): the trap at each place where an instruction can meet one. -/

section
variable {m : Rm} (hm : m.wellFormed = false)
include hm

/-- An operand that is malformed raises IllegalInstruction with all words fetched, whatever would have been done with it. -/
theorem withOperand_malformed (z : Size) (k : Nat) (s : State) (body : Loc z → State → State) :
    withOperand z k m s body = (s.advance k).raise .illegalInstruction s.pgc (s.advance k).pgc := by
  simp only [withOperand, resolve_malformed hm]

/-- A copy whose source is malformed fetches no word of the destination. -/
theorem copyOperand_malformed_source (z : Size) (d : Rm) (s : State) :
    copyOperand z d m s = (s.advance (1 + m.ext)).raise .illegalInstruction s.pgc (s.advance (1 + m.ext)).pgc := by
  obtain ⟨-, h⟩ | ⟨hwf, -⟩ := copyOperand_cases z d m s
  · exact h
  · exact absurd (hm.symm.trans hwf) Bool.false_ne_true

end

/-- The read of the source leaves REPR as it was. -/
@[simp] theorem copyFetched_reprA (z : Size) (d m : Rm) (s : State) : (copyFetched z d m s).reprA = s.reprA := by
  simp [copyFetched, copyRead, resolved]

/-- A copy whose destination is malformed has made its read. -/
theorem copyOperand_malformed_destination {d m : Rm} (hm : m.wellFormed = true) (hd : d.wellFormed = false) (z : Size)
    (s : State) :
    copyOperand z d m s = (copyFetched z d m s).trap .illegalInstruction
      (if s.reprA then s.pgc - 2 else (copyFetched z d m s).pgc) := by
  obtain ⟨hwf, -⟩ | ⟨-, ⟨-, h⟩ | ⟨hwf, -⟩⟩ := copyOperand_cases z d m s
  · exact absurd (hwf.symm.trans hm) Bool.false_ne_true
  · rw [← copyFetched_reprA z d m s]
    exact h
  · exact absurd (hd.symm.trans hwf) Bool.false_ne_true

/-- An instruction whose one operand is malformed raises IllegalInstruction with all its words fetched; POP alone reads before
it meets its operand. -/
theorem exec_malformed {i : Instr} {m : Rm} (s : State) (hi : operandsOf i = [m]) (hm : m.wellFormed = false)
    (hpop : ∀ z d, i ≠ .pop z d) :
    exec i s = .next ((s.advance i.len).raise .illegalInstruction s.pgc (s.advance i.len).pgc) := by
  cases i with
  | nop | halt | ilg | ldPHml | ldq | ldIrl | andF | xorF | orF | ldFImm | jrCond | jrS | crS | repr | djnz | jpHml | jrL
  | callHml | crL | repi | rst | rxf | sxf | cxf | ddm | edm | ret | reti | ldRmRm => nomatch hi
  | pop z d => exact absurd rfl (hpop z d)
  | push z m =>
    cases hi
    exact congrArg Host.Outcome.next (copyOperand_malformed_source hm z (.preDec 7) s)
  | _ =>
    cases hi
    exact congrArg Host.Outcome.next (withOperand_malformed hm _ _ s _)

/-- Settles O15: one operand, and the two places of a copy; POP is a copy from the stack. -/
theorem malformedOperandTraps : Obligations.MalformedOperandTraps := by
  refine ⟨fun i m s => exec_malformed s, fun z d m s hm => ?_, fun z d m s hm hd => ?_, fun z d s hd => ?_⟩
  · exact congrArg Host.Outcome.next (copyOperand_malformed_source hm z d s)
  · exact congrArg Host.Outcome.next (copyOperand_malformed_destination hm hd z s)
  · exact congrArg Host.Outcome.next (copyOperand_malformed_destination (m := .postInc 7) rfl hd z s)

end Sys2Proof.Machine

namespace Sys2Proof.Machine

open Sys2Proof.Claims

/-! Operand locations (40_operands.md R142 to R153): the model's extensions and cuts, as the numbers they keep. -/

/-- A sign extension that is cut again is the number that was extended. -/
theorem setWidth_signExtend {w v n : Nat} (hw : w ≤ v) (hn : n ≤ v) (x : BitVec w) :
    (x.signExtend v).setWidth n = BitVec.ofInt n x.toInt := by
  calc (x.signExtend v).setWidth n
    _ = (x.signExtend v).signExtend n := (BitVec.signExtend_eq_setWidth_of_le _ hn).symm
    _ = BitVec.ofInt n x.toInt := congrArg (BitVec.ofInt n) (BitVec.toInt_signExtend_of_le hw)

theorem bits_le_ptr : ∀ z : Size, z.bits ≤ 24
  | .b | .w | .p => by decide

/-- The immediates at the operand's width (R159). -/
theorem adapt_short (z : Size) (n : BitVec 4) : adapt z (n.setWidth 24) = BitVec.ofNat z.bits n.toNat := by
  rw [BitVec.ofNat_toNat, adapt, BitVec.setWidth_setWidth_of_le _ (bits_le_ptr z)]

theorem adapt_imm16 (z : Size) (d : Word) : adapt z (d.signExtend 24) = BitVec.ofInt z.bits d.toInt :=
  setWidth_signExtend (by decide) (bits_le_ptr z) d

theorem adapt_imm24 (z : Size) (v : Ptr) : adapt z v = BitVec.ofNat z.bits v.toNat := (BitVec.ofNat_toNat _ v).symm

/-- An index register read as an unsigned number (R152); read as a signed one it is so by definition. -/
theorem State.index_byte_unsigned (s : State) (r : RegNum) :
    s.index (.byte false r) = BitVec.ofNat 24 (s.getR .b r).toNat := (BitVec.ofNat_toNat 24 (s.getR .b r)).symm

theorem State.index_word_unsigned (s : State) (r : RegNum) :
    s.index (.word false r) = BitVec.ofNat 24 (s.getR .w r).toNat := (BitVec.ofNat_toNat 24 (s.getR .w r)).symm

/-- At an even PGC the fixed zero has no effect on a fetch (10_state.md R31, R32). -/
theorem State.advance_pgc_of_even {s : State} (h : s.pgc.getLsbD 0 = false) (k : Nat) :
    (s.advance k).pgc = s.pgc + BitVec.ofNat 24 (2 * k) := evenAddr_add_of_even h k

/-! ### Auto-modify (R150) -/

section
variable (z : Size) (s : State) (r : RegNum)

@[simp] theorem getP_autoModify_postInc : (autoModify z (.postInc r) s).getP r = s.getP r + stepOf z r :=
  State.getP_setP_self s r _

@[simp] theorem getP_autoModify_preDec : (autoModify z (.preDec r) s).getP r = s.getP r - stepOf z r :=
  State.getP_setP_self s r _

end

theorem getP_autoModify_of_not_mem {z : Size} {m : Rm} {s : State} {j : RegNum} (h : j ∉ autoBase m) :
    (autoModify z m s).getP j = s.getP j :=
  getP_autoModify_of_ne z m s (by rintro rfl; simp [autoBase] at h) (by rintro rfl; simp [autoBase] at h)

/-- Settles O13: each mode by its case of `locate`, the immediates and indexes by the numbers they hold. -/
theorem operandLocations : Obligations.OperandLocations := by
  intro z s
  refine ⟨fun _ => rfl, fun _ _ => rfl, fun _ => rfl, fun _ => rfl, fun r => ?preDec, fun n => ?short, fun d => ?imm16,
    fun v => ?imm24, fun _ => rfl, fun _ => rfl, fun _ => rfl, fun _ => rfl, fun b r => ?regIdx, fun h r => ?absIdx,
    fun k he => State.advance_pgc_of_even he k⟩
  case preDec => rw [getP_autoModify_preDec, locate]
  case short => rw [locate, adapt_short]
  case imm16 => rw [locate, adapt_imm16]
  case imm24 => rw [locate, adapt_imm24]
  case regIdx =>
    refine ⟨?_, rfl, ?_, rfl, rfl⟩
    · rw [locate, State.index_byte_unsigned]
    · rw [locate, State.index_word_unsigned]
  case absIdx =>
    refine ⟨?_, rfl, ?_, rfl, rfl⟩
    · rw [locate, State.index_byte_unsigned]
    · rw [locate, State.index_word_unsigned]

end Sys2Proof.Machine

namespace Sys2Proof.Machine

open Sys2Proof.Claims

/-! The registers once an operand is resolved (40_operands.md R150, R160): `KeepsRegs` compares the end of an instruction with
the state after the auto-modify of its operand, and `exec_keepsRegs` says that only the instruction's destination differs. -/

/-- `t` has in every P register but those in `rs` what `s` has there. -/
def KeepsRegs (rs : List RegNum) (s t : State) : Prop := ∀ j, j ∉ rs → t.getP j = s.getP j

section
variable {rs : List RegNum} {s t u : State}

theorem KeepsRegs.of_p (h : t.p = s.p) : KeepsRegs rs s t := fun j _ => State.getP_congr h j

theorem KeepsRegs.trans (hst : KeepsRegs rs s t) (htu : KeepsRegs rs t u) : KeepsRegs rs s u :=
  fun j hj => (htu j hj).trans (hst j hj)

/-- An auto-modify looks at no register but its base, so it keeps two states alike where they are. -/
theorem KeepsRegs.autoModify (h : KeepsRegs rs s t) (z : Size) (m : Rm) :
    KeepsRegs rs (autoModify z m s) (autoModify z m t) := by
  intro j hj
  by_cases hm : j ∈ autoBase m
  · cases m with
    | postInc r | preDec r =>
      obtain rfl := List.mem_singleton.mp hm
      simp [h j hj]
    | _ => nomatch hm
  · rw [getP_autoModify_of_not_mem hm, getP_autoModify_of_not_mem hm, h j hj]

/-! ### The operations of the model -/

variable (s)

theorem KeepsRegs.setP {r : RegNum} (h : r ∈ rs) (v : Ptr) : KeepsRegs rs s (s.setP r v) :=
  fun _ hj => State.getP_setP_of_ne s v fun e => hj (e ▸ h)

theorem KeepsRegs.setR {z : Size} {r : RegNum} (h : partOf z r ∈ rs) (v : BitVec z.bits) : KeepsRegs rs s (s.setR z r v) :=
  fun _ hj => State.getP_setR_of_ne s z v fun e => hj (e ▸ (home_eq_partOf z r).symm ▸ h)

theorem KeepsRegs.writeOp_locate (z : Size) (d : Rm) (s' : State) (v : BitVec z.bits) :
    KeepsRegs (writtenPlace z d) s (writeOp (locate z d s') v s) := by
  refine fun j hj => getP_writeOp _ v s j fun r hr hjr => hj ?_
  rw [locate_eq_reg s' hr, hjr, home_eq_partOf]
  exact List.mem_singleton_self _

theorem KeepsRegs.call (target : Ptr) : KeepsRegs [7] s (s.call target) :=
  (KeepsRegs.setP s (List.mem_singleton_self 7) _).trans (.of_p rfl)

theorem KeepsRegs.arith (op : AddSub) (z : Size) (a b : BitVec z.bits) (cx : Bool) : KeepsRegs rs s (arith op z a b cx s).2 :=
  .of_p (by rw [arith_frame])

theorem partOf_zero_mem_cons (z : Size) (l : List RegNum) : partOf z 0 ∈ (0 : RegNum) :: l :=
  (partOf_zero z).symm ▸ List.mem_cons_self ..

theorem KeepsRegs.storeProduct (z : Size) (r : RegNum) (p : Nat) : KeepsRegs [0, partOf z r] s (storeProduct z r p s) :=
  (KeepsRegs.setR s (partOf_zero_mem_cons z _) _).trans
    ((KeepsRegs.setR _ (List.mem_cons_of_mem _ (List.mem_singleton_self _)) _).trans (.of_p rfl))

theorem KeepsRegs.storeQuotient (z : Size) (r : RegNum) (q : Option (Quotient z.bits)) (d : DivOverflow) :
    KeepsRegs [0, partOf z r] s (storeQuotient z r q d s) := by
  have hregs : ∀ v w, KeepsRegs [0, partOf z r] s ((s.setR z r v).setR z 0 w) := fun v w =>
    (KeepsRegs.setR s (List.mem_cons_of_mem _ (List.mem_singleton_self _)) v).trans
      (KeepsRegs.setR _ (partOf_zero_mem_cons z _) w)
  cases q <;> exact (hregs _ _).trans (.of_p rfl)

end

/-! ### The operand shapes -/

section
variable {rs : List RegNum} {s : State} {z : Size} {k : Nat} {m : Rm}

theorem KeepsRegs.resolved (z : Size) (k : Nat) (m : Rm) (s : State) :
    KeepsRegs rs (Machine.autoModify z m s) (resolved z k m s) :=
  .autoModify (.of_p (s.advance_p k)) z m

theorem KeepsRegs.accessed (z : Size) (k : Nat) (m : Rm) (s : State) :
    KeepsRegs rs (Machine.autoModify z m s) (accessed z k m s) :=
  (KeepsRegs.resolved z k m s).trans (.of_p (afterRead_p _ _))

variable (hm : m.wellFormed = true)
include hm

theorem KeepsRegs.withOperand {body : Loc z → State → State}
    (hb : ∀ u, KeepsRegs rs u (body (place z k m s) u)) :
    KeepsRegs rs (Machine.autoModify z m s) (withOperand z k m s body) :=
  withOperand_wellFormed hm z k s body ▸ (KeepsRegs.resolved z k m s).trans (hb _)

theorem KeepsRegs.withSource {body : BitVec z.bits → State → State}
    (hb : ∀ u, KeepsRegs rs u (body (operand z k m s) u)) :
    KeepsRegs rs (Machine.autoModify z m s) (withSource z k m s body) :=
  withSource_wellFormed hm z k s body ▸ (KeepsRegs.accessed z k m s).trans (hb _)

theorem KeepsRegs.modify {f : BitVec z.bits → State → BitVec z.bits × State}
    (hf : ∀ a u, KeepsRegs (writtenPlace z m) u (f a u).2) :
    KeepsRegs (writtenPlace z m) (Machine.autoModify z m s) (modify z k m s f) :=
  .withOperand hm fun u => (KeepsRegs.of_p (afterRead_p _ u)).trans ((hf _ _).trans (.writeOp_locate _ z m _ _))

theorem KeepsRegs.intoRegister {r : RegNum} {f : BitVec z.bits → BitVec z.bits → State → BitVec z.bits × State}
    (hf : ∀ a b u, KeepsRegs [partOf z r] u (f a b u).2) :
    KeepsRegs [partOf z r] (Machine.autoModify z m s) (intoRegister z r m s f) :=
  .withSource hm fun u => (hf _ _ u).trans (.setR _ (List.mem_singleton_self _) _)

/-- A divide whose divisor is not 0. -/
theorem KeepsRegs.divide {c : TrapCause} {body : BitVec z.bits → State → State} (hd : operand z k m s ≠ 0)
    (hb : ∀ v u, KeepsRegs rs u (body v u)) :
    KeepsRegs rs (Machine.autoModify z m s)
      (Machine.withSource z k m s fun d u => if d = 0 then u.raise c s.pgc u.pgc else body d u) := by
  refine .withSource hm fun u => ?_
  rw [if_neg hd]
  exact hb _ u

theorem KeepsRegs.pushAddress (r : RegNum) : KeepsRegs [r] (Machine.autoModify .p m s) (pushAddress r m s) :=
  .withOperand hm fun u => (KeepsRegs.of_p (effectiveAddress_p u _)).trans
    ((KeepsRegs.setP _ (List.mem_singleton_self r) _).trans (.of_p (State.memWrite_p ..)))

/-- A copy resolves its source and then its destination (R160). -/
theorem KeepsRegs.copyOperand {d : Rm} (hd : d.wellFormed = true) :
    KeepsRegs (writtenPlace z d) (Machine.autoModify z d (Machine.autoModify z m s)) (copyOperand z d m s) := by
  have hfetched : KeepsRegs (writtenPlace z d) (Machine.autoModify z m s) (copyFetched z d m s) :=
    (KeepsRegs.resolved z (1 + m.ext) m s).trans (.of_p (afterRead_p _ _))
  rw [copyOperand_wellFormed s hd hm]
  exact (hfetched.autoModify z d).trans (.writeOp_locate _ z d _ _)

end

/-! ### All instructions with one operand -/

/-- An instruction with one operand that raises no exception leaves the auto-modify of that operand, at the operand's size, in
every register that is not its destination. -/
theorem exec_keepsRegs {i : Instr} {m : Rm} {s : State} (hr : raisesNone i s) (hi : operandsOf i = [m]) :
    ∃ t, exec i s = .next t ∧ KeepsRegs (destination i) (autoModify (operandSize i) m s) t := by
  have hm : m.wellFormed = true := wellFormed_of_raisesNone hr hi
  cases i with
  | nop | halt | ilg | ldPHml | ldq | ldIrl | andF | xorF | orF | ldFImm | jrCond | jrS | crS | repr | djnz | jpHml | jrL
  | callHml | crL | repi | rst | rxf | sxf | cxf | ddm | edm | ret | reti | ldRmRm => nomatch hi
  -- a source is read, flags or PGC are written
  | ldFRm | ldWfRm | tst | cpRRm | cpRmImm | bitImm | bitM0 | jpRm =>
    cases hi
    exact ⟨_, rfl, .withSource hm fun _ => .of_p rfl⟩
  -- a register is written
  | addRRm | adxRRm | subRRm | sbxRRm =>
    cases hi
    exact ⟨_, rfl, .intoRegister hm fun _ _ u => .arith u _ _ _ _ _⟩
  | andRRm | xorRRm | orRRm =>
    cases hi
    exact ⟨_, rfl, .intoRegister hm fun _ _ _ => .of_p rfl⟩
  | ldzx | ldsx =>
    cases hi
    exact ⟨_, rfl, .withSource hm fun u => .setP u (List.mem_singleton_self _) _⟩
  | mulu | muls =>
    cases hi
    exact ⟨_, rfl, .withSource hm fun u => .storeProduct u _ _ _⟩
  | divu | divs =>
    cases hi
    obtain ⟨-, -, hd⟩ := hr
    exact ⟨_, rfl, .divide hm hd fun _ u => .storeQuotient u _ _ _ _⟩
  | lea =>
    cases hi
    exact ⟨_, rfl, .withOperand hm fun u => (KeepsRegs.of_p (effectiveAddress_p u _)).trans
      (.setP _ (List.mem_singleton_self _) _)⟩
  | jea =>
    cases hi
    exact ⟨_, rfl, .withOperand hm fun u => .of_p (effectiveAddress_p u _)⟩
  -- the operand is written
  | addRmR | adxRmR | subRmR | sbxRmR | addRmImm | adxRmImm | subRmImm | sbxRmImm | neg | ngx =>
    cases hi
    exact ⟨_, rfl, .modify hm fun _ u => .arith u _ _ _ _ _⟩
  | adq | sbq | andRmR | xorRmR | orRmR | andRmImm | xorRmImm | orRmImm | cpl | sla | sra | srl | rl | rr | rlc | rrc | chgImm
  | resImm | setImm | chgM0 | resM0 | setM0 | swapB | swapW | swapP =>
    cases hi
    exact ⟨_, rfl, .modify hm fun _ _ => .of_p rfl⟩
  | ldRmF | ldRmWf =>
    cases hi
    exact ⟨_, rfl, .withOperand hm fun u => .writeOp_locate u _ _ _ _⟩
  -- pushes, pops and calls
  | leaPre | pea =>
    cases hi
    exact ⟨_, rfl, .pushAddress hm _⟩
  | callRm =>
    cases hi
    exact ⟨_, rfl, .withSource hm fun u => .call u _⟩
  | cea =>
    cases hi
    exact ⟨_, rfl, .withOperand hm fun u => (KeepsRegs.of_p (effectiveAddress_p u _)).trans (.call _ _)⟩
  | push z =>
    cases hi
    refine ⟨_, rfl, fun j hj => ?_⟩
    have hcopy := KeepsRegs.copyOperand (z := z) (d := .preDec 7) (s := s) hm rfl j List.not_mem_nil
    exact hcopy.trans (getP_autoModify_of_not_mem hj)
  | pop z =>
    cases hi
    refine ⟨_, rfl, fun j hj => ?_⟩
    obtain ⟨hsp, hj⟩ := not_or.mp (List.mem_cons.not.mp hj)
    have hsource : KeepsRegs [7] s (autoModify z (.postInc 7) s) := .setP s (List.mem_singleton_self 7) _
    have hcopy := KeepsRegs.copyOperand (z := z) (m := .postInc 7) (s := s) rfl hm j hj
    exact hcopy.trans (hsource.autoModify z m j (List.mem_singleton.not.mpr hsp))

/-- What `exec_keepsRegs` says of one register of the next state. -/
theorem getP_of_exec {i : Instr} {m : Rm} {s t : State} {b : RegNum} (hi : operandsOf i = [m]) (hr : raisesNone i s)
    (hb : b ∉ destination i) (h : exec i s = .next t) : t.getP b = (autoModify (operandSize i) m s).getP b := by
  obtain ⟨u, hu, hk⟩ := exec_keepsRegs hr hi
  cases hu.symm.trans h
  exact hk b hb

end Sys2Proof.Machine

namespace Sys2Proof.Machine

open Sys2Proof.Claims

/-! Auto-modify by instruction (40_operands.md R150), where the base register is not a destination and where it is the register
that the instruction pushes or pops through. -/

section
variable {i : Instr} {m : Rm} {b : RegNum} {s t : State}

theorem raisesNone_of_wellFormed (hi : operandsOf i = [m]) (hm : m.wellFormed = true) (hd : ¬ dividesByZero i s) :
    raisesNone i s := by
  refine ⟨?_, fun m' hm' => ?_, hd⟩
  · rintro rfl
    cases hi
  · rw [hi] at hm'
    exact List.mem_singleton.mp hm' ▸ hm

theorem getP_of_exec_postInc (hi : operandsOf i = [.postInc b]) (hd : ¬ dividesByZero i s) (hb : b ∉ destination i)
    (h : exec i s = .next t) : t.getP b = s.getP b + stepOf (operandSize i) b :=
  (getP_of_exec hi (raisesNone_of_wellFormed hi rfl hd) hb h).trans (getP_autoModify_postInc ..)

theorem getP_of_exec_preDec (hi : operandsOf i = [.preDec b]) (hd : ¬ dividesByZero i s) (hb : b ∉ destination i)
    (h : exec i s = .next t) : t.getP b = s.getP b - stepOf (operandSize i) b :=
  (getP_of_exec hi (raisesNone_of_wellFormed hi rfl hd) hb h).trans (getP_autoModify_preDec ..)

end

section
variable {z : Size} {m d : Rm} {s t : State}

/-! ### Copies -/

theorem getP_of_ld {b : RegNum} (hr : raisesNone (.ldRmRm z d m) s) (hb : b ∉ writtenPlace z d)
    (h : exec (.ldRmRm z d m) s = .next t) : t.getP b = (autoModify z d (autoModify z m s)).getP b := by
  cases h
  obtain ⟨-, hwf, -⟩ := hr
  exact KeepsRegs.copyOperand (hwf m (.tail _ (.head _))) (hwf d (.head _)) b hb

theorem getP_of_push (hm : m.wellFormed = true) (h : exec (.push z m) s = .next t) :
    t.getP 7 = (autoModify z m s).getP 7 - stackStep z := by
  cases h
  rw [← stepOf_sp, ← getP_autoModify_preDec]
  exact KeepsRegs.copyOperand hm rfl 7 List.not_mem_nil

theorem getP_of_pop (hd : d.wellFormed = true) (hw : 7 ∉ writtenPlace z d) (h : exec (.pop z d) s = .next t) :
    t.getP 7 = (autoModify z d (autoModify z (.postInc 7) s)).getP 7 := by
  cases h
  exact KeepsRegs.copyOperand rfl hd 7 hw

/-! ### Pushes of an address -/

theorem State.getP_call (s : State) (target : Ptr) : (s.call target).getP 7 = s.getP 7 - 4 := State.getP_setP_self s 7 _

variable (hm : m.wellFormed = true)
include hm

/-- A push through a register, which leaves it 4 below where the auto-modify of the operand does. -/
theorem getP_withOperand_of_push {k : Nat} {r : RegNum} {body : Loc z → State → State}
    (hb : ∀ l u, (body l u).getP r = u.getP r - 4) :
    (withOperand z k m s body).getP r = (autoModify z m s).getP r - 4 := by
  rw [withOperand_wellFormed hm, hb]
  exact congrArg (· - 4) (KeepsRegs.resolved z k m s r List.not_mem_nil)

theorem getP_pushAddress (r : RegNum) : (pushAddress r m s).getP r = (autoModify .p m s).getP r - 4 := by
  refine getP_withOperand_of_push hm fun l u => ?_
  rw [State.getP_congr (State.memWrite_p ..), State.getP_setP_self, State.getP_congr (effectiveAddress_p ..)]

theorem getP_of_leaPre {r : RegNum} (h : exec (.leaPre r m) s = .next t) :
    t.getP r = (autoModify .p m s).getP r - 4 := by
  cases h
  exact getP_pushAddress hm r

theorem getP_of_pea (h : exec (.pea m) s = .next t) : t.getP 7 = (autoModify .p m s).getP 7 - 4 := by
  cases h
  exact getP_pushAddress hm 7

theorem getP_of_callRm (h : exec (.callRm m) s = .next t) : t.getP 7 = (autoModify .p m s).getP 7 - 4 := by
  cases h
  refine getP_withOperand_of_push hm fun l u => ?_
  rw [State.getP_call, State.getP_congr (afterRead_p ..)]

/-- CEA moves SP by its push, and no other register but the base. -/
theorem getP_of_cea {b : RegNum} (h : exec (.cea m) s = .next t) :
    t.getP b = (autoModify .p m s).getP b - if b = 7 then 4 else 0 := by
  split
  next hb =>
    cases h
    subst hb
    refine getP_withOperand_of_push hm fun l u => ?_
    rw [State.getP_call, State.getP_congr (effectiveAddress_p ..)]
  next hb =>
    exact (getP_of_exec rfl (raisesNone_of_wellFormed rfl hm id) (List.mem_singleton.not.mpr hb) h).trans
      (BitVec.sub_zero _).symm

end

/-- Settles O14: the step of one operand, of both operands of a copy, and what is pushed or popped through the base itself. -/
theorem autoModifySteps : Obligations.AutoModifySteps := by
  refine ⟨fun r hr => if_neg hr, rfl, fun _ => rfl, fun _ => rfl, fun _ _ _ => ⟨rfl, rfl⟩, ?oneOperand, ?ld, ?stack,
    ?extend, ?lea, ?jump⟩
  case oneOperand =>
    rintro i b s t ⟨-, -, hd⟩ hb h
    exact ⟨fun hi => getP_of_exec_postInc hi hd hb h, fun hi => getP_of_exec_preDec hi hd hb h⟩
  case ld =>
    intro z d m b s t hr hw h
    have hld := getP_of_ld hr hw h
    refine ⟨hld, fun hd => ?_, fun hm => ?_⟩
    · rw [getP_autoModify_of_not_mem hd] at hld
      constructor <;> rintro rfl <;> simpa using hld
    · constructor <;> rintro rfl <;> simpa [getP_autoModify_of_not_mem hm] using hld
  case stack =>
    intro z r s t
    refine ⟨fun h => ?_, fun h => ?_, fun h => ?_, fun h => ?_, fun h => ?_, fun h => ?_, fun h => ?_, fun h => ?_⟩
    · simpa using getP_of_push rfl h
    · simpa using getP_of_push rfl h
    · simpa [← stepOf_sp] using getP_of_pop rfl List.not_mem_nil h
    · simpa [← stepOf_sp] using getP_of_pop rfl List.not_mem_nil h
    · simpa [stepOf] using h.elim (getP_of_callRm rfl) (getP_of_pea rfl)
    · simpa [stepOf] using h.elim (getP_of_callRm rfl) (getP_of_pea rfl)
    · simpa [stepOf] using getP_of_leaPre rfl h
    · simpa [stepOf] using getP_of_leaPre rfl h
  case extend =>
    intro z r b s t hrb
    have hb : b ∉ [r] := List.mem_singleton.not.mpr hrb.symm
    exact ⟨fun h => h.elim (getP_of_exec_postInc rfl id hb) (getP_of_exec_postInc rfl id hb),
      fun h => h.elim (getP_of_exec_preDec rfl id hb) (getP_of_exec_preDec rfl id hb)⟩
  case lea =>
    intro r b s t hrb
    have hb : b ∉ [r] := List.mem_singleton.not.mpr hrb.symm
    exact ⟨fun h => h.elim (getP_of_exec_postInc rfl id hb) (getP_of_exec_postInc rfl id hb),
      fun h => h.elim (getP_of_exec_preDec rfl id hb) (getP_of_exec_preDec rfl id hb)⟩
  case jump =>
    intro b s t
    refine ⟨getP_of_exec_postInc rfl id List.not_mem_nil, getP_of_exec_preDec rfl id List.not_mem_nil,
      fun h => ?_, fun h => ?_⟩
    · exact (getP_of_cea rfl h).trans (by rw [getP_autoModify_postInc, stepOf])
    · exact (getP_of_cea rfl h).trans (by rw [getP_autoModify_preDec, stepOf])

end Sys2Proof.Machine

namespace Sys2Proof.Machine

open Sys2Proof.Claims

/-! Effective addresses (40_operands.md R157, R158): what each of the five instructions that take one does with it. -/

/-- A register or an immediate has no address: a free value stands for it, and is counted as drawn (R158). -/
theorem effectiveAddress_of_ne_mem {z : Size} {l : Loc z} (h : ∀ a, l ≠ .mem a) (s : State) :
    effectiveAddress l s = (Config.eaOfNonMemory s.freeCount, s.drawn) := by
  cases l with
  | mem ea => exact absurd rfl (h ea)
  | reg _ | imm _ => rfl

/-- The effective address of a resolved operand, and the state in which it is known. -/
theorem effectiveAddress_place {k : Nat} {m : Rm} {s s1 : State} {ea : Ptr}
    (h : place .p k m s = .mem ea ∧ s1 = resolved .p k m s ∨
      (∀ a, place .p k m s ≠ .mem a) ∧ ea = Config.eaOfNonMemory s.freeCount ∧ s1 = (resolved .p k m s).drawn) :
    effectiveAddress (place .p k m s) (resolved .p k m s) = (ea, s1) := by
  obtain ⟨hmem, rfl⟩ | ⟨hne, rfl, rfl⟩ := h
  · rw [hmem, effectiveAddress]
  · rw [effectiveAddress_of_ne_mem hne, resolved, autoModify_freeCount, State.advance_freeCount]

/-- An instruction that goes on with its operand's effective address and the state in which it is known. -/
theorem withOperand_effectiveAddress {k : Nat} {m : Rm} {s s1 : State} {ea : Ptr} (hm : m.wellFormed = true)
    (he : effectiveAddress (place .p k m s) (resolved .p k m s) = (ea, s1)) (f : Ptr × State → State) :
    withOperand .p k m s (fun l s' => f (effectiveAddress l s')) = f (ea, s1) :=
  (withOperand_wellFormed hm ..).trans (congrArg f he)

/-- Settles O20: each instruction is a function of the effective address alone. -/
theorem addressResults : Obligations.AddressResults := by
  intro r m s s1 ea hm h
  have he := withOperand_effectiveAddress hm (effectiveAddress_place h)
  have hpush : ∀ r, pushAddress r m s = (s1.setP r (s1.getP r - 4)).memWrite .p (s1.getP r - 4) ea := fun r =>
    he fun a => (a.2.setP r (a.2.getP r - 4)).memWrite .p (a.2.getP r - 4) a.1
  refine ⟨?lea, ?leaPre, ?pea, ?jea, ?cea⟩
  case lea => exact congrArg Host.Outcome.next (he fun a => a.2.setP r a.1)
  case leaPre => exact congrArg Host.Outcome.next (hpush r)
  case pea => exact congrArg Host.Outcome.next (hpush 7)
  case jea => exact congrArg Host.Outcome.next (he fun a => a.2.setPgc a.1)
  case cea => exact congrArg Host.Outcome.next (he fun a => a.2.call a.1)

end Sys2Proof.Machine

namespace Sys2Proof

/-! First words with an 8-bit field as numbers, and the two-word form with `hml` (30_encoding.md R102, R103). -/

/-- A first word of groups 12 to 15 as a number. -/
theorem lowWord_toNat (c : BitVec 2) (b : BitVec 1) (r : RegNum) (n : Byte) :
    (lowWord c b r n).toNat = 0xC000 + c.toNat * 4096 + b.toNat * 2048 + r.toNat * 256 + n.toNat := by
  have hjoin : (lowWord c b r n).toNat = (3 : BitVec 2).toNat * 16384 + c.toNat * 4096 + b.toNat * 2048 + r.toNat * 256 +
      (n.extractLsb' 6 2).toNat * 64 + (n.extractLsb' 0 6).toNat := FirstWord.join_toNat _
  have hzz : (3 : BitVec 2).toNat = 3 := rfl
  rw [hjoin, hzz, BitVec.extractLsb'_toNat, BitVec.extractLsb'_toNat, Nat.shiftRight_eq_div_pow, Nat.shiftRight_zero]
  omega

/-- A word is a first word with an 8-bit field when the numbers agree. -/
theorem ofNat_eq_lowWord {k : Nat} {c : BitVec 2} {b : BitVec 1} {r : RegNum} {n : Byte}
    (h : k = 0xC000 + c.toNat * 4096 + b.toNat * 2048 + r.toNat * 256 + n.toNat) :
    BitVec.ofNat 16 k = lowWord c b r n := by
  rw [h, ← lowWord_toNat, BitVec.ofNat_toNat, BitVec.setWidth_eq]

/-- The two words of `hml` hold `h` and `ml`. -/
theorem hmlWords_append (c : BitVec 2) (b : BitVec 1) (r : RegNum) (h : Byte) (ml : Word) :
    hmlWords c b r (h ++ ml) = [lowWord c b r h, ml] := by
  have hh : BitVec.extractLsb' 16 8 (h ++ ml) = h := BitVec.extractLsb'_append_eq_left
  have hml : BitVec.extractLsb' 0 16 (h ++ ml) = ml := BitVec.extractLsb'_append_eq_right
  exact congrArg₂ (fun h ml => [lowWord c b r h, ml]) hh hml

/-- The words of the four operations on F with an immediate (43_logic.md R250 to R252, 41_data_transfer.md R178). -/
theorem lowWord_onF : ∀ n : Byte,
    (0xDC00 ||| n.setWidth 16 : Word) = lowWord 1 1 4 n ∧ (0xDD00 ||| n.setWidth 16 : Word) = lowWord 1 1 5 n ∧
    (0xDE00 ||| n.setWidth 16 : Word) = lowWord 1 1 6 n ∧ (0xDF00 ||| n.setWidth 16 : Word) = lowWord 1 1 7 n := by decide

end Sys2Proof

namespace Sys2Proof.Machine

open Sys2Proof.Claims

/-! Data transfer (41_data_transfer.md R172 to R186), and the operations on F (43_logic.md R250 to R252, 48_macros.md R344 to
R348). -/

/-! ### F and the flags -/

/-- What was stored as F sets the flags it was made of. -/
theorem flagsIn_fByte (s : State) : flagsIn s.fByte = s.flags := by simp only [flagsIn, State.getLsbD_fByte]

/-- Bits 5 and 4 of F are always 0 (10_state.md R28). -/
theorem State.fByte_fixedZeros (s : State) : s.fByte &&& 0x30 = 0 := by
  have hself : s.setF s.fByte = s := congrArg s.setFlags (flagsIn_fByte s)
  rw [← hself, State.fByte_setF, BitVec.and_assoc]
  exact BitVec.and_zero

/-- F is made of the flags alone. -/
theorem State.fByte_congr {s t : State} (h : t.flags = s.flags) : t.fByte = s.fByte := by simp only [State.fByte, h]

/-- WF is made of the flags and IRL alone. -/
theorem State.wf_congr {s t : State} (hf : t.flags = s.flags) (hi : t.irl = s.irl) : t.wf = s.wf := by
  simp only [State.wf, State.fByte_congr hf, hi]

section
variable (z : Size) (k : Nat) (m : Rm) (s : State)

theorem resolved_fByte : (resolved z k m s).fByte = s.fByte := State.fByte_congr (autoModify_flags z m _)

theorem resolved_wf : (resolved z k m s).wf = s.wf := State.wf_congr (autoModify_flags z m _) (autoModify_irl z m _)

end

/-! ### The operations on F -/

section
variable (s : State) (n : Byte)

/-- Each bit of the result goes to its flag, the other bits nowhere. -/
theorem onF_eq_setFlags (f : Byte → Byte) : onF f s = (s.advance 1).setFlags (flagsIn (f s.fByte)) := rfl

theorem onF_and : onF (fun f => f &&& n) s = (s.advance 1).setFlags
    ⟨s.flags.s && n.getLsbD 7, s.flags.z && n.getLsbD 6, s.flags.c && n.getLsbD 3, s.flags.vp && n.getLsbD 2,
      s.flags.d && n.getLsbD 1, s.flags.x && n.getLsbD 0⟩ := by
  simp only [onF_eq_setFlags, flagsIn, BitVec.getLsbD_and, State.getLsbD_fByte]

theorem onF_xor : onF (fun f => f ^^^ n) s = (s.advance 1).setFlags
    ⟨s.flags.s != n.getLsbD 7, s.flags.z != n.getLsbD 6, s.flags.c != n.getLsbD 3, s.flags.vp != n.getLsbD 2,
      s.flags.d != n.getLsbD 1, s.flags.x != n.getLsbD 0⟩ := by
  simp only [onF_eq_setFlags, flagsIn, BitVec.getLsbD_xor, State.getLsbD_fByte]

theorem onF_or : onF (fun f => f ||| n) s = (s.advance 1).setFlags
    ⟨s.flags.s || n.getLsbD 7, s.flags.z || n.getLsbD 6, s.flags.c || n.getLsbD 3, s.flags.vp || n.getLsbD 2,
      s.flags.d || n.getLsbD 1, s.flags.x || n.getLsbD 0⟩ := by
  simp only [onF_eq_setFlags, flagsIn, BitVec.getLsbD_or, State.getLsbD_fByte]

/-- RXF, SXF, CXF, DDM and EDM as the operations they stand for: every bit but one keeps its flag. -/
theorem onF_oneFlag :
    onF (fun f => f &&& 0xFE) s = (s.advance 1).setFlags { s.flags with x := false } ∧
    onF (fun f => f ||| 0x01) s = (s.advance 1).setFlags { s.flags with x := true } ∧
    onF (fun f => f ^^^ 0x01) s = (s.advance 1).setFlags { s.flags with x := !s.flags.x } ∧
    onF (fun f => f &&& 0xFD) s = (s.advance 1).setFlags { s.flags with d := false } ∧
    onF (fun f => f ||| 0x02) s = (s.advance 1).setFlags { s.flags with d := true } := by
  simp [onF_and, onF_xor, onF_or]

end

/-- Settles O37: each operation bit by bit, its words as those the encoder writes. -/
theorem flagByteWrites : Obligations.FlagByteWrites := by
  intro n s f t
  obtain ⟨rxf, sxf, cxf, ddm, edm⟩ := onF_oneFlag s
  obtain ⟨hand, hxor, hor, hld⟩ := lowWord_onF n
  refine ⟨congrArg _ (onF_and s n), congrArg _ (onF_xor s n), congrArg _ (onF_or s n), rfl, congrArg _ rxf, congrArg _ sxf,
    congrArg _ cxf, congrArg _ ddm, congrArg _ edm, ?andF, ?xorF, ?orF, ?ldF, by decide⟩
  case andF => exact hand ▸ decodeWords_encode (i := .andF n) rfl rfl []
  case xorF => exact hxor ▸ decodeWords_encode (i := .xorF n) rfl rfl []
  case orF => exact hor ▸ decodeWords_encode (i := .orF n) rfl rfl []
  case ldF => exact hld ▸ decodeWords_encode (i := .ldFImm n) rfl rfl []

/-- Settles O17: a load splits the operand into the fields of WF, a store joins them, and a resolved operand changes neither. -/
theorem statusTransfers : Obligations.StatusTransfers := by
  refine ⟨fun m s hm => ⟨?ldF, ?ldWf, ⟨s.fByte, flagsIn_fByte s, s.fByte_fixedZeros, ?storeF⟩, ?storeWf⟩, fun n s => rfl⟩
  case ldF => exact congrArg Host.Outcome.next (withSource_wellFormed hm ..)
  case ldWf => exact congrArg Host.Outcome.next (withSource_wellFormed hm ..)
  case storeF =>
    refine congrArg Host.Outcome.next ((withOperand_wellFormed hm ..).trans ?_)
    exact congrArg (writeOp _ · _) (resolved_fByte .b (1 + m.ext) m s)
  case storeWf =>
    obtain ⟨hflags, hirl, hzeros, -⟩ := statusWordLayout s
    refine ⟨s.wf, hflags, hirl, hzeros, congrArg Host.Outcome.next ((withOperand_wellFormed hm ..).trans ?_)⟩
    exact congrArg (writeOp _ · _) (resolved_wf .w (1 + m.ext) m s)

/-! ### Extension and exchange -/

theorem Size.bits_le (z : Size) : z.bits ≤ 24 := by cases z <;> decide

/-- Settles O18: an extension to no fewer bits keeps the number read. -/
theorem extendResults : Obligations.ExtendResults := by
  intro z r m s _ hm v
  exact ⟨⟨v.setWidth 24, BitVec.toNat_setWidth_of_le (Size.bits_le z),
      congrArg Host.Outcome.next (withSource_wellFormed hm ..)⟩,
    ⟨v.signExtend 24, BitVec.toInt_signExtend_of_le (Size.bits_le z),
      congrArg Host.Outcome.next (withSource_wellFormed hm ..)⟩⟩

theorem swapNibbles_toNat (v : Byte) :
    BitVec.toNat (w := 8) (v.extractLsb' 0 4 ++ v.extractLsb' 4 4) = v.toNat % 16 * 16 + v.toNat / 16 := by
  have h : BitVec.toNat (w := 8) (v.extractLsb' 0 4 ++ v.extractLsb' 4 4) = _ := append_toNat _ _
  simp only [h, BitVec.extractLsb'_toNat, Nat.shiftRight_eq_div_pow]
  omega

theorem swapBytes_toNat (v : Word) :
    BitVec.toNat (w := 16) (v.extractLsb' 0 8 ++ v.extractLsb' 8 8) = v.toNat % 256 * 256 + v.toNat / 256 := by
  have h : BitVec.toNat (w := 16) (v.extractLsb' 0 8 ++ v.extractLsb' 8 8) = _ := append_toNat _ _
  simp only [h, BitVec.extractLsb'_toNat, Nat.shiftRight_eq_div_pow]
  omega

theorem swapOuterBytes_toNat (v : Ptr) :
    BitVec.toNat (w := 24) (v.extractLsb' 0 8 ++ v.extractLsb' 8 8 ++ v.extractLsb' 16 8) =
      v.toNat % 256 * 65536 + v.toNat / 256 % 256 * 256 + v.toNat / 65536 := by
  simp only [ptr_parts, BitVec.extractLsb'_toNat, Nat.shiftRight_eq_div_pow]
  omega

/-- Settles O21: each is a read-modify-write of the operand that leaves the state as it was read. -/
theorem swapResults : Obligations.SwapResults := fun _ _ hm =>
  ⟨⟨_, swapNibbles_toNat _, congrArg Host.Outcome.next (modify_wellFormed hm ..)⟩,
    ⟨_, swapBytes_toNat _, congrArg Host.Outcome.next (modify_wellFormed hm ..)⟩,
    ⟨_, swapOuterBytes_toNat _, congrArg Host.Outcome.next (modify_wellFormed hm ..)⟩⟩

/-! ### Constants -/

/-- Settles O19: the words given are those the encoder writes. -/
theorem constantLoads : Obligations.ConstantLoads := by
  refine ⟨fun r h ml s => ⟨?hml, rfl⟩, fun r n s => ⟨?ldq, rfl⟩⟩
  case hml =>
    have hw : 0xC000 + 256 * r.toNat + h.toNat = 0xC000 + 0 * 4096 + 0 * 2048 + r.toNat * 256 + h.toNat := by omega
    rw [ofNat_eq_lowWord (c := 0) (b := 0) hw, ← hmlWords_append]
    exact decodeWords_encode (i := .ldPHml r (h ++ ml)) rfl rfl []
  case ldq =>
    have hw : 0xC800 + 256 * r.toNat + n.toNat = 0xC000 + 0 * 4096 + 1 * 2048 + r.toNat * 256 + n.toNat := by omega
    rw [ofNat_eq_lowWord (c := 0) (b := 1) hw]
    exact decodeWords_encode (i := .ldq r n) rfl rfl []

end Sys2Proof.Machine

namespace Sys2Proof.Machine

open Sys2Proof.Claims

/-! The add and subtract cores (42_arithmetic.md R202, R203, and laws 1 and 2 of R237): each result with its carry or borrow is
the exact number, and the two forms of C and of VP agree. -/

section
variable {n : Nat} (a b : BitVec n) (c : Bool)

/-- Law 1: no part of the sum is lost. -/
theorem addCore_exact :
    (addCore a b c).res.toNat + 2 ^ n * (addCore a b c).c.toNat = a.toNat + b.toNat + c.toNat := by
  have ha := a.isLt
  have hb := b.isLt
  have hc := c.toNat_le
  simp only [addCore, BitVec.toNat_ofNat]
  by_cases h : 2 ^ n ≤ a.toNat + b.toNat + c.toNat
  · rw [Nat.mod_eq_sub_mod h, Nat.mod_eq_of_lt (by omega), decide_eq_true h, Bool.toNat_true]
    omega
  · rw [Nat.mod_eq_of_lt (by omega), decide_eq_false h, Bool.toNat_false]
    omega

/-- Law 2: no part of the difference is lost. -/
theorem subCore_exact :
    (a.toNat : Int) - b.toNat - c.toNat =
      ((subCore a b c).res.toNat : Int) - (2 ^ n : Nat) * ((subCore a b c).c.toNat : Int) := by
  have ha := a.isLt
  have hb := b.isLt
  have hc := c.toNat_le
  have hpos : (0 : Int) < 2 ^ n := by positivity
  zify at ha hb hc
  simp only [subCore, BitVec.toNat_ofInt]
  rw [Int.toNat_of_nonneg (Int.emod_nonneg _ (by push_cast; omega))]
  push_cast
  by_cases h : (a.toNat : Int) - b.toNat - c.toNat < 0
  · rw [decide_eq_true h, ← Int.add_emod_right, Int.emod_eq_of_lt (by omega) (by omega), Bool.toNat_true]
    omega
  · rw [decide_eq_false h, Int.emod_eq_of_lt (by omega) (by omega), Bool.toNat_false]
    omega

theorem addCore_res : (addCore a b c).res = a + b + carryIn n c := by
  simp only [addCore, carryIn, BitVec.ofNat_add, BitVec.ofNat_toNat, BitVec.setWidth_eq]

theorem subCore_res : (subCore a b c).res = a - b - carryIn n c := by
  rw [eq_sub_iff_add_eq, carryIn, ← BitVec.ofInt_natCast, ← ofInt_toNat_sub, subCore, ← BitVec.ofInt_add, sub_add_cancel]

/-- The second form of the borrow (R203). -/
theorem subCore_borrow : (subCore a b c).c = decide (a.toNat < b.toNat + c.toNat) := by
  simp only [subCore, decide_eq_decide]
  omega

theorem outsideSigned_iff (t : Int) :
    outsideSigned n t = true ↔ t < -((2 ^ (n - 1) : Nat) : Int) ∨ ((2 ^ (n - 1) : Nat) : Int) ≤ t := by
  rw [Nat.cast_pow, outsideSigned, Bool.or_eq_true, decide_eq_true_eq, decide_eq_true_eq]
  rfl

variable (hn : 0 < n)
include hn

theorem toInt_eq_ite :
    a.toInt = if 2 ^ (n - 1) ≤ a.toNat then (a.toNat : Int) - (2 ^ (n - 1) * 2 : Nat) else a.toNat := by
  simp only [BitVec.toInt_eq_msb_cond, BitVec.msb_eq_decide, decide_eq_true_eq, Nat.two_pow_pred_mul_two hn]

/-- The second form of VP (R202): operands of one sign give a result of the other. -/
theorem addCore_overflow_iff :
    (addCore a b c).v = true ↔ a.msb = b.msb ∧ (addCore a b c).res.msb ≠ a.msb := by
  have hexact := addCore_exact a b c
  have hres := (addCore a b c).res.isLt
  have ha := a.isLt
  have hb := b.isLt
  have hc := c.toNat_le
  rw [← Nat.two_pow_pred_mul_two hn] at hexact hres ha hb
  have hv : (addCore a b c).v = outsideSigned n (a.toInt + b.toInt + c.toNat) := rfl
  rw [hv, outsideSigned_iff, toInt_eq_ite a hn, toInt_eq_ite b hn]
  simp only [BitVec.msb_eq_decide, ne_eq, decide_eq_decide]
  cases h : (addCore a b c).c <;> simp only [h, Bool.toNat_false, Bool.toNat_true] at hexact <;> omega

/-- The second form of VP (R203): operands of different signs give a result without the sign of the first. -/
theorem subCore_overflow_iff :
    (subCore a b c).v = true ↔ a.msb ≠ b.msb ∧ (subCore a b c).res.msb ≠ a.msb := by
  have hexact := subCore_exact a b c
  have hres := (subCore a b c).res.isLt
  have ha := a.isLt
  have hb := b.isLt
  have hc := c.toNat_le
  rw [← Nat.two_pow_pred_mul_two hn] at hexact hres ha hb
  have hv : (subCore a b c).v = outsideSigned n (a.toInt - b.toInt - c.toNat) := rfl
  rw [hv, outsideSigned_iff, toInt_eq_ite a hn, toInt_eq_ite b hn]
  simp only [BitVec.msb_eq_decide, ne_eq, decide_eq_decide]
  cases h : (subCore a b c).c <;> simp only [h, Bool.toNat_false, Bool.toNat_true] at hexact <;> omega

end

theorem Size.bits_pos (z : Size) : 0 < z.bits := by cases z <;> decide

/-- Settles O22: both laws and both second forms, at each size. -/
theorem addSubCores : Obligations.AddSubCores := by
  intro z a b c
  refine ⟨⟨addCore_exact a b c, ?_, addCore_overflow_iff a b c (Size.bits_pos z)⟩,
    ⟨?_, ?_, ?_, subCore_overflow_iff a b c (Size.bits_pos z)⟩⟩
  · exact mod_cast outsideSigned_iff (n := z.bits) (a.toInt + b.toInt + c.toNat)
  · exact mod_cast subCore_exact a b c
  · rw [subCore_borrow, decide_eq_true_iff]
  · exact mod_cast outsideSigned_iff (n := z.bits) (a.toInt - b.toInt - c.toNat)

end Sys2Proof.Machine

namespace Sys2Proof.Machine

open Sys2Proof.Claims

/-! The arithmetic instructions in the shapes of their operands (42_arithmetic.md R204 to R220): each form is its calculation on
the operands as read. -/

/-! ### The shapes, on the operands as read -/

section
variable {z : Size} {m : Rm} {s : State}

@[simp] theorem accessed_flags (z : Size) (k : Nat) (m : Rm) (s : State) : (accessed z k m s).flags = s.flags := by
  simp [accessed, resolved]

variable (hm : m.wellFormed = true)
include hm

theorem withSource_eq (k : Nat) (body : BitVec z.bits → State → State) :
    withSource z k m s body = body (operand z k m s) (accessed z k m s) := withSource_wellFormed hm ..

/-- The `r, rm.src` forms: only what the calculation gives on the values read matters. -/
theorem intoRegister_eq_registerNext {r : RegNum} {f g : BitVec z.bits → BitVec z.bits → State → BitVec z.bits × State}
    (h : let s1 := accessed z (1 + m.ext) m s
      f (s1.getR z r) (operand z (1 + m.ext) m s) s1 = g (s1.getR z r) (operand z (1 + m.ext) m s) s1) :
    intoRegister z r m s f = registerNext z r m s g :=
  (withSource_eq hm ..).trans (congrArg (fun v => v.2.setR z r v.1) h)

/-- The read-modify-write forms. -/
theorem modify_eq_operandNext {k : Nat} {f g : BitVec z.bits → State → BitVec z.bits × State}
    (h : f (operand z k m s) (accessed z k m s) = g (operand z k m s) (accessed z k m s)) :
    modify z k m s f = operandNext z k m s g :=
  (modify_wellFormed hm ..).trans (congrArg (fun v : BitVec z.bits × State => writeOp (place z k m s) v.1 v.2) h)

/-- The three forms of a calculation that looks at the operands and at the flags before the instruction. -/
theorem forms_eq_next (r : RegNum) (imm : Ptr) {f g : BitVec z.bits → BitVec z.bits → State → BitVec z.bits × State}
    (h : ∀ a b u, u.flags = s.flags → f a b u = g a b u) :
    intoRegister z r m s f = registerNext z r m s g ∧
    intoOperand z m r s f = operandNext z (1 + m.ext) m s (fun a u => g a (u.getR z r) u) ∧
    immIntoOperand z m imm s f = operandNext z (1 + z.immWords + m.ext) m s (fun a u => g a (imm.setWidth z.bits) u) :=
  ⟨intoRegister_eq_registerNext hm (h _ _ _ (accessed_flags ..)),
    modify_eq_operandNext hm (h _ _ _ (accessed_flags ..)), modify_eq_operandNext hm (h _ _ _ (accessed_flags ..))⟩

end

/-! ### Sums and differences with their flags -/

theorem isZero_eq_decide {n : Nat} (v : BitVec n) : isZero v = decide (v = 0) := beq_eq_decide v 0

section
variable {n : Nat} (hn : 0 < n) (a b : BitVec n) (c : Bool) (f : Flags) (s : State)
include hn

theorem withSum_addCore : f.withSum (addCore a b c) = sumFlags a b c f := by
  have hv := Bool.eq_iff_iff.mpr ((addCore_overflow_iff a b c hn).trans decide_eq_true_iff.symm)
  rw [Flags.withSum, hv, isZero_eq_decide, addCore_res]
  rfl

theorem withSum_subCore : f.withSum (subCore a b c) = diffFlags a b c f := by
  have hv := Bool.eq_iff_iff.mpr ((subCore_overflow_iff a b c hn).trans decide_eq_true_iff.symm)
  rw [Flags.withSum, hv, isZero_eq_decide, subCore_res, subCore_borrow]
  rfl

theorem binaryArith_add : binaryArith .add a b c s = sum c a b s := by
  rw [binaryArith, AddSub.core, addCore_res, Flags.withSumX, withSum_addCore hn]
  rfl

theorem binaryArith_sub : binaryArith .sub a b c s = diff c a b s := by
  rw [binaryArith, AddSub.core, subCore_res, Flags.withSumX, withSum_subCore hn, subCore_borrow]
  rfl

/-- The model's addition without a carry is that of R202. -/
theorem quickArith_add : quickArith .add a b s = (a + b, s.setFlags (sumFlags a b false s.flags)) := by
  have hres : (addCore a b false).res = a + b := (addCore_res a b false).trans (BitVec.add_zero _)
  rw [quickArith, AddSub.core, withSum_addCore hn, hres]

end

section
variable {z : Size} {s : State} (hd : z = .b → s.flags.d = false) (a b : BitVec z.bits) (c : Bool)
include hd

/-- Outside Decimal Mode an addition is the binary one. -/
theorem arith_add : arith .add z a b c s = sum c a b s :=
  (arith_binary _ _ _ _ _ _ hd).trans (binaryArith_add (Size.bits_pos z) a b c s)

/-- Outside Decimal Mode a subtraction is the binary one. -/
theorem arith_sub : arith .sub z a b c s = diff c a b s :=
  (arith_binary _ _ _ _ _ _ hd).trans (binaryArith_sub (Size.bits_pos z) a b c s)

end

/-- Settles O23: the three forms, without and with X as the carry. -/
theorem addResults : Obligations.AddResults := by
  intro z r m imm s hm hd
  obtain ⟨addReg, addOperand, addImm⟩ := forms_eq_next hm r imm (f := fun a b u => arith .add z a b false u)
    fun a b u hu => arith_add (hu ▸ hd) a b false
  obtain ⟨adxReg, adxOperand, adxImm⟩ := forms_eq_next hm r imm (f := fun a b u => arith .add z a b u.flags.x u)
    (g := sum s.flags.x) fun a b u hu => hu ▸ arith_add (hu ▸ hd) a b u.flags.x
  exact ⟨congrArg _ addReg, congrArg _ adxReg, congrArg _ addOperand, congrArg _ adxOperand, congrArg _ addImm,
    congrArg _ adxImm⟩

/-- Settles O24: the three forms, without and with X as the borrow. -/
theorem subResults : Obligations.SubResults := by
  intro z r m imm s hm hd
  obtain ⟨subReg, subOperand, subImm⟩ := forms_eq_next hm r imm (f := fun a b u => arith .sub z a b false u)
    fun a b u hu => arith_sub (hu ▸ hd) a b false
  obtain ⟨sbxReg, sbxOperand, sbxImm⟩ := forms_eq_next hm r imm (f := fun a b u => arith .sub z a b u.flags.x u)
    (g := diff s.flags.x) fun a b u hu => hu ▸ arith_sub (hu ▸ hd) a b u.flags.x
  exact ⟨congrArg _ subReg, congrArg _ sbxReg, congrArg _ subOperand, congrArg _ sbxOperand, congrArg _ subImm,
    congrArg _ sbxImm⟩

end Sys2Proof.Machine

namespace Sys2Proof.Machine

open Sys2Proof.Claims

/-! Negation and the quick forms (42_arithmetic.md R211, R218 to R220). -/

section
variable {n : Nat} (a : BitVec n) (x : Bool) (s : State)

/-- A number subtracted from 0 (R220). -/
theorem diff_zero : diff x 0 a s =
    let f := s.flags
    let res := -a - carryIn n x
    let c := decide (a ≠ 0) || x
    (res, s.setFlags { f with s := res.msb, z := decide (res = 0), c := c, x := c, vp := a.msb && res.msb }) := by
  have hres : 0 - a = -a := BitVec.zero_sub a
  have hmsb : (0 : BitVec n).msb = false := BitVec.msb_zero
  have hc : decide ((0 : BitVec n).toNat < a.toNat + x.toNat) = (decide (a ≠ 0) || x) := by
    have hzero : a = 0 ↔ a.toNat = 0 := BitVec.toNat_inj.symm
    have hpos : 0 < a.toNat ↔ a ≠ 0 := Nat.pos_iff_ne_zero.trans hzero.not.symm
    cases x <;> simp [hpos]
  have hvp : ∀ p q : Bool, decide (false ≠ p ∧ q ≠ false) = (p && q) := by decide
  simp only [diff, diffFlags, alsoX, hres, hmsb, hc, hvp]

/-- Only the most negative number and its negation are both negative. -/
theorem msb_and_msb_neg (hn : 0 < n) : (a.msb && (-a).msb) = decide (a.toNat = 2 ^ (n - 1)) := by
  have ha := a.isLt
  have hpos := Nat.two_pow_pos (n - 1)
  rw [Bool.eq_iff_iff, Bool.and_eq_true, decide_eq_true_iff]
  simp only [BitVec.msb_eq_decide, decide_eq_true_iff, BitVec.toNat_neg]
  rw [← Nat.two_pow_pred_mul_two hn] at ha ⊢
  by_cases h0 : a.toNat = 0
  · rw [h0, Nat.sub_zero, Nat.mod_self]
    omega
  · rw [Nat.mod_eq_of_lt (by omega)]
    omega

/-- Negation (R219). -/
theorem diff_zero_false (hn : 0 < n) : diff false 0 a s =
    let f := s.flags
    (-a, s.setFlags { f with s := (-a).msb, z := decide (a = 0), c := decide (a ≠ 0), x := decide (a ≠ 0)
                             vp := decide (a.toNat = 2 ^ (n - 1)) }) := by
  have hres : -a - carryIn n false = -a := BitVec.sub_zero _
  have hzero : -a = 0 ↔ a = 0 := BitVec.neg_eq_zero_iff
  rw [diff_zero]
  simp only [hres, hzero, msb_and_msb_neg a hn, Bool.or_false]

end

/-- Settles O25: both are subtractions from 0. -/
theorem negResults : Obligations.NegResults := by
  intro z m s hm hd
  have hd1 : ∀ k, z = .b → (accessed z k m s).flags.d = false := fun k => accessed_flags z k m s ▸ hd
  refine ⟨congrArg Host.Outcome.next (modify_eq_operandNext hm ?_),
    congrArg Host.Outcome.next (modify_eq_operandNext hm ?_)⟩
  · rw [arith_sub (hd1 _), diff_zero_false _ _ (Size.bits_pos z), accessed_flags]
  · rw [arith_sub (hd1 _), diff_zero, accessed_flags]

/-- Settles O26: neither looks at D. -/
theorem quickResults : Obligations.QuickResults := by
  intro z n m s hm k
  refine ⟨congrArg Host.Outcome.next (modify_eq_operandNext hm ?_),
    congrArg Host.Outcome.next (modify_eq_operandNext hm ?_)⟩
  · rw [quickArith_add (Size.bits_pos z), accessed_flags]
    rfl
  · rw [quickArith_sub, accessed_flags]
    rfl

end Sys2Proof.Machine

namespace Sys2Proof.Machine

open Sys2Proof.Claims

/-! Decimal Mode (42_arithmetic.md R204): the model's digits are those of the numbers, and each of the six instructions is one
calculation on two bytes. -/

/-! ### Digits -/

section
variable (a b : Byte)

theorem highDigit_toNat : (a.extractLsb' 4 4).toNat = a.toNat / 16 := by
  have := a.isLt
  rw [BitVec.extractLsb'_toNat, Nat.shiftRight_eq_div_pow]
  omega

theorem lowDigit_toNat : (a.extractLsb' 0 4).toNat = a.toNat % 16 := by
  rw [BitVec.extractLsb'_toNat, Nat.shiftRight_zero]

theorem validBcd_iff : validBcd a = true ↔ twoDigits a := by
  rw [validBcd, Bool.and_eq_true, decide_eq_true_iff, decide_eq_true_iff, highDigit_toNat, lowDigit_toNat, twoDigits]

theorem dec_eq_digitsValue : (dec a : Int) = digitsValue a := by
  rw [dec, highDigit_toNat, lowDigit_toNat, digitsValue]
  push_cast
  rfl

/-- `bcd` of a remainder modulo 100 writes its two decimal digits. -/
theorem bcd_eq_digitsOf (t : Int) : bcd (t % 100).toNat = digitsOf t := by
  have h : BitVec.toNat (w := 8) (bcd (t % 100).toNat) = _ := append_toNat _ _
  apply BitVec.eq_of_toNat_eq
  rw [h, digitsOf, BitVec.toNat_ofNat, BitVec.toNat_ofNat, BitVec.toNat_ofNat]
  omega

end

/-! ### The calculation -/

/-- The number that a decimal operation makes of the numbers that its bytes write. -/
def AddSub.digitsTotal (op : AddSub) (a b : Byte) (cx : Bool) : Int :=
  match op with
  | .add => digitsValue a + digitsValue b + cx.toNat
  | .sub => digitsValue a - digitsValue b - cx.toNat

section
variable {a b : Byte} {cx c : Bool} {s : State}

theorem digitsValue_bounds (h : twoDigits a) : 0 ≤ digitsValue a ∧ digitsValue a ≤ 99 := by
  obtain ⟨hhigh, hlow⟩ := h
  rw [digitsValue]
  omega

/-- `DecAdd` and `DecSub` give the digits of that number, and a carry or borrow where it is not one of 0 to 99. -/
theorem addSubDec_eq (h : twoDigits a ∧ twoDigits b) (op : AddSub) (cx : Bool) :
    op.dec a b cx = (digitsOf (op.digitsTotal a b cx),
      decide (op.digitsTotal a b cx < 0 ∨ 100 ≤ op.digitsTotal a b cx)) := by
  have hda := dec_eq_digitsValue a
  have hdb := dec_eq_digitsValue b
  have ha := digitsValue_bounds h.1
  have hb := digitsValue_bounds h.2
  have hcx := cx.toNat_le
  cases op with
  | add =>
    have hres : (dec a + dec b + cx.toNat) % 100 = ((digitsValue a + digitsValue b + cx.toNat) % 100).toNat := by omega
    refine Prod.ext ((congrArg bcd hres).trans (bcd_eq_digitsOf _)) (decide_eq_decide.mpr ?_)
    rw [AddSub.digitsTotal]
    omega
  | sub =>
    rw [AddSub.dec, decSub, hda, hdb]
    refine Prod.ext (bcd_eq_digitsOf _) (decide_eq_decide.mpr (Iff.symm (or_iff_left ?_)))
    rw [AddSub.digitsTotal]
    omega

variable (op : AddSub) (hd : s.flags.d = true)
include hd

/-- In Decimal Mode bytes of two digits give the digits of their sum or difference. -/
theorem arith_twoDigits (hx : cx = c) (h : twoDigits a ∧ twoDigits b) :
    arith op .b a b cx s = decimalNext (op.digitsTotal a b c) s := by
  rw [arith, if_pos hd, decimalArith, (validBcd_iff a).mpr h.1, (validBcd_iff b).mpr h.2, Bool.and_true, if_pos rfl, hx,
    addSubDec_eq h]
  simp only [isZero_eq_decide]
  rfl

/-- In Decimal Mode a byte that is not two digits gives free values. -/
theorem arith_notDigits (h : ¬ (twoDigits a ∧ twoDigits b)) : arith op .b a b cx s = notDigits s := by
  rw [← validBcd_iff, ← validBcd_iff, ← Bool.and_eq_true] at h
  rw [arith, if_pos hd, decimalArith, if_neg h]
  rfl

end

/-- Settles O28: in each form the two bytes are two digits each or they are not. -/
theorem decimalResults : Obligations.DecimalResults := by
  intro r m imm s hm hd k s1 b a bi i
  have hd1 : ∀ k, (accessed .b k m s).flags.d = true := fun k => accessed_flags .b k m s ▸ hd
  have hx : ∀ k, (accessed .b k m s).flags.x = s.flags.x := fun k => congrArg Flags.x (accessed_flags .b k m s)
  have hzero : twoDigits 0 := ⟨by decide, by decide⟩
  simp only [List.forall_mem_cons, List.not_mem_nil, IsEmpty.forall_iff, implies_true, and_true]
  refine ⟨fun h => ?digits, fun h => ?free, fun h => ?digitsImm, fun h => ?freeImm, fun h => ?digitsNeg, fun h => ?freeNeg⟩
  case digits =>
    have reg op {cx c} (hc : cx = c) := arith_twoDigits op (hd1 k) hc h
    have opd op {cx c} (hc : cx = c) := arith_twoDigits op (hd1 k) hc h.symm
    exact ⟨congrArg _ (intoRegister_eq_registerNext hm (reg .add rfl)),
      congrArg _ (intoRegister_eq_registerNext hm (reg .add (hx k))),
      congrArg _ (intoRegister_eq_registerNext hm (reg .sub rfl)),
      congrArg _ (intoRegister_eq_registerNext hm (reg .sub (hx k))),
      congrArg _ (modify_eq_operandNext hm (opd .add rfl)), congrArg _ (modify_eq_operandNext hm (opd .add (hx k))),
      congrArg _ (modify_eq_operandNext hm (opd .sub rfl)), congrArg _ (modify_eq_operandNext hm (opd .sub (hx k)))⟩
  case free =>
    have reg op cx := arith_notDigits (cx := cx) op (hd1 k) h
    have opd op cx := arith_notDigits (cx := cx) op (hd1 k) (and_comm.not.mp h)
    exact ⟨⟨congrArg _ (intoRegister_eq_registerNext hm (reg .add _)),
        congrArg _ (intoRegister_eq_registerNext hm (reg .add _)), congrArg _ (intoRegister_eq_registerNext hm (reg .sub _)),
        congrArg _ (intoRegister_eq_registerNext hm (reg .sub _))⟩,
      congrArg _ (modify_eq_operandNext hm (opd .add _)), congrArg _ (modify_eq_operandNext hm (opd .add _)),
      congrArg _ (modify_eq_operandNext hm (opd .sub _)), congrArg _ (modify_eq_operandNext hm (opd .sub _))⟩
  case digitsImm =>
    have opd op {cx c} (hc : cx = c) := arith_twoDigits op (hd1 (2 + m.ext)) hc h
    exact ⟨congrArg _ (modify_eq_operandNext hm (opd .add rfl)), congrArg _ (modify_eq_operandNext hm (opd .add (hx _))),
      congrArg _ (modify_eq_operandNext hm (opd .sub rfl)), congrArg _ (modify_eq_operandNext hm (opd .sub (hx _)))⟩
  case freeImm =>
    have opd op cx := arith_notDigits (cx := cx) op (hd1 (2 + m.ext)) h
    exact ⟨congrArg _ (modify_eq_operandNext hm (opd .add _)), congrArg _ (modify_eq_operandNext hm (opd .add _)),
      congrArg _ (modify_eq_operandNext hm (opd .sub _)), congrArg _ (modify_eq_operandNext hm (opd .sub _))⟩
  case digitsNeg =>
    have neg {cx c} (hc : cx = c) := arith_twoDigits .sub (hd1 k) hc ⟨hzero, h⟩
    exact ⟨congrArg _ (modify_eq_operandNext hm (neg rfl)), congrArg _ (modify_eq_operandNext hm (neg (hx k)))⟩
  case freeNeg =>
    have neg cx := arith_notDigits (cx := cx) .sub (hd1 k) (a := 0) (b := b) fun hab => h hab.2
    exact ⟨congrArg _ (modify_eq_operandNext hm (neg _)), congrArg _ (modify_eq_operandNext hm (neg _))⟩

end Sys2Proof.Machine

namespace Sys2Proof.Machine

open Sys2Proof.Claims

/-! Products (42_arithmetic.md R221, R222): the two halves that are stored are the product, and its flags are read off them. -/

section
variable {n : Nat}

/-- The lower and the upper half of a number are together the number. -/
theorem halves_append (p : Nat) : BitVec.ofNat n (p / 2 ^ n) ++ BitVec.ofNat n p = BitVec.ofNat (n + n) p := by
  apply BitVec.eq_of_toNat_eq
  rw [append_toNat, BitVec.toNat_ofNat, BitVec.toNat_ofNat, BitVec.toNat_ofNat, pow_add, Nat.mod_mul]
  ring

/-- The top bit of a double-width number is that of its upper half. -/
theorem testBit_top (hn : 0 < n) (p : Nat) : p.testBit (2 * n - 1) = (BitVec.ofNat n (p / 2 ^ n)).msb := by
  rw [BitVec.msb_eq_getLsbD_last, BitVec.getLsbD_ofNat, Nat.testBit_div_two_pow, decide_eq_true (by omega), Bool.true_and]
  congr 1
  omega

theorem toInt_eq_zero_iff (v : BitVec n) : v.toInt = 0 ↔ v = 0 := BitVec.toInt_zero ▸ BitVec.toInt_inj (y := 0)

variable (a b : BitVec n)

theorem mulUnsigned_eq_zero_iff : mulUnsigned a b = 0 ↔ a = 0 ∨ b = 0 := by
  rw [mulUnsigned, Nat.mul_eq_zero, ← BitVec.toNat_inj, ← BitVec.toNat_inj]
  rfl

theorem mulUnsigned_lt : mulUnsigned a b < 2 ^ (n + n) := by
  rw [pow_add]
  exact Nat.mul_lt_mul'' a.isLt b.isLt

theorem mulSigned_eq_toNat : mulSigned a b = (BitVec.ofInt (n + n) (a.toInt * b.toInt)).toNat := by
  rw [BitVec.toNat_ofInt, mulSigned, Nat.cast_pow, Nat.two_mul]
  rfl

theorem ofNat_mulSigned : BitVec.ofNat (n + n) (mulSigned a b) = BitVec.ofInt (n + n) (a.toInt * b.toInt) := by
  rw [mulSigned_eq_toNat, BitVec.ofNat_toNat, BitVec.setWidth_eq]

variable (hn : 0 < n)
include hn

/-- No part of a signed product is lost in twice the bits. -/
theorem toInt_ofInt_mul : (BitVec.ofInt (n + n) (a.toInt * b.toInt)).toInt = a.toInt * b.toInt := by
  have hle : a.toInt * b.toInt ≤ 2 ^ (n * 2 - 2) := BitVec.toInt_mul_toInt_le
  have hge : -(2 ^ (n * 2 - 2)) ≤ a.toInt * b.toInt := BitVec.le_toInt_mul_toInt
  have hlt : (2 ^ (n * 2 - 2) : Int) < 2 ^ (n + n - 1) := pow_lt_pow_right₀ (by decide) (by omega)
  rw [BitVec.toInt_ofInt_eq_self (by omega) (by omega) (by omega)]

theorem mulSigned_eq_zero_iff : mulSigned a b = 0 ↔ a = 0 ∨ b = 0 := by
  calc mulSigned a b = 0
    _ ↔ BitVec.ofInt (n + n) (a.toInt * b.toInt) = 0 := by
      rw [mulSigned_eq_toNat, ← BitVec.toNat_inj]
      rfl
    _ ↔ a.toInt * b.toInt = 0 := by rw [← toInt_eq_zero_iff, toInt_ofInt_mul a b hn]
    _ ↔ a = 0 ∨ b = 0 := by rw [Int.mul_eq_zero, toInt_eq_zero_iff, toInt_eq_zero_iff]

end

/-- What MULU and MULS leave of a product that is 0 just where a factor is. -/
theorem storeProduct_eq {z : Size} {r : RegNum} {p : Nat} {a b : BitVec z.bits} {s : State} (hp : p = 0 ↔ a = 0 ∨ b = 0) :
    let hi := BitVec.ofNat z.bits (p / 2 ^ z.bits)
    let f := s.flags
    storeProduct z r p s = ((s.setR z 0 hi).setR z r (BitVec.ofNat z.bits p)).setFlags
      { f with s := hi.msb, z := decide (a = 0 ∨ b = 0), c := false, vp := false } := by
  intro hi f
  rw [storeProduct, Flags.withProduct, testBit_top (Size.bits_pos z), beq_eq_decide, decide_eq_decide.mpr hp]

/-- Settles O29: the stored halves are read together as the product, which fits in twice the bits. -/
theorem mulResults : Obligations.MulResults := by
  intro z r m s _ hm s1 a b f
  have hn := Size.bits_pos z
  have hf : s1.flags = f := accessed_flags ..
  have hmulu : exec (.mulu z r m) s = .next (storeProduct z r (mulUnsigned a b) s1) :=
    congrArg Host.Outcome.next (withSource_eq hm ..)
  have hmuls : exec (.muls z r m) s = .next (storeProduct z r (mulSigned a b) s1) :=
    congrArg Host.Outcome.next (withSource_eq hm ..)
  rw [storeProduct_eq (mulUnsigned_eq_zero_iff a b), hf] at hmulu
  rw [storeProduct_eq (mulSigned_eq_zero_iff a b hn), hf] at hmuls
  refine ⟨⟨_, _, ?_, hmulu⟩, ⟨_, _, ?_, hmuls⟩⟩
  · rw [← append_toNat, halves_append, BitVec.toNat_ofNat, Nat.mod_eq_of_lt (mulUnsigned_lt a b), mulUnsigned]
  · rw [halves_append, ofNat_mulSigned, toInt_ofInt_mul a b hn]

end Sys2Proof.Machine

namespace Sys2Proof.Machine

open Sys2Proof.Claims

/-! Quotients (42_arithmetic.md R230 to R234): when each divide overflows, and what it stores when it does not. -/

/-! ### The two calculations -/

section
variable {n : Nat}

/-- The unsigned quotient and remainder are the only two numbers that the division law allows. -/
theorem divUnsigned_of_law {N d : Nat} {q rem : BitVec n} (hlaw : q.toNat * d + rem.toNat = N) (hrem : rem.toNat < d) :
    divUnsigned n N d = some ⟨q, rem, q.msb, decide (q = 0)⟩ := by
  have hq : N / d = q.toNat ∧ N % d = rem.toNat :=
    (Nat.div_mod_unique (Nat.zero_lt_of_lt hrem)).mpr ⟨by rw [← hlaw]; ring, hrem⟩
  have hz : q.toNat = 0 ↔ q = 0 := BitVec.toNat_inj (y := 0)
  simp only [divUnsigned, hq.1, hq.2, if_pos q.isLt, BitVec.ofNat_toNat, BitVec.setWidth_eq, beq_eq_decide,
    decide_eq_decide.mpr hz]

/-- A dividend whose upper half is less than the divisor has a quotient of `n` bits. -/
theorem exists_quotient_of_lt {d hi : BitVec n} (h : hi.toNat < d.toNat) (lo : BitVec n) :
    ∃ q rem : BitVec n, q.toNat * d.toNat + rem.toNat = (hi ++ lo).toNat ∧ rem.toNat < d.toNat := by
  have hrem : (hi ++ lo).toNat % d.toNat < d.toNat := Nat.mod_lt _ (Nat.zero_lt_of_lt h)
  have hq : (hi ++ lo).toNat / d.toNat < 2 ^ n := by
    refine Nat.div_lt_of_lt_mul ?_
    calc (hi ++ lo).toNat
      _ < (hi.toNat + 1) * 2 ^ n := by rw [append_toNat, Nat.succ_mul]; exact Nat.add_lt_add_left lo.isLt _
      _ ≤ d.toNat * 2 ^ n := Nat.mul_le_mul_right _ h
  refine ⟨BitVec.ofNat n ((hi ++ lo).toNat / d.toNat), BitVec.ofNat n ((hi ++ lo).toNat % d.toNat), ?_, ?_⟩
  · rw [BitVec.toNat_ofNat, BitVec.toNat_ofNat, Nat.mod_eq_of_lt hq, Nat.mod_eq_of_lt (hrem.trans d.isLt), Nat.div_add_mod']
  · rwa [BitVec.toNat_ofNat, Nat.mod_eq_of_lt (hrem.trans d.isLt)]

/-- A dividend whose upper half is not less than the divisor has no quotient of `n` bits. -/
theorem divUnsigned_of_le {d hi lo : BitVec n} (hd : d ≠ 0) (h : d.toNat ≤ hi.toNat) :
    divUnsigned n (hi ++ lo).toNat d.toNat = none := by
  have hpos : 0 < d.toNat := Nat.pos_of_ne_zero fun h => hd (BitVec.eq_of_toNat_eq h)
  have hq : 2 ^ n ≤ (hi ++ lo).toNat / d.toNat := by
    rw [Nat.le_div_iff_mul_le hpos, append_toNat, Nat.mul_comm]
    exact Nat.le_add_right_of_le (Nat.mul_le_mul_right _ h)
  simp only [divUnsigned, if_neg (Nat.not_lt.mpr hq)]

/-- The double-width dividend as a signed number (R234). -/
theorem signed2n_toNat (hn : 0 < n) (v : BitVec (n + n)) : signed2n n v.toNat = v.toInt := by
  have hpow : (2 : Int) ^ (2 * n) = (2 ^ (n + n - 1) * 2 : Nat) := by
    rw [Nat.two_pow_pred_mul_two (by omega), Nat.two_mul, Nat.cast_pow]
    rfl
  rw [signed2n, hpow, toInt_eq_ite v (by omega), Nat.two_mul]
  split_ifs <;> omega

theorem inSigned_iff (n : Nat) (t : Int) : outsideSigned n t = false ↔ -(2 ^ (n - 1)) ≤ t ∧ t < 2 ^ (n - 1) := by
  rw [← Bool.not_eq_true, outsideSigned_iff, not_or, Int.not_lt, Int.not_le]
  norm_cast

/-- A signed quotient in the signed range is stored as it is, with a remainder that is less than the divisor and has the
dividend's sign. -/
theorem divSigned_of_inRange (hn : 0 < n) {N : Int} {d : BitVec n} (hd : d ≠ 0) (hlo : -(2 ^ (n - 1)) ≤ N.tdiv d.toInt)
    (hhi : N.tdiv d.toInt < 2 ^ (n - 1)) :
    ∃ q rem : BitVec n, q.toInt * d.toInt + rem.toInt = N ∧ rem.toInt.natAbs < d.toInt.natAbs ∧
      (rem = 0 ∨ (rem.toInt < 0 ↔ N < 0)) ∧
      divSigned n .truncate N d.toInt = some ⟨q, rem, decide (q.toInt < 0), decide (q = 0)⟩ := by
  have hdi : d.toInt ≠ 0 := (toInt_eq_zero_iff d).not.mpr hd
  have habs : (N.tmod d.toInt).natAbs < d.toInt.natAbs := by
    rw [Int.natAbs_tmod]
    exact Nat.mod_lt _ (Int.natAbs_pos.mpr hdi)
  have hq : (BitVec.ofInt n (N.tdiv d.toInt)).toInt = N.tdiv d.toInt := BitVec.toInt_ofInt_eq_self hn hlo hhi
  have hrem : (BitVec.ofInt n (N.tmod d.toInt)).toInt = N.tmod d.toInt := by
    have hdlo := d.le_toInt
    have hdhi := d.toInt_lt
    exact BitVec.toInt_ofInt_eq_self hn (by omega) (by omega)
  refine ⟨BitVec.ofInt n (N.tdiv d.toInt), BitVec.ofInt n (N.tmod d.toInt), ?_, ?_, ?_, ?_⟩
  · rw [hq, hrem, Int.tdiv_mul_add_tmod]
  · rwa [hrem]
  · rw [hrem]
    by_cases hdvd : d.toInt ∣ N
    · left
      rw [Int.tmod_eq_zero_of_dvd hdvd]
      rfl
    · right
      rw [← Int.sign_eq_neg_one_iff_neg, Int.sign_tmod, if_neg hdvd, Int.sign_eq_neg_one_iff_neg]
  · have hz : N.tdiv d.toInt = 0 ↔ BitVec.ofInt n (N.tdiv d.toInt) = 0 := by rw [← toInt_eq_zero_iff, hq]
    have hr : N - N.tdiv d.toInt * d.toInt = N.tmod d.toInt := by rw [Int.tmod_def, Int.mul_comm]
    simp only [divSigned, roundedQuot, hr, (inSigned_iff n _).mpr ⟨hlo, hhi⟩, Bool.false_eq_true, if_false, beq_eq_decide,
      decide_eq_decide.mpr hz, hq]
    rfl

/-- A signed quotient out of range is an overflow. -/
theorem divSigned_of_outside {N d : Int} (h : N.tdiv d < -(2 ^ (n - 1)) ∨ 2 ^ (n - 1) ≤ N.tdiv d) :
    divSigned n .truncate N d = none := by
  simp only [divSigned, roundedQuot, (outsideSigned_iff _).mpr (mod_cast h), if_true]

end

/-! ### The two instructions -/

section
variable {z : Size} {r : RegNum} {m : Rm} {s : State}

theorem dividend_eq_toNat (z : Size) (r : RegNum) (s : State) :
    s.dividend z r = (s.getR z 0 ++ s.getR z r).toNat := (append_toNat ..).symm

/-- DIVU by a number that is not 0. -/
theorem exec_divu (hm : m.wellFormed = true) (hd : operand z (1 + m.ext) m s ≠ 0) :
    let s1 := accessed z (1 + m.ext) m s
    let n := s1.getR z 0 ++ s1.getR z r
    let d := operand z (1 + m.ext) m s
    exec (.divu z r m) s = .next (storeQuotient z r (divUnsigned z.bits n.toNat d.toNat)
      (Config.divOverflow z false n.toNat d.toNat) s1) := by
  intro s1 n d
  have h : exec (.divu z r m) s = _ := congrArg Host.Outcome.next (withSource_eq hm ..)
  rw [h, if_neg hd, dividend_eq_toNat]

/-- DIVS by a number that is not 0. -/
theorem exec_divs (hm : m.wellFormed = true) (hd : operand z (1 + m.ext) m s ≠ 0) :
    let s1 := accessed z (1 + m.ext) m s
    let n := s1.getR z 0 ++ s1.getR z r
    let d := operand z (1 + m.ext) m s
    exec (.divs z r m) s = .next (storeQuotient z r (divSigned z.bits .truncate n.toInt d.toInt)
      (Config.divOverflow z true n.toNat d.toNat) s1) := by
  intro s1 n d
  have h : exec (.divs z r m) s = _ := congrArg Host.Outcome.next (withSource_eq hm ..)
  rw [h, if_neg hd, dividend_eq_toNat, signed2n_toNat (Size.bits_pos z), Config.divsRounding]

/-- A divide by 0, of either kind. -/
theorem exec_divide_by_zero (hm : m.wellFormed = true) (hd : operand z (1 + m.ext) m s = 0) :
    ∀ i ∈ [Instr.divu z r m, .divs z r m], exec i s =
      .next ((accessed z (1 + m.ext) m s).raise .divideByZero s.pgc (accessed z (1 + m.ext) m s).pgc) := by
  have hdivu : exec (.divu z r m) s = _ := congrArg Host.Outcome.next (withSource_eq hm ..)
  have hdivs : exec (.divs z r m) s = _ := congrArg Host.Outcome.next (withSource_eq hm ..)
  rw [if_pos hd] at hdivu hdivs
  exact List.forall_mem_cons.mpr ⟨hdivu, List.forall_mem_singleton.mpr hdivs⟩

end

/-- Settles O30: the quotient and remainder of the division law are the ones stored. -/
theorem divuResults : Obligations.DivuResults := by
  intro z r m s _ hm s1 d f h
  have hd : d ≠ 0 := fun h0 => absurd (h0 ▸ h) (Nat.not_lt_zero _)
  obtain ⟨q, rem, hlaw, hrem⟩ := exists_quotient_of_lt h (s1.getR z r)
  refine ⟨q, rem, hlaw.trans (append_toNat ..), hrem, ?_⟩
  rw [exec_divu hm hd, divUnsigned_of_law hlaw hrem, storeQuotient, accessed_flags]

/-- Settles O31, as O30 with the law of signed numbers. -/
theorem divsResults : Obligations.DivsResults := by
  intro z r m s _ hm s1 d n f hd hlo hhi
  obtain ⟨q, rem, hlaw, hrem, hsign, hq⟩ := divSigned_of_inRange (Size.bits_pos z) hd hlo hhi
  refine ⟨q, rem, hlaw, hrem, hsign, ?_⟩
  rw [exec_divs hm hd, hq, storeQuotient, accessed_flags]

/-- Settles O32: without a quotient that fits, the open values are stored. -/
theorem divOverflowResults : Obligations.DivOverflowResults := by
  intro z r m s _ hm s1 d n f stored
  refine ⟨fun hd h => ?_, fun hd h => ?_⟩
  · rw [exec_divu hm hd, divUnsigned_of_le hd h, storeQuotient, accessed_flags]
    rfl
  · rw [exec_divs hm hd, divSigned_of_outside h, storeQuotient, accessed_flags]
    rfl

/-- Settles O33: the trap comes after the operand is read and before anything else is written. -/
theorem divideByZeroTraps : Obligations.DivideByZeroTraps := by
  intro z r m s hm hd i hi s1
  have hrepr : s1.reprA = s.reprA := by simp [s1, accessed, resolved]
  have hexec : exec i s = .next (s1.trap .divideByZero (if s.reprA then s.pgc - 2 else s1.pgc)) :=
    hrepr ▸ exec_divide_by_zero hm hd i hi
  refine ⟨hexec, fun t ht => ?_⟩
  cases hexec.symm.trans ht
  exact ⟨accessed_flags .., by simp [s1, accessed, resolved, TrapCause.irlOnEntry], fun j => s1.getP_trap_of_ne _ _, rfl⟩

end Sys2Proof.Machine

namespace Sys2Proof.Machine

open Sys2Proof.Claims

/-! A multiply and then a divide (42_arithmetic.md R237 law 6): what the second instruction finds in the registers that the
first wrote. -/

/-- Two names of one size lie in different P registers, or are the low and the middle byte of one. -/
theorem byteHome_ne : ∀ i j : RegNum, i ≠ j →
    byteHome j ≠ byteHome i ∨ byteHome j = byteHome i ∧ j.getLsbD 2 = !i.getLsbD 2 := by decide

/-- A write through a name leaves what every other name of the same size reads. -/
theorem State.getR_setR_of_ne (s : State) (z : Size) {i j : RegNum} (v : BitVec z.bits) (h : j ≠ i) :
    (s.setR z i v).getR z j = s.getR z j := by
  cases z with
  | b =>
    obtain hne | ⟨heq, hbit⟩ := byteHome_ne i j h.symm
    · simp only [State.getR, State.getP_setR_of_ne s .b v hne]
    · cases hi : i.getLsbD 2 <;> rw [hi] at hbit
      · have hv := v.isLt
        simp only [State.setR, State.getR, hi, hbit, heq, Bool.not_false, Bool.false_eq_true, if_false, if_true,
          State.getP_setP_self]
        apply BitVec.eq_of_toNat_eq
        rw [BitVec.extractLsb'_toNat, BitVec.extractLsb'_toNat, ptr_low, BitVec.extractLsb'_toNat]
        simp only [Nat.shiftRight_eq_div_pow, Size.bits] at *
        omega
      · simp only [State.setR, State.getR, hi, hbit, heq, Bool.not_true, Bool.false_eq_true, if_false, if_true,
          State.getP_setP_self]
        exact BitVec.extractLsb'_append_eq_right
  | w | p => simp only [State.getR, State.getP_setR_of_ne s _ v h]

section
variable {z : Size} {r q : RegNum} {s t : State}

/-- A Register-mode source is read where it is, after the fetch. -/
theorem accessed_reg (z : Size) (k : Nat) (q : RegNum) (s : State) : accessed z k (.reg q) s = s.advance k := rfl

theorem operand_reg (z : Size) (k : Nat) (q : RegNum) (s : State) : operand z k (.reg q) s = s.getR z q :=
  State.getR_congr (s.advance_p k) z q

theorem getR_advance (z : Size) (k : Nat) (q : RegNum) (s : State) : (s.advance k).getR z q = s.getR z q :=
  State.getR_congr (s.advance_p k) z q

theorem getR_setFlags (z : Size) (q : RegNum) (f : Flags) (s : State) : (s.setFlags f).getR z q = s.getR z q :=
  State.getR_congr (s.setFlags_p f) z q

/-- The registers after MULU by a register: the two halves of the product, and the factor as it was. -/
theorem getR_of_mulu (hr : r ≠ 0) (hq : q ≠ 0) (hqr : q ≠ r) (h : exec (.mulu z r (.reg q)) s = .next t) :
    (t.getR z 0 ++ t.getR z r).toNat = (s.getR z r).toNat * (s.getR z q).toNat ∧ t.getR z q = s.getR z q := by
  obtain ⟨⟨hi, lo, hprod, hexec⟩, -⟩ := mulResults z r (.reg q) s hr rfl
  cases hexec.symm.trans h
  rw [accessed_reg, operand_reg, getR_advance] at hprod
  simp only [getR_setFlags, State.getR_setR_self, State.getR_setR_of_ne _ z _ hr.symm, State.getR_setR_of_ne _ z _ hq,
    State.getR_setR_of_ne _ z _ hqr, accessed_reg, getR_advance, append_toNat, hprod, and_self]

end

/-- Settles O34: the factor and 0 are a quotient and a remainder of the product, so they are the ones stored. -/
theorem mulThenDivRestores : Obligations.MulThenDivRestores := by
  intro z r q s t hr hq hqr hs h
  obtain ⟨hprod, hfactor⟩ := getR_of_mulu hr hq hqr h
  have hd : operand z (1 + (Rm.reg q).ext) (.reg q) t = s.getR z q := (operand_reg ..).trans hfactor
  have hpos : 0 < (s.getR z q).toNat := Nat.pos_of_ne_zero fun h => hs (BitVec.eq_of_toNat_eq h)
  have hquot : divUnsigned z.bits (t.getR z 0 ++ t.getR z r).toNat (s.getR z q).toNat =
      some ⟨s.getR z r, 0, (s.getR z r).msb, decide (s.getR z r = 0)⟩ := divUnsigned_of_law hprod.symm hpos
  have hexec := exec_divu (r := r) (s := t) (m := .reg q) rfl (hd ▸ hs)
  simp only [hd, accessed_reg, getR_advance, hquot, storeQuotient] at hexec
  refine ⟨_, hexec, ?_, ?_, rfl⟩
  · rw [getR_setFlags, State.getR_setR_of_ne _ z _ hr, State.getR_setR_self]
  · rw [getR_setFlags, State.getR_setR_self]

end Sys2Proof.Machine

namespace Sys2Proof.Machine

open Sys2Proof.Claims

/-! Double-width addition (42_arithmetic.md R237 law 4): ADD on the low halves, then ADX on the high halves. -/

/-- A sum with its carry is the sum of numbers, so the carry tells whether it left the width. -/
theorem eq_add_of_carry {n : Nat} {a b v : BitVec n} {c : Bool} (h : v.toNat + 2 ^ n * c.toNat = a.toNat + b.toNat) :
    v = a + b ∧ (c = true ↔ 2 ^ n ≤ a.toNat + b.toNat) := by
  have hv := v.isLt
  refine ⟨?_, ?_⟩
  · apply BitVec.eq_of_toNat_eq
    rw [BitVec.toNat_add, ← h, Nat.add_mul_mod_self_left, Nat.mod_eq_of_lt hv]
  · cases c <;> simp only [Bool.toNat_false, Bool.toNat_true, Bool.false_eq_true, false_iff, true_iff] at h ⊢ <;> omega

/-- The carry of the low halves, added to the high halves, makes the double-width sum exact. -/
theorem addCore_chain {n : Nat} (ah al bh bl : BitVec n) :
    let low := addCore al bl false
    let high := addCore ah bh low.c
    (high.res ++ low.res).toNat + 2 ^ (n + n) * high.c.toNat = (ah ++ al).toNat + (bh ++ bl).toNat := by
  intro low high
  have hlow : low.res.toNat + 2 ^ n * low.c.toNat = al.toNat + bl.toNat + 0 := addCore_exact al bl false
  have hhigh : high.res.toNat + 2 ^ n * high.c.toNat = ah.toNat + bh.toNat + low.c.toNat := addCore_exact ah bh low.c
  simp only [append_toNat, pow_add]
  linear_combination 2 ^ n * hhigh + hlow

section
variable {z : Size} {r q : RegNum} {s t : State}

/-- What an addition of a register to a register, with a carry, leaves. -/
theorem registers_of_sum {c : Bool} (h : t = registerNext z r (.reg q) s (sum c)) :
    let v := addCore (s.getR z r) (s.getR z q) c
    t.getR z r = v.res ∧ (∀ j, j ≠ r → t.getR z j = s.getR z j) ∧ t.flags.c = v.c ∧ t.flags.x = v.c ∧
      t.flags.d = s.flags.d := by
  intro v
  have ht : t = ((s.advance (1 + (Rm.reg q).ext)).setFlags
      (alsoX (sumFlags (s.getR z r) (s.getR z q) c s.flags))).setR z r v.res := by
    simp only [h, v, registerNext, accessed_reg, operand_reg, getR_advance, sum, addCore_res, State.advance_flags]
  have hflags : t.flags = alsoX (sumFlags (s.getR z r) (s.getR z q) c s.flags) := by rw [ht, State.setR_flags]; rfl
  refine ⟨?_, fun j hj => ?_, congrArg Flags.c hflags, congrArg Flags.x hflags, (congrArg Flags.d hflags).trans rfl⟩
  · rw [ht, State.getR_setR_self]
  · rw [ht, State.getR_setR_of_ne _ z _ hj, getR_setFlags, getR_advance]

end

/-- Settles O35: the registers and the carry that the first addition leaves are those that the second one reads. -/
theorem addAdxChain : Obligations.AddAdxChain := by
  intro z lo hi lo' hi' s t u hd hhi hhi' hadd hadx
  obtain ⟨addReg, -⟩ := addResults z lo (.reg lo') 0 s rfl hd
  obtain ⟨tlo, tother, -, tx, td⟩ := registers_of_sum (Host.Outcome.next.inj (hadd.symm.trans addReg))
  obtain ⟨-, adxReg, -⟩ := addResults z hi (.reg hi') 0 t rfl (td ▸ hd)
  obtain ⟨uhi, uother, uc, ux, -⟩ := registers_of_sum (Host.Outcome.next.inj (hadx.symm.trans adxReg))
  rw [tother hi hhi, tother hi' hhi', tx] at uhi uc ux
  obtain ⟨hsum, hcarry⟩ :=
    eq_add_of_carry (addCore_chain (s.getR z hi) (s.getR z lo) (s.getR z hi') (s.getR z lo'))
  refine ⟨?_, ux.trans uc.symm, ?_⟩
  · rw [uhi, uother lo hhi.symm, tlo]
    exact hsum
  · rw [uc, Nat.two_mul]
    exact hcarry

end Sys2Proof.Machine

namespace Sys2Proof.Machine

open Sys2Proof.Claims

/-! Logic (43_logic.md R240 to R254): the model's flags of a result are those of R240, and each form is that calculation on the
operands as read. -/

/-- The number of elements that satisfy a predicate, as the sum of its values. -/
theorem countP_eq_sum_toNat {α : Type} (p : α → Bool) (l : List α) :
    l.countP p = (l.map fun k => (p k).toNat).sum := by
  induction l with
  | nil => rfl
  | cons k l ih =>
    rw [List.countP_cons, ih, List.map_cons, List.sum_cons, Nat.add_comm]
    cases p k <;> rfl

section
variable {n : Nat} (res : BitVec n) (s : State)

/-- VP of a logic result: the number of its 1 bits is even. -/
theorem parityEven_eq_decide : parityEven res = decide (ones res % 2 = 0) := by
  rw [parityEven, countP_eq_sum_toNat]
  exact beq_eq_decide _ _

/-- The model's logic result with its flags is that of R240. -/
theorem logic_eq_logicNext : logic res s = logicNext res s := by
  rw [logic, Flags.withLogic, isZero_eq_decide, parityEven_eq_decide]
  rfl

end

/-- The three forms of a logic operation on two operands. -/
theorem logic_forms_eq_next {z : Size} {m : Rm} (hm : m.wellFormed = true) (r : RegNum) (imm : Ptr) (s : State)
    (op : BitVec z.bits → BitVec z.bits → BitVec z.bits) :
    intoRegister z r m s (fun a b u => logic (op a b) u) = registerNext z r m s (fun a b u => logicNext (op a b) u) ∧
    intoOperand z m r s (fun a b u => logic (op a b) u) =
      operandNext z (1 + m.ext) m s (fun a u => logicNext (op a (u.getR z r)) u) ∧
    immIntoOperand z m imm s (fun a b u => logic (op a b) u) =
      operandNext z (1 + z.immWords + m.ext) m s (fun a u => logicNext (op a (imm.setWidth z.bits)) u) :=
  forms_eq_next hm r imm fun a b u _ => logic_eq_logicNext (op a b) u

/-- Settles O36: AND, XOR and OR in their three forms, CPL on its operand, and TST without a result. -/
theorem logicResults : Obligations.LogicResults := by
  intro z r m imm s hm
  obtain ⟨andReg, andOperand, andImm⟩ := logic_forms_eq_next (z := z) hm r imm s fun a b => a &&& b
  obtain ⟨xorReg, xorOperand, xorImm⟩ := logic_forms_eq_next (z := z) hm r imm s fun a b => a ^^^ b
  obtain ⟨orReg, orOperand, orImm⟩ := logic_forms_eq_next (z := z) hm r imm s fun a b => a ||| b
  simp only [List.forall_mem_cons, List.not_mem_nil, IsEmpty.forall_iff, implies_true, and_true]
  refine ⟨⟨congrArg _ andReg, congrArg _ xorReg, congrArg _ orReg⟩,
    ⟨congrArg _ andOperand, congrArg _ xorOperand, congrArg _ orOperand⟩,
    ⟨congrArg _ andImm, congrArg _ xorImm, congrArg _ orImm⟩, ?cpl, ?tst⟩
  case cpl => exact congrArg Host.Outcome.next (modify_eq_operandNext hm (logic_eq_logicNext _ _))
  case tst =>
    exact congrArg Host.Outcome.next ((withSource_eq hm ..).trans (congrArg Prod.snd (logic_eq_logicNext _ _)))

end Sys2Proof.Machine

namespace Sys2Proof.Machine

open Sys2Proof.Claims

/-! Shifts and rotates (44_shift.md R260 to R267). The model builds every result by one of two moves, `shiftIn` to the left and
`shiftDown` to the right; what each move does to the bits gives the results and the VP of all seven operations. -/

section
variable {n : Nat} (a : BitVec n) (b : Bool)

/-! ### The move to the left -/

theorem shiftIn_eq_shiftConcat : shiftIn a b = a.shiftConcat b := by
  ext i
  cases i <;> simp [shiftIn, BitVec.getElem_shiftConcat]

theorem shiftIn_eq_ofNat : shiftIn a b = BitVec.ofNat n (2 * a.toNat + b.toNat) := by
  apply BitVec.eq_of_toNat_eq
  rw [shiftIn_eq_shiftConcat, BitVec.toNat_shiftConcat, BitVec.toNat_ofNat, Nat.shiftLeft_eq, pow_one, Nat.mul_comm]

theorem msb_shiftIn (hn : 2 ≤ n) : (shiftIn a b).msb = a.getLsbD (n - 2) := by
  have hlast : n - 1 < n ∧ n - 1 ≠ 0 := by omega
  simp only [BitVec.msb_eq_getLsbD_last, shiftIn_eq_shiftConcat, BitVec.getLsbD_shiftConcat, hlast, decide_true,
    Bool.true_and, if_false, Nat.sub_sub]

/-- The top bit entering at the bottom is a rotation (R266). -/
theorem shiftIn_msb (hn : 2 ≤ n) : shiftIn a a.msb = a.rotateLeft 1 := by
  ext i hi
  simp only [shiftIn_eq_shiftConcat, BitVec.getElem_shiftConcat, BitVec.getElem_rotateLeft, Nat.mod_eq_of_lt hn]
  cases i with
  | zero => simp [BitVec.msb_eq_getLsbD_last, hi]
  | succ i => simp

/-! ### The move to the right -/

theorem getElem_shiftDown {i : Nat} (hi : i < n) : (shiftDown a b)[i] = if 1 + i = n then b else a.getLsbD (1 + i) := by
  split
  next htop =>
    obtain rfl := htop
    simp [shiftDown]
  next htop =>
    have hlow : i < n - 1 := by omega
    simp [shiftDown, hlow]

theorem msb_shiftDown (hn : 0 < n) : (shiftDown a b).msb = b := by
  have hlast : 1 + (n - 1) = n := Nat.add_sub_cancel' hn
  rw [BitVec.msb_eq_getLsbD_last, BitVec.getLsbD_eq_getElem (by omega), getElem_shiftDown, if_pos hlast]

theorem shiftDown_false : shiftDown a false = a >>> 1 := by
  simp [shiftDown]

/-- The sign entering at the top is an arithmetic shift (R262). -/
theorem shiftDown_msb : shiftDown a a.msb = a.sshiftRight 1 := by
  ext i hi
  rw [getElem_shiftDown, BitVec.getElem_sshiftRight]
  split
  next htop => simp [htop]
  next htop =>
    have hlow : 1 + i < n := by omega
    simp [hlow]

/-- Bit 0 entering at the top is a rotation (R267). -/
theorem shiftDown_lsb (hn : 2 ≤ n) : shiftDown a (a.getLsbD 0) = a.rotateRight 1 := by
  ext i hi
  simp only [getElem_shiftDown, BitVec.getElem_rotateRight, Nat.mod_eq_of_lt hn]
  split
  next htop =>
    obtain rfl := htop
    simp
  next htop =>
    have hlow : i < n - 1 ∧ 1 + i < n := by omega
    simp [hlow]

/-- The bit that enters is put above the operand, and bit 0 dropped. -/
theorem shiftDown_eq_setWidth_cons : shiftDown a b = ((BitVec.cons b a) >>> 1).setWidth n := by
  ext i hi
  rw [getElem_shiftDown, BitVec.getElem_setWidth, BitVec.getLsbD_ushiftRight, BitVec.getLsbD_cons]

theorem shiftDown_eq_ofNat (hn : 0 < n) : shiftDown a b = BitVec.ofNat n (b.toNat * 2 ^ (n - 1) + a.toNat / 2) := by
  have hhalf : (b.toNat * 2 ^ n + a.toNat) / 2 = b.toNat * 2 ^ (n - 1) + a.toNat / 2 := by
    rw [← Nat.pow_pred_mul hn, ← Nat.mul_assoc, Nat.mul_comm _ 2, Nat.mul_add_div two_pos]
  apply BitVec.eq_of_toNat_eq
  rw [shiftDown_eq_setWidth_cons, BitVec.toNat_setWidth, BitVec.toNat_ushiftRight, BitVec.toNat_cons', BitVec.toNat_ofNat,
    Nat.shiftLeft_eq, Nat.shiftRight_eq_div_pow, pow_one, hhalf]

end

/-! ### The seven operations -/

theorem msb_shiftIn_bne_msb {n : Nat} (a : BitVec n) (b : Bool) (hn : 2 ≤ n) :
    ((shiftIn a b).msb != a.msb) = topBitsDiffer a := by
  rw [msb_shiftIn a b hn, topBitsDiffer, bne_comm]

theorem msb_shiftDown_bne_msb {n : Nat} (a : BitVec n) (b : Bool) (hn : 0 < n) :
    ((shiftDown a b).msb != a.msb) = (b != a.msb) := by
  rw [msb_shiftDown a b hn]

theorem shift_eq_shiftNext {n : Nat} (op : ShiftOp) (a : BitVec n) (s : State) :
    shift op a s = shiftNext (op.res a s.flags.x) (op.out a) (op.vp a (op.res a s.flags.x)) s := by
  rw [shift, isZero_eq_decide]
  rfl

theorem Size.two_le_bits (z : Size) : 2 ≤ z.bits := by cases z <;> decide

/-- A shift of a well-formed operand, from its result and its VP for every value the operand may have. -/
theorem modify_shift {z : Size} {m : Rm} {s : State} (hm : m.wellFormed = true) {k : Nat} (op : ShiftOp)
    {res : BitVec z.bits → BitVec z.bits} {vp : BitVec z.bits → Bool}
    (h : ∀ a, op.res a s.flags.x = res a ∧ op.vp a (op.res a s.flags.x) = vp a) :
    modify z k m s (shift op) = operandNext z k m s fun a s1 => shiftNext (res a) (op.out a) (vp a) s1 := by
  refine modify_eq_operandNext hm ?_
  obtain ⟨hres, hvp⟩ := h (operand z k m s)
  rw [shift_eq_shiftNext, accessed_flags, hvp, hres]

/-- Settles O38: each operation is one of the two moves, and the bit that enters decides its result and its VP. -/
theorem shiftResults : Obligations.ShiftResults := by
  intro z m s hm x
  have hbits : 2 ≤ z.bits := Size.two_le_bits z
  have hpos : 0 < z.bits := Size.bits_pos z
  exact ⟨congrArg _ (modify_shift hm .sla fun a => ⟨shiftIn_eq_ofNat a false, msb_shiftIn_bne_msb a false hbits⟩),
    congrArg _ (modify_shift hm .sra fun a => ⟨shiftDown_msb a, rfl⟩),
    congrArg _ (modify_shift hm .srl fun a =>
      ⟨shiftDown_false a, (msb_shiftDown_bne_msb a false hpos).trans (Bool.false_bne _)⟩),
    congrArg _ (modify_shift hm .rl fun a => ⟨shiftIn_eq_ofNat a x, msb_shiftIn_bne_msb a x hbits⟩),
    congrArg _ (modify_shift hm .rr fun a => ⟨shiftDown_eq_ofNat a x hpos, msb_shiftDown_bne_msb a x hpos⟩),
    congrArg _ (modify_shift hm .rlc fun a => ⟨shiftIn_msb a hbits, msb_shiftIn_bne_msb a a.msb hbits⟩),
    congrArg _ (modify_shift hm .rrc fun a =>
      ⟨shiftDown_lsb a hbits, msb_shiftDown_bne_msb a (a.getLsbD 0) hpos⟩)⟩

end Sys2Proof.Machine

namespace Sys2Proof.Machine

open Sys2Proof.Claims

/-! Bit instructions (45_bit.md R280 to R288): what the mask of a bit number does to a byte, and the eight forms by where they
take the bit number from. -/

/-! ### The mask of a bit number -/

section
variable (a : Byte) (k : BitVec 3)

theorem getLsbD_bitMask (j : Nat) : (bitMask k).getLsbD j = decide (j = k.toNat) := by
  have hk : k.toNat < 8 := k.isLt
  have hmask : bitMask k = BitVec.twoPow 8 k.toNat := rfl
  rw [hmask, BitVec.getLsbD_twoPow, decide_eq_true hk, Bool.true_and, decide_eq_decide, eq_comm]

theorem bitReplaced_xor_bitMask : bitReplaced a (a ^^^ bitMask k) k (!a.getLsbD k.toNat) := by
  intro j _
  rw [BitVec.getLsbD_xor, getLsbD_bitMask]
  split <;> simp [*]

theorem bitReplaced_and_not_bitMask : bitReplaced a (a &&& ~~~bitMask k) k false := by
  intro j hj
  rw [BitVec.getLsbD_and, BitVec.getLsbD_not, getLsbD_bitMask]
  split <;> simp [*]

theorem bitReplaced_or_bitMask : bitReplaced a (a ||| bitMask k) k true := by
  intro j _
  rw [BitVec.getLsbD_or, getLsbD_bitMask]
  split <;> simp [*]

end

/-- The model takes the bit number of the M0 forms straight out of P0: M0 is bits 15:8 of it (R22). -/
theorem State.m0Bit_eq (s : State) : s.m0Bit = (s.getR .b 4).extractLsb' 0 3 := by
  have hM0 : s.getR .b 4 = (s.getP 0).extractLsb' 8 8 := rfl
  rw [hM0, State.m0Bit]
  ext i hi
  have hlow : i < 8 := by omega
  simp [hlow]

/-! ### The forms -/

section
variable {m : Rm} (hm : m.wellFormed = true) {n : Nat} {s : State} (number : State → BitVec 3) {k : BitVec 3}
  (hk : number (accessed .b n m s) = k)
include hm hk

/-- A test without a result, of the bit that `number` gives once the operand has been read. -/
theorem withSource_testBit :
    withSource .b n m s (fun a u => u.testBit a (number u)) = bitTested (operand .b n m s) k (accessed .b n m s) :=
  hk ▸ withSource_eq hm ..

/-- A test with the operand combined with the mask of that bit, which gives that bit of the operand the value `b`. -/
theorem modify_testBit (op : Byte → Byte → Byte) {b : Bool}
    (h : bitReplaced (operand .b n m s) (op (operand .b n m s) (bitMask k)) k b) :
    ∃ v : Byte, bitReplaced (operand .b n m s) v k b ∧
      (.next (modify .b n m s fun a u => (op a (bitMask (number u)), u.testBit a (number u))) :
          Host.Outcome State Fault Refusal) =
        .next (writeOp (place .b n m s) v (bitTested (operand .b n m s) k (accessed .b n m s))) :=
  ⟨_, h, hk ▸ congrArg _ (modify_wellFormed hm ..)⟩

end

/-- Settles O39: the forms with the bit number in the word, then those with it in M0. -/
theorem bitResults : Obligations.BitResults := by
  intro k m s hm s1 a l done
  refine ⟨?word, ?m0⟩
  case word =>
    exact ⟨congrArg _ (withSource_testBit hm (fun _ => k) rfl),
      modify_testBit hm (fun _ => k) rfl (· ^^^ ·) (bitReplaced_xor_bitMask a k),
      modify_testBit hm (fun _ => k) rfl (· &&& ~~~·) (bitReplaced_and_not_bitMask a k),
      modify_testBit hm (fun _ => k) rfl (· ||| ·) (bitReplaced_or_bitMask a k)⟩
  case m0 =>
    intro k0
    have hk : s1.m0Bit = k0 := s1.m0Bit_eq
    exact ⟨congrArg _ (withSource_testBit hm State.m0Bit hk),
      modify_testBit hm State.m0Bit hk (· ^^^ ·) (bitReplaced_xor_bitMask a k0),
      modify_testBit hm State.m0Bit hk (· &&& ~~~·) (bitReplaced_and_not_bitMask a k0),
      modify_testBit hm State.m0Bit hk (· ||| ·) (bitReplaced_or_bitMask a k0)⟩

end Sys2Proof.Machine

namespace Sys2Proof.Machine

open Sys2Proof.Claims

/-! Control flow (46_control_flow.md R290 to R309, 48_macros.md R349, R350): the offsets as numbers, the pops of RET and RETI,
and RET as the inverse of the push that every call makes. -/

/-! ### Offsets (R301, R309) -/

/-- A short offset counts words. -/
theorem shortOffset_eq (o : BitVec 8) : shortOffset o = BitVec.ofInt 24 (2 * o.toInt) := by
  rw [Int.mul_comm, BitVec.ofInt_mul]
  rfl

/-- An offset of 7 bits with a 1 put before them is a number of 8 bits that is negative. -/
theorem toInt_oneExtended (o : BitVec 7) : (1#1 ++ o).toInt = (o.toNat : Int) - 128 := by
  have ho := o.isLt
  have hval : (1#1 ++ o).toNat = 128 + o.toNat := append_toNat 1#1 o
  rw [BitVec.toInt_eq_toNat_cond, hval]
  split <;> omega

/-- The targets of RST lie 16 bytes apart (R308). -/
theorem rstTarget_eq (n : Byte) : 0xFFD000 + BitVec.ofNat 24 (16 * n.toNat) = 0xFFD000 + 16 * n.setWidth 24 := by
  rw [BitVec.ofNat_mul, BitVec.ofNat_toNat]
  rfl

/-! ### Registers and reads -/

/-- Of two writes to one register the second stays. -/
@[simp] theorem State.setP_setP (s : State) (i : RegNum) (v w : Ptr) : (s.setP i v).setP i w = s.setP i w := by
  simp [State.setP]

/-- What a read of memory alone finds does not depend on what the platform has seen. -/
theorem State.memRead_p_congr_of_isMemory {s t : State} (hmem : t.mem = s.mem) (hmap : t.map = s.map) {a : Ptr}
    (h : ∀ b ∈ touched .p a, s.isMemory b = true) : t.memRead .p a = s.memRead .p a := by
  have ht : ∀ b ∈ touched .p a, t.isMemory b = true := fun b hb => (State.isMemory_congr hmap b).trans (h b hb)
  rw [State.memRead_p_of_isMemory h, State.memRead_p_of_isMemory ht]
  simp only [touched, List.forall_mem_cons] at h
  obtain ⟨h0, h1, h2, -⟩ := h
  rw [State.byteAt_congr hmem hmap h0, State.byteAt_congr hmem hmap h1, State.byteAt_congr hmem hmap h2]

/-! ### Jumps and returns -/

/-- An instruction of one word whose source is `@SP+` goes on with the cell at SP, above which SP then stands. -/
theorem withSource_pop (z : Size) (s : State) (body : BitVec z.bits → State → State) :
    withSource z 1 (.postInc 7) s body =
      body ((s.advance 1).memRead z (s.getP 7)) (((s.advance 1).setP 7 (s.getP 7 + stackStep z)).didRead z (s.getP 7)) := by
  have hread : ((s.advance 1).setP 7 (s.getP 7 + stackStep z)).memRead z (s.getP 7) = (s.advance 1).memRead z (s.getP 7) :=
    State.memRead_congr rfl rfl rfl z _
  rw [← hread, ← stepOf_sp]
  rfl

/-- The pop of PGC (48_macros.md R349). -/
theorem jumpToValue_pop (s : State) :
    jumpToValue (.postInc 7) s =
      (((s.advance 1).setP 7 (s.getP 7 + 4)).didRead .p (s.getP 7)).setPgc ((s.advance 1).memRead .p (s.getP 7)) :=
  withSource_pop .p s _

/-- The pop of WF (R350). -/
theorem loadStatus_pop (s : State) :
    loadStatus (.postInc 7) s =
      (((s.advance 1).setP 7 (s.getP 7 + 2)).didRead .w (s.getP 7)).setWf ((s.advance 1).memRead .w (s.getP 7)) :=
  withSource_pop .w s _

/-- RETI as its two pops: SP goes up by 2 and then by 4. -/
theorem reti_pops (s : State) :
    ∃ t, exec .reti s = .next t ∧ t.wf = (s.advance 1).memRead .w (s.getP 7) &&& 0x07CF ∧
      t.pgc = (secondPop s).memRead .p (s.getP 7 + 2) &&& 0xFFFFFE ∧ t.getP 7 = s.getP 7 + 6 ∧
      (∀ j, j ≠ 7 → t.getP j = s.getP j) ∧ t.mem = s.mem ∧ t.bus = ((secondPop s).didRead .p (s.getP 7 + 2)).bus := by
  obtain ⟨t, ht, hpgc⟩ := reti_pgc s
  have htwo : t = jumpToValue (.postInc 7) (loadStatus (.postInc 7) s) := (Host.Outcome.next.inj ht).symm
  have hsp : (loadStatus (.postInc 7) s).getP 7 = s.getP 7 + 2 := State.getP_setP_self (s.advance 1) 7 (s.getP 7 + 2)
  rw [jumpToValue_pop, hsp, loadStatus_pop, BitVec.add_assoc] at htwo
  subst htwo
  refine ⟨_, ht, ?_, hpgc, State.getP_setP_self _ 7 _, fun j hj => ?_, rfl, rfl⟩
  · rw [← State.wf_setWf (((s.advance 1).setP 7 (s.getP 7 + 2)).didRead .w (s.getP 7))]
    exact State.wf_congr rfl rfl
  · exact (State.getP_setP_of_ne _ _ hj).trans (State.getP_setP_of_ne (s.advance 1) _ hj)

/-- Settles O40: each jump is one write of PGC; RET and RETI are the pops from the stack. -/
theorem jumpResults : Obligations.JumpResults := by
  refine ⟨fun cc o s => ?short, fun v s => ⟨rfl, rfl⟩, fun m s hm => ?operand, fun s => ⟨?ret, reti_pops s⟩⟩
  case short =>
    simp only [← shortOffset_eq]
    exact ⟨rfl, rfl⟩
  case operand => exact congrArg Host.Outcome.next (withSource_wellFormed hm ..)
  case ret => exact congrArg Host.Outcome.next (jumpToValue_pop s)

/-! ### Calls -/

/-- Settles O41: each call is the push of `Next` and then the jump, from the state in which its target is known. -/
theorem callResults : Obligations.CallResults := by
  refine ⟨fun o s => ?short, fun v s => ⟨rfl, rfl⟩, fun m s hm => ?operand, fun n s => ?rst⟩
  case short =>
    rw [← shortOffset_eq]
    rfl
  case operand => exact congrArg Host.Outcome.next (withSource_wellFormed hm ..)
  case rst =>
    rw [← rstTarget_eq]
    rfl

/-- Settles O43: the register is 1 before it is lowered exactly if it is 0 after. -/
theorem djnzResult : Obligations.DjnzResult := by
  intro r o s
  have hzero : s.getP r - 1 = 0 ↔ s.getP r = 1 := sub_eq_zero
  rw [← toInt_oneExtended, ← shortOffset_eq]
  simp only [← hzero]
  rfl

/-! ### A call and its return (R303) -/

section
variable {i : Instr} {s b : State}

/-- Of an address that is none only the count of free values tells. -/
theorem effectiveAddress_frame {z : Size} (l : Loc z) (s : State) :
    (effectiveAddress l s).2 = { s with freeCount := (effectiveAddress l s).2.freeCount } := by cases l <;> rfl

/-- When a call pushes, its words have been fetched and nothing has been stored yet. -/
theorem callBase_fetched (hb : callBase i s = some b) :
    b.mem = s.mem ∧ b.map = s.map ∧ ∃ k, b.pgc = (s.advance k).pgc := by
  unfold callBase at hb
  split at hb <;> cases hb
  case h_5 m => -- CALL rm24
    exact ⟨(afterRead_mem ..).trans (autoModify_mem ..), (afterRead_map ..).trans (autoModify_map ..), 1 + m.ext,
      (afterRead_pgc ..).trans (autoModify_pgc ..)⟩
  case h_6 m => -- CEA
    exact ⟨autoModify_mem .., autoModify_map .., 1 + m.ext, autoModify_pgc ..⟩
  all_goals exact ⟨rfl, rfl, _, rfl⟩

/-- Every call makes its push from `callBase`; CEA of an operand that is not in memory has first drawn a free value. -/
theorem exec_of_callBase (hm : ∀ m ∈ operandsOf i, m.wellFormed = true) (hb : callBase i s = some b) :
    ∃ n target, exec i s = .next (State.call { b with freeCount := n } target) := by
  unfold callBase at hb
  split at hb <;> cases hb
  case h_5 m => -- CALL rm24
    exact ⟨_, _, congrArg Host.Outcome.next (withSource_wellFormed (hm m (List.mem_singleton_self m)) ..)⟩
  case h_6 m => -- CEA
    have hcall := withOperand_wellFormed (hm m (List.mem_singleton_self m)) .p (1 + m.ext) s fun l s' =>
      (effectiveAddress l s').2.call (effectiveAddress l s').1
    rw [effectiveAddress_frame] at hcall
    exact ⟨_, _, congrArg Host.Outcome.next hcall⟩
  all_goals exact ⟨_, _, rfl⟩

end

section
variable {c : State}

theorem State.call_eq (c : State) (target : Ptr) :
    c.call target = ((c.memWrite .p (c.getP 7 - 4) c.pgc).setP 7 (c.getP 7 - 4)).setPgc target :=
  congrArg (State.setPgc · target) (c.push24_eq c.pgc)

/-- After a call and a pop, which read from memory, moved SP and wrote PGC, every other field is as it was. -/
theorem State.call_pop_frame (c : State) (target sp a v : Ptr) :
    ((((c.call target).advance 1).setP 7 sp).didRead .p a).setPgc v =
      { c with
        p := ((c.setP 7 (c.getP 7 - 4)).setP 7 sp).p
        pgc := v &&& 0xFFFFFE
        mem := (c.call target).mem
        bus := ((((c.call target).advance 1).setP 7 sp).didRead .p a).bus } := rfl

variable (hc : c.mem.wf = true) (hram : ∀ a ∈ touched .p (c.getP 7 - 4), c.isRam a = true)
include hc hram

/-- What a call pushed is read back, whatever has been fetched in between. -/
theorem State.memRead_call (target : Ptr) (k : Nat) : ((c.call target).advance k).memRead .p (c.getP 7 - 4) = c.pgc := by
  have hcell : ∀ b ∈ touched .p (c.getP 7 - 4), (c.memWrite .p (c.getP 7 - 4) c.pgc).isMemory b = true := fun b hb =>
    (State.isMemory_congr (c.memWrite_map .p (c.getP 7 - 4) c.pgc) b).trans (State.isMemory_of_isRam (hram b hb))
  have hmem : ((c.call target).advance k).mem = (c.memWrite .p (c.getP 7 - 4) c.pgc).mem := by
    rw [State.advance_mem, State.call_eq, State.setPgc_mem, State.setP_mem]
  have hmap : ((c.call target).advance k).map = (c.memWrite .p (c.getP 7 - 4) c.pgc).map := by
    rw [State.advance_map, State.call_eq, State.setPgc_map, State.setP_map]
  exact (State.memRead_p_congr_of_isMemory hmem hmap hcell).trans (State.memRead_memWrite_self hc (z := .p) hram c.pgc)

/-- RET takes back the push of a call whose cell is RAM: but for memory and the bus it ends in the state that made the push. -/
theorem exec_ret_call (heven : c.pgc.getLsbD 0 = false) (target : Ptr) :
    ∃ bus, exec .ret (c.call target) = .next { c with mem := (c.call target).mem, bus := bus } := by
  have hret := jumpToValue_pop (c.call target)
  rw [State.getP_call, State.memRead_call hc hram, sub_add_cancel, State.call_pop_frame, State.setP_setP, State.setP_getP,
    and_fixedZero_of_even heven] at hret
  exact ⟨_, congrArg Host.Outcome.next hret⟩

end

/-- Settles O42: a call pushes from `callBase`, and RET takes that push back. -/
theorem callThenReturn : Obligations.CallThenReturn := by
  intro i s b t hs hm hb hram h
  obtain ⟨hmem, hmap, k, hpgc⟩ := callBase_fetched hb
  obtain ⟨n, target, hcall⟩ := exec_of_callBase hm hb
  cases hcall.symm.trans h
  obtain ⟨bus, hret⟩ := exec_ret_call (c := { b with freeCount := n }) (hmem ▸ hs)
    (fun a ha => (State.isRam_congr hmap a).trans (hram a ha)) (hpgc ▸ s.advance_even k) target
  have hfetched : KeepsBytes (touched .p (b.getP 7 - 4)) s { b with freeCount := n } := .of_mem hmem hmap
  have hpushed := hfetched.trans (KeepsBytes.call { b with freeCount := n } rfl target)
  refine ⟨_, hret, rfl, KeepsBytes.bytes ?_⟩
  exact hpushed.trans (.of_mem rfl rfl)

end Sys2Proof.Machine

namespace Sys2Proof

/-! The assembler rows (48_macros.md R340 to R350): each is written as the instructions it stands for, which the decoder then
reads back by the round trip of those (30_encoding.md R110). -/

/-- What is written as a core instruction is, whatever follows it, decodes to that instruction. -/
theorem decodeWords_of_eq_encode {ws rest : List Word} {j : Instr} (h : ws = encode j ++ rest) (hj : j.wellFormed = true)
    (hcore : j.isAssemblerRow = false) : decodeWords ws = .ok j := h ▸ decodeWords_encode hj hcore rest

/-- Settles O2: the words of each row are those of the instruction named, and of RETI those of two instructions. -/
theorem assemblerRowsDecode : Obligations.AssemblerRowsDecode := by
  have alone : ∀ {row j : Instr}, encode row = encode j → j.wellFormed = true → j.isAssemblerRow = false →
      decodeWords (encode row) = .ok j := fun h =>
    decodeWords_of_eq_encode (h.trans (List.append_nil _).symm)
  refine ⟨fun z m hm => ⟨alone rfl hm rfl, alone rfl hm rfl, fun hshort => ?pop⟩, alone rfl rfl rfl, alone rfl rfl rfl,
    alone rfl rfl rfl, alone rfl rfl rfl, alone rfl rfl rfl, alone rfl rfl rfl, ?status, alone (row := .ret) rfl rfl rfl⟩
  case pop =>
    have hld : (Instr.ldRmRm z m (.postInc 7)).wellFormed = true := by
      rw [Instr.wellFormed, hm, hshort]
      rfl
    exact alone rfl hld rfl
  case status => exact decodeWords_of_eq_encode (rest := encode .ret) rfl rfl rfl

end Sys2Proof

namespace Sys2Proof.Machine

open Sys2Proof.Claims

/-! The vector table and the choice of an interrupt (60_exceptions.md R360, R368, R369). -/

/-! ### The vector table (R360) -/

/-- Settles O49: the entries are evaluated; that entry keeps the whole vector is `TrapCause.vector_even`. -/
theorem vectorTable : Obligations.VectorTable := by
  refine ⟨rfl, rfl, rfl, rfl, rfl, rfl, rfl, rfl, rfl, rfl, fun _ => rfl, rfl, fun c => ⟨rfl, ?slot⟩, fun _ => rfl,
    fun c _ _ => c.vector_even⟩
  case slot =>
    cases c with
    | irq n => cases n <;> decide
    | nmi | divideByZero | illegalInstruction => decide

/-! ### The choice of an interrupt (R368, R369) -/

theorem IrqLevel.mem_all (n : IrqLevel) : n ∈ IrqLevel.all := by cases n <;> decide

/-- The order of priority is the order of the numbers. -/
theorem IrqLevel.num_getElem_all : ∀ (k : Nat) (h : k < IrqLevel.all.length), IrqLevel.all[k].num = k + 1 := by decide

/-- Of the levels with a property the first in the order of priority is the one of the lowest number. -/
theorem IrqLevel.find?_all_eq_some_iff {p : IrqLevel → Bool} {n : IrqLevel} :
    IrqLevel.all.find? p = some n ↔ p n = true ∧ ∀ k : IrqLevel, k.num < n.num → ¬ p k = true := by
  obtain ⟨i, hi, rfl⟩ := List.getElem_of_mem n.mem_all
  rw [List.find?_eq_some_iff_getElem]
  refine and_congr_right fun hp => ⟨?_, fun hlow => ⟨i, hi, rfl, fun j hj => ?_⟩⟩
  · rintro ⟨i', hi', heq, hlow⟩ k hk
    obtain ⟨j, hj, rfl⟩ := List.getElem_of_mem k.mem_all
    rw [← heq, num_getElem_all, num_getElem_all] at hk
    simpa using hlow j (by omega)
  · have hlt : IrqLevel.all[j].num < IrqLevel.all[i].num := by
      rw [num_getElem_all, num_getElem_all]
      omega
    simpa using hlow _ hlt

section
variable {s : State} {rq : Requests}

theorem State.acceptsIrq_iff_mayTake {n : IrqLevel} : s.acceptsIrq rq n = true ↔ mayTake s rq n := by
  simp only [State.acceptsIrq, mayTake, Bool.and_eq_true, decide_eq_true_eq]

theorem State.acceptable_of_nmi (h : rq.nmi = true) : s.acceptable rq = some .nmi := if_pos h

/-- Without NMI the choice is among the IRQs. -/
theorem State.acceptable_of_not_nmi (h : rq.nmi = false) :
    s.acceptable rq = (IrqLevel.all.find? (s.acceptsIrq rq)).map .irq := if_neg (Bool.eq_false_iff.mp h)

theorem State.acceptable_eq_irq_iff (h : rq.nmi = false) {n : IrqLevel} :
    s.acceptable rq = some (.irq n) ↔ mayTake s rq n ∧ ∀ k : IrqLevel, k.num < n.num → ¬ mayTake s rq k := by
  simp only [State.acceptable_of_not_nmi h, Option.map_eq_some_iff, TrapCause.irq.injEq, exists_eq_right,
    IrqLevel.find?_all_eq_some_iff, State.acceptsIrq_iff_mayTake]

theorem State.acceptable_eq_none_iff (h : rq.nmi = false) : s.acceptable rq = none ↔ ∀ n, ¬ mayTake s rq n := by
  simp only [State.acceptable_of_not_nmi h, Option.map_eq_none_iff, List.find?_eq_none, State.acceptsIrq_iff_mayTake,
    IrqLevel.mem_all, forall_true_left]

/-- Without NMI what is chosen, if anything is, is an IRQ. -/
theorem State.acceptable_ne_of_not_nmi (h : rq.nmi = false) {c : TrapCause} (hc : ∀ n, c ≠ .irq n) :
    s.acceptable rq ≠ some c := by
  rw [State.acceptable_of_not_nmi h, Ne, Option.map_eq_some_iff]
  rintro ⟨n, -, rfl⟩
  exact hc n rfl

end

/-- Settles O50: NMI decides when it is asserted, and the search through the IRQs when it is not. -/
theorem interruptSelection : Obligations.InterruptSelection := by
  intro s rq
  cases hn : rq.nmi with
  | true => simp [State.acceptable_of_nmi hn]
  | false =>
    have hne : ∀ {c : TrapCause}, (∀ n, c ≠ .irq n) → s.acceptable rq ≠ some c := State.acceptable_ne_of_not_nmi hn
    exact ⟨iff_of_false (hne nofun) Bool.false_ne_true, fun n => by simp [State.acceptable_eq_irq_iff hn],
      by simp [State.acceptable_eq_none_iff hn], hne nofun, hne nofun⟩

end Sys2Proof.Machine

namespace Sys2Proof.Machine

open Sys2Proof.Claims

/-! The miscellaneous instructions and the repeats (47_misc.md R320 to R327): what REPI and REPR make of the instruction that
follows, and what they refuse. -/

/-- ILG raises its exception, which inside a REPR loop returns to the REPR (R324, 60_exceptions.md R370). -/
theorem exec_ilg (s : State) :
    exec .ilg s = .next ((s.advance 1).trap .illegalInstruction (if s.reprA then s.pgc - 2 else (s.advance 1).pgc)) := rfl

/-- Settles O44: each meaning is the one its rule gives. -/
theorem miscResults : Obligations.MiscResults := fun s => ⟨rfl, rfl, fun _ => rfl, fun _ => rfl, exec_ilg s⟩

/-! ### The repeat rule (R325) -/

section
variable {u : State} {a : Ptr}

theorem State.repeatRule_of_repi_ne (hi : u.repiA = true) (hn : u.repiN ≠ 0) :
    u.repeatRule a = { u with repiN := u.repiN - 1 }.setPgc a := by
  rw [State.repeatRule, if_pos hi, if_pos hn]

theorem State.repeatRule_of_repi_zero (hi : u.repiA = true) (hn : u.repiN = 0) :
    u.repeatRule a = { u with repiA := false } := by
  rw [State.repeatRule, if_pos hi, if_neg (not_not_intro hn)]

/-- REPR counts its register down, and the loop goes on while the register is not yet 0 and Z is clear. -/
theorem State.repeatRule_of_repr_goesOn (hi : u.repiA = false) (hr : u.reprA = true) (hp : u.getP u.reprR ≠ 1)
    (hz : u.flags.z = false) : u.repeatRule a = (u.setP u.reprR (u.getP u.reprR - 1)).setPgc a := by
  have hzero : u.getP u.reprR - 1 ≠ 0 := sub_ne_zero.mpr hp
  rw [State.repeatRule, if_neg (Bool.eq_false_iff.mp hi), if_pos hr]
  exact if_pos ⟨hzero, hz⟩

/-- The register is counted down by the iteration that ends the loop too. -/
theorem State.repeatRule_of_repr_ends (hi : u.repiA = false) (hr : u.reprA = true)
    (h : u.getP u.reprR = 1 ∨ u.flags.z = true) :
    u.repeatRule a = { u.setP u.reprR (u.getP u.reprR - 1) with reprA := false } := by
  have hstops : ¬ (u.getP u.reprR - 1 ≠ 0 ∧ u.flags.z = false) := fun ⟨hp, hz⟩ =>
    h.elim (sub_ne_zero.mp hp) (Bool.eq_false_iff.mp hz)
  rw [State.repeatRule, if_neg (Bool.eq_false_iff.mp hi), if_pos hr]
  exact if_neg hstops

theorem State.repeatRule_of_none (hi : u.repiA = false) (hr : u.reprA = false) : u.repeatRule a = u := by
  simp only [State.repeatRule, hi, hr, Bool.false_eq_true, if_false]

/-- Going back to an even address keeps it whole. -/
theorem State.setPgc_of_even (h : a.getLsbD 0 = false) (t : State) : t.setPgc a = { t with pgc := a } := by
  rw [State.setPgc, and_fixedZero_of_even h]

end

/-- After an instruction that may be repeated the step is the repeat rule on what the instruction leaves. -/
theorem step_eq_repeatRule {i : Instr} {s u : State} (h : fetchesNext s) (hd : decode s.fetchBytes = .ok i)
    (hi : notRepeatable i = false) (he : exec i s.pastBoundary = .next u) : step s = .next (u.repeatRule s.pgc) := by
  rw [step_of_decoded h hd, runInstr_of_next (by rw [hi, Bool.and_false]) he, (notPrefix_of_repeatable hi).1,
    if_neg Bool.false_ne_true, State.pastBoundary_pgc]

/-- Settles O45: each clause is a case of the repeat rule. -/
theorem repeatRuleSteps : Obligations.RepeatRuleSteps := by
  intro i s u hs heven hd hi he
  rw [step_eq_repeatRule hs hd hi he]
  refine ⟨fun ha hn => ?repi, fun ha hn => ?repiEnds, fun ha hr hp hz => ?repr, fun ha hr hend => ?reprEnds, fun ha hr => ?none⟩
  case repi => rw [State.repeatRule_of_repi_ne ha hn, State.setPgc_of_even heven]
  case repiEnds => rw [State.repeatRule_of_repi_zero ha hn]
  case repr => rw [State.repeatRule_of_repr_goesOn ha hr hp hz, State.setPgc_of_even heven]
  case reprEnds => rw [State.repeatRule_of_repr_ends ha hr hend]
  case none => rw [State.repeatRule_of_none ha hr]

/-! ### The misused repeat (R326) -/

theorem isRepeatPrefix_iff (i : Instr) : isRepeatPrefix i = true ↔ (∃ n, i = .repi n) ∨ ∃ r, i = .repr r := by
  unfold isRepeatPrefix
  split
  case h_3 => simp_all
  all_goals simp

theorem writesPgc_iff (i : Instr) : writesPgc i = true ↔
    (∃ cc o, i = .jrCond cc o) ∨ (∃ o, i = .jrS o) ∨ (∃ v, i = .jrL v) ∨ (∃ v, i = .jpHml v) ∨ (∃ m, i = .jpRm m) ∨
    (∃ m, i = .jea m) ∨ (∃ o, i = .crS o) ∨ (∃ v, i = .crL v) ∨ (∃ v, i = .callHml v) ∨ (∃ m, i = .callRm m) ∨
    (∃ m, i = .cea m) ∨ (∃ n, i = .rst n) ∨ (∃ r o, i = .djnz r o) ∨ i = .ret ∨ i = .reti := by
  constructor
  · intro h
    cases i with
    | jrCond | jrS | jrL | jpHml | jpRm | jea | crS | crL | callHml | callRm | cea | rst | djnz | ret | reti => simp
    | _ => nomatch h
  · rintro (⟨_, _, rfl⟩ | ⟨_, rfl⟩ | ⟨_, rfl⟩ | ⟨_, rfl⟩ | ⟨_, rfl⟩ | ⟨_, rfl⟩ | ⟨_, rfl⟩ | ⟨_, rfl⟩ | ⟨_, rfl⟩ | ⟨_, rfl⟩ |
      ⟨_, rfl⟩ | ⟨_, rfl⟩ | ⟨_, _, rfl⟩ | rfl | rfl) <;> rfl

theorem notRepeatable_iff (i : Instr) :
    notRepeatable i = true ↔ i = .halt ∨ isRepeatPrefix i = true ∨ writesPgc i = true := by
  rw [notRepeatable, Bool.or_eq_true, Bool.or_eq_true, beq_iff_eq, or_comm]

section
variable {s : State} {e : Refusal}

/-- A decoded instruction is refused by the repeat in progress alone, as every meaning goes on. -/
theorem runInstr_refused_iff (i : Instr) :
    runInstr i s = .refused e ↔
      e = .repeatMisuse ∧ (s.repiA = true ∨ s.reprA = true) ∧ notRepeatable i = true := by
  rw [← Bool.or_eq_true, ← Bool.and_eq_true]
  cases hr : (s.repiA || s.reprA) && notRepeatable i with
  | true => simp [runInstr, hr, eq_comm]
  | false =>
    obtain ⟨u, hu⟩ := exec_goesOn i s
    simp [runInstr_of_next hr hu]

theorem fetchAndRun_refused_iff :
    fetchAndRun s = .refused e ↔ e = .repeatMisuse ∧ (s.repiA = true ∨ s.reprA = true) ∧
      ∃ i, decode s.fetchBytes = .ok i ∧ notRepeatable i = true := by
  unfold fetchAndRun
  cases hd : decode s.fetchBytes with
  | ok i => simp [runInstr_refused_iff]
  | error d =>
    cases d with
    | malformed i =>
      obtain ⟨u, hu⟩ := exec_goesOn i s
      simp [hu]
    | nonexistent w | truncated => simp

/-- At a boundary where no instruction is fetched a step goes on. -/
theorem step_goesOn_of_not_fetchesNext (h : ¬ fetchesNext s) : GoesOn (step s) := by
  cases hr : s.asserted.reset with
  | true => exact ⟨_, step_of_reset hr⟩
  | false =>
    cases hh : s.halted with
    | true =>
      cases ha : s.acceptable s.asserted with
      | none => exact ⟨_, step_of_halted_waiting hr hh ha⟩
      | some c => exact ⟨_, step_of_halted_interrupted hr hh ha⟩
    | false =>
      have hi : s.repiA = false := Bool.eq_false_iff.mpr fun hi => h ⟨hr, hh, .inl hi⟩
      obtain ⟨c, ha⟩ := Option.ne_none_iff_exists'.mp fun ha => h ⟨hr, hh, .inr ha⟩
      exact ⟨_, step_of_interrupted hr hh hi ha⟩

theorem step_refused_iff :
    step s = .refused e ↔ e = .repeatMisuse ∧ fetchesNext s ∧ (s.repiA = true ∨ s.reprA = true) ∧
      ∃ i, decode s.fetchBytes = .ok i ∧ notRepeatable i = true := by
  by_cases h : fetchesNext s
  · simp only [step_of_fetchesNext h, fetchAndRun_refused_iff, State.fetchBytes_pastBoundary, State.pastBoundary_repiA,
      State.pastBoundary_reprA, h, true_and]
  · obtain ⟨t, ht⟩ := step_goesOn_of_not_fetchesNext h
    simp [ht, h]

end

/-- Settles O46: there is no fault to end in, and only the repeat in progress refuses. -/
theorem stepStopsOnlyOnMisuse : Obligations.StepStopsOnlyOnMisuse := by
  refine ⟨fun _ e => (nomatch e), fun _ _ => step_refused_iff, fun i => ?_⟩
  rw [notRepeatable_iff, isRepeatPrefix_iff, writesPgc_iff, or_assoc]

end Sys2Proof.Machine

namespace Sys2Proof.Machine

open Sys2Proof.Claims

/-! RETI after a trap (60_exceptions.md R378, 48_macros.md R350): the two pops take back what the two pushes of entry saved. -/

/-- A trap stores to its frame alone. -/
theorem KeepsBytes.trap (s : State) (c : TrapCause) (ret : Ptr) :
    KeepsBytes (touched .p (s.getP 7 - 4) ++ touched .w (s.getP 7 - 6)) s (s.trap c ret) := by
  refine ⟨rfl, fun b hb hout => ?_⟩
  obtain ⟨hp, hw⟩ := not_or.mp (mt List.mem_append.mpr hout)
  exact (s.byteAt_trap c ret hb).trans (State.byteAt_framed_of_not_mem hb hp hw)

/-- A read of memory finds what it did before if none of its bytes is among those stored to. -/
theorem KeepsBytes.memRead {bs : List Ptr} {s t : State} (h : KeepsBytes bs s t) {z : Size} {a : Ptr}
    (hm : ∀ b ∈ touched z a, s.isMemory b = true) (hout : ∀ b ∈ touched z a, b ∉ bs) : t.memRead z a = s.memRead z a := by
  have hm' : ∀ b ∈ touched z a, t.isMemory b = true := fun b hb => (State.isMemory_congr h.map b).trans (hm b hb)
  have hbytes : ∀ b ∈ touched z a, t.byteAt b = s.byteAt b := fun b hb => h.bytes b (hm b hb) (hout b hb)
  cases z with
  | b => exact hbytes a (List.mem_singleton_self a)
  | w =>
    simp only [touched, List.forall_mem_cons] at hm hm' hbytes
    obtain ⟨hm0, hm1, -⟩ := hm
    obtain ⟨hm0', hm1', -⟩ := hm'
    obtain ⟨h0, h1, -⟩ := hbytes
    rw [State.memRead, State.memRead, State.wordAt_of_isMemory hm0 hm1, State.wordAt_of_isMemory hm0' hm1', h0, h1]
  | p =>
    rw [State.memRead_p_of_isMemory hm, State.memRead_p_of_isMemory hm']
    simp only [touched, List.forall_mem_cons] at hbytes
    obtain ⟨h0, h1, h2, -⟩ := hbytes
    rw [h0, h1, h2]

/-- The two cells of a frame have no byte in common. -/
theorem frame_disjoint (sp : Ptr) : ∀ b ∈ touched .p (sp - 4), b ∉ touched .w (sp - 6) := by
  obtain ⟨h2, h3, h4⟩ := above_not_mem_word (evenAddr (sp - 6))
  have hp : touched .p (sp - 4) = [evenAddr (sp - 6) + 2, evenAddr (sp - 6) + 3, evenAddr (sp - 6) + 4] := by
    simp only [touched, evenAddr_frame, BitVec.add_assoc]
    rfl
  simp only [hp, List.forall_mem_cons]
  exact ⟨h2, h3, h4, by simp⟩

/-- A write changes memory and what the platform has seen. -/
theorem State.exists_memWrite_eq (s : State) (z : Size) (a : Ptr) (v : BitVec z.bits) :
    ∃ mem bus, s.memWrite z a v = { s with mem := mem, bus := bus } := by
  refine ⟨(s.memWrite z a v).mem, (s.memWrite z a v).bus, ?_⟩
  calc s.memWrite z a v
    _ = { s.memWrite z a v with mem := (s.memWrite z a v).mem, bus := (s.memWrite z a v).bus } := rfl
    _ = { s with mem := (s.memWrite z a v).mem, bus := (s.memWrite z a v).bus } := by
      simp only [State.memWrite_p, State.memWrite_pgc, State.memWrite_flags, State.memWrite_irl, State.memWrite_repiA,
        State.memWrite_repiN, State.memWrite_reprA, State.memWrite_reprR, State.memWrite_halted, State.memWrite_requests,
        State.memWrite_freeCount, State.memWrite_map]

/-- And so do the two writes of a frame. -/
theorem State.exists_framed_eq (s : State) (ret : Ptr) : ∃ mem bus, s.framed ret = { s with mem := mem, bus := bus } := by
  obtain ⟨m, b, hret⟩ := s.exists_memWrite_eq .p (s.getP 7 - 4) ret
  obtain ⟨mem, bus, hwf⟩ := (s.memWrite .p (s.getP 7 - 4) ret).exists_memWrite_eq .w (s.getP 7 - 6) s.wf
  refine ⟨mem, bus, hwf.trans ?_⟩
  rw [hret]

/-- After a trap and the two pops, which move SP, read from memory and write WF and PGC, every other field is as it was but for
the bits that entry clears. -/
theorem trap_pops_frame (s : State) (c : TrapCause) (ret : Ptr) (w : Word) (x y a b v : Ptr) :
    ∃ bus, ((((((((s.trap c ret).advance 1).setP 7 x).didRead .w a).setWf w).advance 1).setP 7 y).didRead .p b).setPgc v =
      { s with
        p := ((((s.setP 7 (s.getP 7 - 4)).setP 7 (s.getP 7 - 6)).setP 7 x).setP 7 y).p
        pgc := v &&& 0xFFFFFE
        flags := (s.setWf w).flags
        irl := (s.setWf w).irl
        mem := (s.trap c ret).mem
        bus := bus
        repiA := false
        reprA := false
        halted := false } := by
  obtain ⟨mem, bus, h⟩ := s.exists_framed_eq ret
  rw [State.trap_mem, State.trap_eq, h]
  exact ⟨_, rfl⟩

section
variable {s t : State} {ret : Ptr} (hs : s.mem.wf = true)
  (hram : ∀ a ∈ touched .p (s.getP 7 - 4) ++ touched .w (s.getP 7 - 6), s.isRam a = true)
include hs hram

/-- Where the frame is RAM, a state with the memory that entry left finds in the lower cell the old WF. -/
theorem State.memRead_frame_wf (hmem : t.mem = (s.framed ret).mem) (hmap : t.map = s.map) :
    t.memRead .w (s.getP 7 - 6) = s.wf := by
  have hcell : ∀ b ∈ touched .w (s.getP 7 - 6), (s.memWrite .p (s.getP 7 - 4) ret).isRam b = true := fun b hb =>
    (State.isRam_congr (s.memWrite_map _ _ _) b).trans (hram b (List.mem_append_right _ hb))
  have hkeeps : KeepsBytes [] (s.framed ret) t := .of_mem hmem (hmap.trans (s.framed_map ret).symm)
  have hm : ∀ b ∈ touched .w (s.getP 7 - 6), (s.framed ret).isMemory b = true := fun b hb =>
    (State.isMemory_congr (State.memWrite_map _ _ _ _) b).trans (State.isMemory_of_isRam (hcell b hb))
  exact (hkeeps.memRead hm fun _ _ => List.not_mem_nil).trans
    (State.memRead_memWrite_self (z := .w) (State.wf_memWrite hs _ _ _) hcell s.wf)

/-- And in the upper cell the return address, which the write of the old WF did not reach. -/
theorem State.memRead_frame_ret (hmem : t.mem = (s.framed ret).mem) (hmap : t.map = s.map) :
    t.memRead .p (s.getP 7 - 4) = ret := by
  have hcell : ∀ b ∈ touched .p (s.getP 7 - 4), s.isRam b = true := fun b hb => hram b (List.mem_append_left _ hb)
  have hkeeps : KeepsBytes (touched .w (s.getP 7 - 6)) (s.memWrite .p (s.getP 7 - 4) ret) t :=
    (KeepsBytes.memWrite (z := .w) _ s.wf).trans (.of_mem hmem (hmap.trans (s.framed_map ret).symm))
  have hm : ∀ b ∈ touched .p (s.getP 7 - 4), (s.memWrite .p (s.getP 7 - 4) ret).isMemory b = true := fun b hb =>
    (State.isMemory_congr (s.memWrite_map _ _ _) b).trans (State.isMemory_of_isRam (hcell b hb))
  exact (hkeeps.memRead hm (frame_disjoint _)).trans (State.memRead_memWrite_self (z := .p) hs hcell ret)

/-- The first half of RETI takes back the push of WF, and SP then stands at the return address. -/
theorem loadStatus_trap (c : TrapCause) :
    loadStatus (.postInc 7) (s.trap c ret) =
      ((((s.trap c ret).advance 1).setP 7 (s.getP 7 - 4)).didRead .w (s.getP 7 - 6)).setWf s.wf := by
  have hsp : s.getP 7 - 6 + 2 = s.getP 7 - 4 := by generalize s.getP 7 = x; bv_omega
  have hread : ((s.trap c ret).advance 1).memRead .w (s.getP 7 - 6) = s.wf :=
    State.memRead_frame_wf hs hram (s.trap_mem c ret) rfl
  rw [loadStatus_pop, State.getP_trap_sp, hsp, hread]

/-- The second half takes back the push of the return address, and SP then stands where it did before the trap. -/
theorem reti_trap (c : TrapCause) : ∃ bus, exec .reti (s.trap c ret) = .next
    { s with
      pgc := ret &&& 0xFFFFFE
      mem := (s.trap c ret).mem
      bus := bus
      repiA := false
      reprA := false
      halted := false } := by
  have hload := loadStatus_trap (ret := ret) hs hram c
  have hsp : (loadStatus (.postInc 7) (s.trap c ret)).getP 7 = s.getP 7 - 4 := by
    rw [hload]
    exact State.getP_setP_self _ 7 _
  have hread : ((loadStatus (.postInc 7) (s.trap c ret)).advance 1).memRead .p (s.getP 7 - 4) = ret := by
    rw [hload]
    exact State.memRead_frame_ret hs hram (s.trap_mem c ret) rfl
  obtain ⟨bus, hframe⟩ := trap_pops_frame s c ret s.wf (s.getP 7 - 4) (s.getP 7) (s.getP 7 - 6) (s.getP 7 - 4) ret
  rw [State.setP_setP, State.setP_setP, State.setP_setP, State.setP_getP, State.setWf_wf] at hframe
  have hpops : exec .reti (s.trap c ret) = .next (jumpToValue (.postInc 7) (loadStatus (.postInc 7) (s.trap c ret))) := rfl
  rw [hpops, jumpToValue_pop, hsp, hread, sub_add_cancel, hload, hframe]
  exact ⟨bus, rfl⟩

end

/-- Settles O48: `reti_trap` gives the state after the two pops, and nothing but entry has stored a byte. -/
theorem trapThenReti : Obligations.TrapThenReti := by
  intro c ret s hs heven hram
  obtain ⟨bus, hreti⟩ := reti_trap (ret := ret) hs hram c
  rw [and_fixedZero_of_even heven] at hreti
  have hframe := KeepsBytes.trap s c ret
  refine ⟨_, hreti, rfl, KeepsBytes.bytes ?_⟩
  exact hframe.trans (.of_mem rfl hframe.map.symm)

end Sys2Proof.Machine
